-- ==== Sys2Proof/Word.lean ====
section
/-!
DEFINITION. The word types of the block: the widths the spec states (spec/00_scope.md R6, R8) under the names
it uses them by. Every value of the block is unsigned (R8).
-/

namespace Sys2Proof

/-- One byte: event data, command codes, page values, status bits, checksum values (R8 `u8`). -/
abbrev Byte := BitVec 8

/-- Format EV, the 16-bit event word of the bus port (R91). -/
abbrev EventWord := BitVec 16

/-- A backing-storage address, `ADDR_BITS` = 16 bits (R6, D26). -/
abbrev Address := BitVec 16

/-- A byte counter, `IDX_BITS` = 16 bits (R6, D7). -/
abbrev Counter := BitVec 16

/-- The effective write length, 9 bits (R27, D8). -/
abbrev Length := BitVec 9

end Sys2Proof
end

