-- ==== Sys2Proof/Syntax.lean ====
section
/-!
DEFINITION. The operations of the block: one constructor per row of spec/opcode_table.json (R107), in the table's
order. Ten bus events of format EV (R92), two application-port operations of format APP (R96), four internal
contract operations of format INT (R97).
-/

namespace Sys2Proof

/-- A deferred-command queue entry `{code, page}` (R30). -/
structure QEntry where
  /-- the command code of the send-byte command -/
  code : Byte
  /-- the page register's value when it was enqueued -/
  page : Byte
deriving DecidableEq, Repr

/-- One operation of the block (R5, R107). An event carries its data byte even where the spec ignores it (R91, R99),
so that no bit of the event word is dropped. -/
inductive Instr where
  /-- `BUS_ERROR`, code 0x00 (R191); the data byte is ignored -/
  | busError (data : Byte)
  /-- `ADDR_W`, code 0x60 (R141): the address+direction byte received -/
  | addrW (a : Byte)
  /-- `ADDR_GC`, code 0x70 (R142): the general-call address+direction byte received -/
  | addrGc (a : Byte)
  /-- `DATA_RX`, code 0x80 (R149): the byte received -/
  | dataRx (b : Byte)
  /-- `DATA_RX_GC`, code 0x90 (R155): the byte received -/
  | dataRxGc (b : Byte)
  /-- `STOP_RESTART`, code 0xA0 (R150); the data byte is ignored -/
  | stopRestart (data : Byte)
  /-- `ADDR_R`, code 0xA8 (R171): the address+direction byte received -/
  | addrR (a : Byte)
  /-- `DATA_TX_ACK`, code 0xB8 (R178); the data byte is ignored -/
  | dataTxAck (data : Byte)
  /-- `DATA_TX_NACK`, code 0xC0 (R179); the data byte is ignored -/
  | dataTxNack (data : Byte)
  /-- `UNRECOGNIZED`, every other code value (R192); the data byte is ignored -/
  | unrecognized (code data : Byte)
  /-- `Q_DEPTH`, application port, op 1 (R133) -/
  | qDepth
  /-- `Q_POP`, application port, op 2 (R132) -/
  | qPop
  /-- `CRC_RESET`, internal id 0 (R122) -/
  | crcReset
  /-- `CRC_UPDATE`, internal id 1 (R123): the byte fed -/
  | crcUpdate (b : Byte)
  /-- `CRC_VALUE`, internal id 2 (R124) -/
  | crcValue
  /-- `Q_PUSH`, internal id 3 (R131): the entry pushed -/
  | qPush (e : QEntry)
deriving DecidableEq, Repr

/-- The two contexts of R215. -/
inductive Context where
  /-- ordinary application code -/
  | application
  /-- the dispatcher handling one bus event -/
  | interrupt
deriving DecidableEq, Repr

/-- A word as one of the block's interfaces carries it (R90 to R97). The spec gives an internal operation's operands
no encoding (R97: it is not a port); they are carried as the bytes that spec/opcode_table.json names. -/
inductive PortWord where
  /-- bus port, format EV -/
  | event (w : EventWord)
  /-- application port, format APP -/
  | app (op : BitVec 2)
  /-- internal contract operation, format INT, with its operand bytes -/
  | internal (id : BitVec 3) (operands : List Byte)
deriving DecidableEq, Repr

/-- One move of the environment or the application, as the model's input queue holds it (R10, R80;
notes/assumptions/6.md, notes/assumptions/9.md). -/
inductive Request where
  /-- an operation and the context that issues it (R215) -/
  | op (issuer : Context) (word : PortWord)
  /-- the application reads one byte of backing storage (R215, R216) -/
  | appRead (a : Address)
  /-- the application writes one byte of backing storage, the extra liberty that R216 and U14 let a model add
  (notes/assumptions/16.md) -/
  | appWrite (a : Address) (v : Byte)
  /-- reset of the block (R230), at any step boundary: whether it can hit a running block the spec leaves open (DESIGN
  CHOICE, notes/assumptions/21.md) -/
  | reset
deriving DecidableEq, Repr

end Sys2Proof
end

