-- ==== Sys2Proof/WellFormed.lean ====
section
/-!
DEFINITION. Which terms of `Instr` are operations of the block: `UNRECOGNIZED` stands for the 247 code values that
R92 does not name (R99), so its code is none of the nine named ones.
-/

namespace Sys2Proof

/-- The nine code values that R92 names. -/
def namedEventCodes : List Byte :=
  [0x00, 0x60, 0x70, 0x80, 0x90, 0xA0, 0xA8, 0xB8, 0xC0]

/-- A well-formed operation (R92, R99). -/
def Instr.wf : Instr → Bool
  | .unrecognized code _ => !namedEventCodes.contains code
  | .busError _ | .addrW _ | .addrGc _ | .dataRx _ | .dataRxGc _ | .stopRestart _ | .addrR _
  | .dataTxAck _ | .dataTxNack _ | .qDepth | .qPop | .crcReset | .crcUpdate _ | .crcValue
  | .qPush _ => true

end Sys2Proof
end

