-- ==== Sys2Proof/Decode.lean ====
section
/-!
DEFINITION. Decoding and encoding of the three formats (spec/30_encoding.md R91, R92, R96, R97, R98 step 1, R99),
and the numbering of spec/opcode_table.json. Whether an event is enabled in the current `MODE` (R98 step 2) is no
part of decoding: "`MODE` changes which events are enabled, not how a word is split into fields" (R108).
-/

namespace Sys2Proof

/-- Why a word is no operation. -/
inductive DecodeError where
  /-- application-port `op` 0 or 3, reserved: "change no state and return nothing" (R99) -/
  | reservedAppOp
  /-- internal ids 4 to 7 "name nothing" (R97) -/
  | unnamedInternal
  /-- an internal operation given more or fewer operand bytes than it takes (model's own carrier, R97) -/
  | operandCount
deriving DecidableEq, Repr

/-- The `code` field of an event word, bits 15:8 (R91). -/
def eventCode (w : EventWord) : Byte := w.extractLsb' 8 8

/-- The `data` field of an event word, bits 7:0 (R91). -/
def eventData (w : EventWord) : Byte := w.extractLsb' 0 8

/-- R98 step 1: the row of R92 with this code, and `UNRECOGNIZED` where there is none. -/
def decodeEvent (code data : Byte) : Instr :=
  if code = 0x00 then .busError data
  else if code = 0x60 then .addrW data
  else if code = 0x70 then .addrGc data
  else if code = 0x80 then .dataRx data
  else if code = 0x90 then .dataRxGc data
  else if code = 0xA0 then .stopRestart data
  else if code = 0xA8 then .addrR data
  else if code = 0xB8 then .dataTxAck data
  else if code = 0xC0 then .dataTxNack data
  else .unrecognized code data

/-- Format APP (R96, R99). -/
def decodeApp (op : BitVec 2) : Except DecodeError Instr :=
  if op = 1 then .ok .qDepth
  else if op = 2 then .ok .qPop
  else .error .reservedAppOp

/-- Format INT (R97). -/
def decodeInternal (id : BitVec 3) (operands : List Byte) : Except DecodeError Instr :=
  if id = 0 then
    match operands with
    | [] => .ok .crcReset
    | _ :: _ => .error .operandCount
  else if id = 1 then
    match operands with
    | [b] => .ok (.crcUpdate b)
    | _ => .error .operandCount
  else if id = 2 then
    match operands with
    | [] => .ok .crcValue
    | _ :: _ => .error .operandCount
  else if id = 3 then
    match operands with
    | [c, p] => .ok (.qPush { code := c, page := p })
    | _ => .error .operandCount
  else .error .unnamedInternal

/-- The decoder: total on every word of every interface. No event word is illegal (R99). -/
def decode : PortWord → Except DecodeError Instr
  | .event w => .ok (decodeEvent (eventCode w) (eventData w))
  | .app op => decodeApp op
  | .internal id operands => decodeInternal id operands

/-- The event word with this code and data byte (R91). -/
def eventWord (code data : Byte) : EventWord := code ++ data

/-- The encoder, from the same tables (R91, R92, R96, R97). -/
def encode : Instr → PortWord
  | .busError data => .event (eventWord 0x00 data)
  | .addrW a => .event (eventWord 0x60 a)
  | .addrGc a => .event (eventWord 0x70 a)
  | .dataRx b => .event (eventWord 0x80 b)
  | .dataRxGc b => .event (eventWord 0x90 b)
  | .stopRestart data => .event (eventWord 0xA0 data)
  | .addrR a => .event (eventWord 0xA8 a)
  | .dataTxAck data => .event (eventWord 0xB8 data)
  | .dataTxNack data => .event (eventWord 0xC0 data)
  | .unrecognized code data => .event (eventWord code data)
  | .qDepth => .app 1
  | .qPop => .app 2
  | .crcReset => .internal 0 []
  | .crcUpdate b => .internal 1 [b]
  | .crcValue => .internal 2 []
  | .qPush e => .internal 3 [e.code, e.page]

/-- How many operand bytes an internal operation takes (spec/opcode_table.json, `operands`). -/
def internalOperandCount (id : BitVec 3) : Nat :=
  if id = 1 then 1 else if id = 3 then 2 else 0

/-- The context that may issue an operation (R196, R215): the application port belongs to the application; events,
checksum operations and `Q_PUSH` to the dispatcher. -/
def Instr.context : Instr → Context
  | .qDepth | .qPop => .application
  | .busError _ | .addrW _ | .addrGc _ | .dataRx _ | .dataRxGc _ | .stopRestart _ | .addrR _
  | .dataTxAck _ | .dataTxNack _ | .unrecognized _ _ | .crcReset | .crcUpdate _ | .crcValue
  | .qPush _ => .interrupt

/-- The word that a number of spec/opcode_table.json stands for. 16 bits are an event word, 2 bits format APP, 3 bits
format INT. A whole byte is either of the last two, and the two formats number their rows over each other (R96,
R97): DESIGN CHOICE (notes/assumptions/2.md), 1 and 2 are read at the application port, which is a port, and 0 and
3, which that port reserves, as the internal operations; larger numbers are no row. Operands that the table gives
no bits are zero. -/
def tableWord (nbits w : Nat) : Option PortWord :=
  if nbits = 16 then some (.event (BitVec.ofNat 16 w))
  else if nbits = 2 then some (.app (BitVec.ofNat 2 w))
  else if nbits = 3 then
    some (.internal (BitVec.ofNat 3 w) (List.replicate (internalOperandCount (BitVec.ofNat 3 w)) 0))
  else if nbits = 8 then
    if w = 1 then some (.app 1)
    else if w = 2 then some (.app 2)
    else if w = 0 then some (.internal 0 [])
    else if w = 3 then some (.internal 3 [0, 0])
    else none
  else none

/-- The operation that the decoder reads from a number of spec/opcode_table.json. -/
def decodeTableWord (nbits w : Nat) : Option Instr :=
  match tableWord nbits w with
  | some word =>
    match decode word with
    | .ok i => some i
    | .error _ => none
  | none => none

end Sys2Proof
end

