-- ==== Sys2Proof/Config.lean ====
section
/-!
DEFINITION. The launch configuration: every parameter that spec/00_scope.md R6 leaves open, and the command
table and command index of spec/20_memory.md R60 to R62. It is fixed before the first event (R7, R39); the model
carries it in `State.cfg`, which no step changes, so that every statement over all states holds for every
configuration.
-/

namespace Sys2Proof

/-- Command descriptor (R60): attribute bit 0 is `PAGED`, bit 1 `BLOCK`, bit 2 `LEN_BYTE_FIRST`. -/
structure Descriptor where
  /-- the command code this descriptor answers -/
  code : Byte
  /-- the three attribute bits -/
  attributes : BitVec 3
  /-- `R`: how many payload bytes a read returns -/
  readLength : Byte
  /-- `Wn`: how many bytes a write carries; for a block command the declared maximum -/
  writeLength : Byte
  /-- first address of the command's backing storage -/
  storageAddress : Address
deriving DecidableEq, Repr

/-- A range of allocated backing-storage addresses, both ends included; a list of them is the launch predicate
`StoreValid` of R64 as plain data. -/
structure Region where
  /-- lowest allocated address -/
  first : Nat
  /-- highest allocated address -/
  last : Nat
deriving DecidableEq, Repr

/-- The launch configuration (R6, R7). The parameters that the spec fixes are constants of the machine's files
(Machine/Flags.lean, Machine/Crc.lean, Machine/Operands.lean). -/
structure Config where
  /-- `Q_CAPACITY`, the number of entries the deferred-command queue holds (OPEN, at least 1) -/
  qCapacity : Nat
  /-- `NUM_PAGES` (OPEN, 1 to 255) -/
  numPages : Nat
  /-- `GC_ENABLE`: general-call address matches are delivered (OPEN, D25) -/
  gcEnable : Bool
  /-- `STATUS_WORD_ENABLE`: the per-page status words exist (OPEN, D18) -/
  statusWordEnable : Bool
  /-- `STORAGE_MSB_FIRST` (default false, D15) -/
  storageMsbFirst : Bool := false
  /-- `CML_ADDR`, the address of the fault byte (OPEN, D18) -/
  cmlAddr : Address
  /-- `STATUS_WORD_ADDR`, the address of page 0's status word (OPEN, D18) -/
  statusWordAddr : Address
  /-- `SLAVE_ADDR`, the 7-bit own address (OPEN; the block never compares it) -/
  slaveAddr : BitVec 7
  /-- the command table, an ordered list of descriptors (R61) -/
  table : List Descriptor
  /-- the command index (R62), sparse: a code paired with a descriptor index; a code that is not listed is
  "unsupported" -/
  index : List (Byte × Nat)
  /-- the allocated addresses (`StoreValid`, R64) -/
  allocated : List Region
deriving DecidableEq, Repr

/-- The page-select command (R63 (b), R235 (b)): code 0, one byte read and written, neither paged nor block; its
storage address is the application's. -/
def Descriptor.pageSelect (a : Address) : Descriptor :=
  { code := 0x00, attributes := 0, readLength := 1, writeLength := 1, storageAddress := a }

/-- DESIGN CHOICE (notes/assumptions/1.md): the configuration `State.reset` is launched with. The spec leaves these
parameters OPEN (R6); the numbers are the ones of its test configuration (spec/95_test_vectors.md section 2), and
the command table holds only the command that is "always-present". Unsafe for a claim about runs from
`State.reset`; no statement rests on it. -/
def Config.launch : Config :=
  { qCapacity := 2
    numPages := 2
    gcEnable := true
    statusWordEnable := true
    cmlAddr := 0x017E
    statusWordAddr := 0x0180
    slaveAddr := 0x20
    table := [Descriptor.pageSelect 0x0100]
    index := [(0x00, 0)]
    allocated := [{ first := 0x0100, last := 0x01FF }] }

end Sys2Proof
end

