-- ==== Sys2Proof/Machine/State.lean ====
section
/-!
DEFINITION. The state of the machine (spec/10_state.md R20 to R46), the reasons a step can stop, the state after
reset (R42, R230), and one named update per field. State is plain data.
-/

namespace Sys2Proof.Machine

/-- The sequencing register `MODE` (R21). -/
inductive Mode where
  /-- 0: no transaction in progress -/
  | idle
  /-- 1: own address + write bit acknowledged -/
  | addrWrite
  /-- 2: own address + read bit acknowledged -/
  | addrRead
  /-- 3: a write phase was closed by STOP or repeated START -/
  | writeEnded
deriving DecidableEq, Repr

/-- The `action` field of a response word (R95). -/
inductive Action where
  /-- 0: re-arm with acknowledge enabled -/
  | ack
  /-- 1: hold the bus; no rule returns it (R95, U11) -/
  | hold
  /-- 2: release SDA/SCL -/
  | release
deriving DecidableEq, Repr

/-- A response word (R94): the next action and the byte to transmit. -/
structure Response where
  /-- what the bus controller does next -/
  action : Action
  /-- the byte to transmit -/
  txdata : Byte
deriving DecidableEq, Repr

/-- What the last operation gave back at its interface (R90, R94, R96; `result` in spec/opcode_table.json). -/
inductive Output where
  /-- nothing: no operation yet, or one without a result -/
  | nothing
  /-- the response word of an event -/
  | response (r : Response)
  /-- the count `Q_DEPTH` returns -/
  | depth (n : Nat)
  /-- the triple `Q_POP` returns -/
  | popped (ok : Bool) (code page : Byte)
  /-- the byte `CRC_VALUE` returns -/
  | crc (b : Byte)
  /-- the flag `Q_PUSH` returns -/
  | pushed (ok : Bool)
  /-- the byte an application read of backing storage returns -/
  | stored (b : Byte)
deriving DecidableEq, Repr

/-- A byte memory as address and byte pairs, addresses strictly rising. -/
abbrev Memory := List Host.Cell

/-- What stops the machine. None of these happens in a state that meets the invariant `State.Sound` of Safety.lean. -/
inductive Fault where
  /-- Raised by the commit point when it copies a scratch byte that nothing has staged; the spec asks for this fault
  (R28). Safe. -/
  | scratchNotStaged (offset : Nat)
  /-- Raised by the staging step at an offset outside `scratch[0..255]` (R28), which no reached state has. Safe. -/
  | scratchOutOfRange (offset : Nat)
  /-- Raised by `Q_PUSH` and `Q_POP` when a ring index lies outside `qRing` (R31, R32), which no reached state has.
  Safe. -/
  | ringIndexOutOfRange (position : Nat)
deriving DecidableEq, Repr

/-- Where the spec gives a step no meaning (`refuse` of R9; spec/93_implementation_defined.md part 1). -/
inductive Refusal where
  /-- Raised by `exec` for an instruction without a meaning yet; no arm does. Safe. -/
  | notModelled (mnemonic : String)
  /-- Raised by any access to an address that is not allocated (R64, U1). Safe. -/
  | storageNotAllocated (address : Nat)
  /-- Raised when the storage base of a paged command is formed while `NUM_PAGES <= PAGE < 0xFF` (R69, U2). Safe. -/
  | pageOutsideLegal (page : Byte)
  /-- Raised when `PAGE` is read and the command index has no entry for code 0 (R36). Safe. -/
  | noPageSelect
  /-- Raised by `step` when the launch configuration fails a check of R63 (U3). Safe. -/
  | illFormedConfiguration
  /-- Raised by `step` when the first event since reset arrives and the application has not initialised `PAGE` to a legal
  value (R216, R236; notes/assumptions/20.md). Safe. -/
  | pageNotInitialised (page : Byte)
  /-- Raised by `step` when an operation comes from the context that may not issue it (R196, R215, U5). Safe. -/
  | wrongContext
  /-- Raised by `step` for an internal id that names nothing, or an internal operation with the wrong number of operand
  bytes (R97). Safe. -/
  | noSuchInternal
deriving DecidableEq, Repr

/-- A stop inside an operation, before it becomes the outcome of the step. -/
inductive Stop where
  /-- a fault -/
  | fault (f : Fault)
  /-- a refusal -/
  | refusal (r : Refusal)
deriving DecidableEq, Repr

/-- The whole state: the launch configuration, the transaction state (R21 to R29), the queue (R30 to R33), backing
storage with `PAGE`, `CML` and the status words in it (R35), and the model's own fields: whether the bus is active, the
input queue and the output port. -/
structure State where
  /-- the launch configuration (R6, R7, R39); no step changes it -/
  cfg : Config
  /-- `MODE`, 2 bits (R21) -/
  mode : Mode
  /-- `errorLatched`, 1 bit (R22) -/
  errorLatched : Bool
  /-- `pec`, 8 bits, the checksum accumulator (R23) -/
  pec : Byte
  /-- `rxIndex`, 16 bits, saturating (R24) -/
  rxIndex : Counter
  /-- `txIndex`, 16 bits, saturating (R25) -/
  txIndex : Counter
  /-- `activeDesc`, the descriptor of the command most recently received, or `NONE` (R26) -/
  activeDesc : Option Descriptor
  /-- `activeCode`, 8 bits (R26) -/
  activeCode : Byte
  /-- `writeLength` (`W`), 9 bits (R27) -/
  writeLength : Length
  /-- `scratch[0..255]` (R28): the offsets staged so far; an offset that is not listed holds no defined byte -/
  scratch : Memory
  /-- `newStatus`, 8 bits, the per-event temporary (R29) -/
  newStatus : Byte
  /-- `qRing[0..Q_CAPACITY-1]` (R30) -/
  qRing : List QEntry
  /-- `qHead`, the position of the oldest entry (R31) -/
  qHead : Nat
  /-- `qTail`, the position written next (R32) -/
  qTail : Nat
  /-- `qFull`, 1 bit (R33) -/
  qFull : Bool
  /-- backing storage (R64) -/
  store : Memory
  /-- the bus is active: since reset an event has been delivered, so the launch duties of R216, R235 and R236 were met;
  the model's own field (notes/assumptions/20.md) -/
  busActive : Bool
  /-- the moves still to come, oldest first: the environment's and the application's choice (R10, R39, R80); the
  model's own field -/
  input : List Request
  /-- what the last operation gave back (R90); the model's own field -/
  out : Output
deriving DecidableEq, Repr

/-- The machine after reset, launched with configuration `c` and backing storage `m` (R42, R230, R236). `qRing` holds
zero entries, which no rule reads (DESIGN CHOICE, notes/assumptions/4.md); `scratch` has nothing staged (R28). The launch
premise on `PAGE` (R216, R236) is checked at the first event, so any `m` is taken here (DESIGN CHOICE,
notes/assumptions/20.md). Whether a reset can hit a running block the spec leaves open; `Request.reset` is that move
(DESIGN CHOICE, notes/assumptions/21.md). -/
def State.launch (c : Config) (m : Memory) : State :=
  { cfg := c
    mode := .idle
    errorLatched := false
    pec := 0x00
    rxIndex := 0
    txIndex := 0
    activeDesc := none
    activeCode := 0x00
    writeLength := 0
    scratch := []
    newStatus := 0
    qRing := List.replicate c.qCapacity { code := 0x00, page := 0x00 }
    qHead := 0
    qTail := 0
    qFull := false
    store := m
    busActive := false
    input := []
    out := .nothing }

/-- The machine right after reset (R42, R230), launched with `Config.launch` (DESIGN CHOICE, notes/assumptions/1.md)
and with nothing listed in backing storage. -/
def State.reset : State := State.launch Config.launch []

/-! One update per field; their lemmas are in Laws/State.lean. -/

/-- `MODE <- x`. -/
def State.setMode (s : State) (x : Mode) : State := { s with mode := x }

/-- `errorLatched <- x`. -/
def State.setErrorLatched (s : State) (x : Bool) : State := { s with errorLatched := x }

/-- `pec <- x`. -/
def State.setPec (s : State) (x : Byte) : State := { s with pec := x }

/-- `rxIndex <- x`. -/
def State.setRxIndex (s : State) (x : Counter) : State := { s with rxIndex := x }

/-- `txIndex <- x`. -/
def State.setTxIndex (s : State) (x : Counter) : State := { s with txIndex := x }

/-- `activeDesc <- d`, `activeCode <- c`. -/
def State.setActive (s : State) (d : Option Descriptor) (c : Byte) : State :=
  { s with activeDesc := d, activeCode := c }

/-- `writeLength <- x`. -/
def State.setWriteLength (s : State) (x : Length) : State := { s with writeLength := x }

/-- `scratch <- x`. -/
def State.setScratch (s : State) (x : Memory) : State := { s with scratch := x }

/-- `newStatus <- x`. -/
def State.setNewStatus (s : State) (x : Byte) : State := { s with newStatus := x }

/-- `qRing <- ring`, `qTail <- tail`, `qFull <- full`: what `Q_PUSH` writes. -/
def State.setPushed (s : State) (ring : List QEntry) (tail : Nat) (full : Bool) : State :=
  { s with qRing := ring, qTail := tail, qFull := full }

/-- `qHead <- head`, `qFull <- full`: what `Q_POP` writes. -/
def State.setPopped (s : State) (head : Nat) (full : Bool) : State :=
  { s with qHead := head, qFull := full }

/-- Backing storage becomes `x`. -/
def State.setStore (s : State) (x : Memory) : State := { s with store := x }

/-- The bus is active, or not. -/
def State.setBusActive (s : State) (x : Bool) : State := { s with busActive := x }

/-- The moves still to come become `x`. -/
def State.setInput (s : State) (x : List Request) : State := { s with input := x }

/-- The output port becomes `x`. -/
def State.setOut (s : State) (x : Output) : State := { s with out := x }

end Sys2Proof.Machine
end

