-- ==== Sys2Proof/Machine/Flags.lean ====
section
/-!
DEFINITION. Every flag and status bit of the block (spec/10_state.md R43) and the numbers of its registers' fields:
the fault masks of `CML` (R37), the summary bit of the status words (R38), the encodings of `MODE` (R21) and of the
response word (R94, R95), and the queue's empty and full conditions (R33).
-/

namespace Sys2Proof.Machine

/-- `ST_CMD`, command fault (R37, D18). -/
def stCmd : Byte := 0x80

/-- `ST_DATA`, data fault (R37, D18). -/
def stData : Byte := 0x40

/-- `ST_PEC`, PEC fault (R37, D18). -/
def stPec : Byte := 0x20

/-- `ST_I2C`, I2C/protocol fault (R37, D18). -/
def stI2c : Byte := 0x02

/-- `ST_WORD_CML`, the summary fault bit of a status word (R38, D18). -/
def stWordCml : BitVec 16 := 0x0002

/-- `ST_WORD_CML[7:0]` (R206). -/
def stWordCmlLow : Byte := stWordCml.extractLsb' 0 8

/-- `ST_WORD_CML[15:8]` (R206). -/
def stWordCmlHigh : Byte := stWordCml.extractLsb' 8 8

/-- The numeric encoding of `MODE` (R21). -/
def Mode.code : Mode → BitVec 2
  | .idle => 0
  | .addrWrite => 1
  | .addrRead => 2
  | .writeEnded => 3

/-- The numeric encoding of `action` (R95). -/
def Action.code : Action → BitVec 2
  | .ack => 0
  | .hold => 1
  | .release => 2

/-- The response word `{action, txdata}` (R94). -/
def Response.word (r : Response) : BitVec 10 := r.action.code ++ r.txdata

/-- `MODE == ADDR_WRITE`, what enables `DATA_RX`, `DATA_RX_GC` and `STOP_RESTART` (R98). -/
def State.inWritePhase (s : State) : Bool := decide (s.mode = .addrWrite)

/-- `MODE == ADDR_READ`, what enables `DATA_TX_ACK` and `DATA_TX_NACK` (R98). -/
def State.inReadPhase (s : State) : Bool := decide (s.mode = .addrRead)

/-- The document's state `Error` (R41): an overlay, no value of `MODE`. -/
def State.inError (s : State) : Bool := s.errorLatched && (s.inWritePhase || s.inReadPhase)

/-- The queue is empty (R33). -/
def State.queueEmpty (s : State) : Bool := decide (s.qHead = s.qTail) && !s.qFull

end Sys2Proof.Machine
end

