-- ==== Sys2Proof/Machine/Ops.lean ====
section
/-!
DEFINITION. The named operations over memory and registers: backing storage (spec/20_memory.md R64), the scratch
buffer (R28, R77), the saturating counter step (R104), the response (R94, R95), and fault entry and exit
(spec/60_exceptions.md R205, R206, R211), which are this block's exception entry and return (R5). The wrapper of
every dispatcher step (R190) is here too.
-/

namespace Sys2Proof.Machine

/-! ### Byte memories -/

/-- The byte listed at address `x`, if one is. -/
def Memory.get : Memory → Nat → Option Byte
  | [], _ => none
  | (a, v) :: m, x => if a = x then some v else Memory.get m x

/-- List byte `v` at address `x`, in its place among rising addresses. -/
def Memory.set : Memory → Nat → Byte → Memory
  | [], x, v => [(x, v)]
  | (a, w) :: m, x, v =>
    if x < a then (x, v) :: (a, w) :: m
    else if x = a then (x, v) :: m
    else (a, w) :: Memory.set m x v

/-- List nothing at address `x`. -/
def Memory.erase : Memory → Nat → Memory
  | [], _ => []
  | (a, w) :: m, x => if a = x then Memory.erase m x else (a, w) :: Memory.erase m x

/-- What an unlisted address of backing storage reads as. DESIGN CHOICE (notes/assumptions/3.md): the spec leaves the
launch contents open (R236, U15). -/
def unlistedByte : Byte := 0x00

/-- The number of backing-storage locations, `2^ADDR_BITS` (R64). -/
def storageSize : Nat := 65536

/-- The byte of backing storage at `a`. -/
def Memory.read (m : Memory) (a : Nat) : Byte := (Memory.get m a).getD unlistedByte

/-- Backing storage with `v` at `a`, in canonical form. -/
def Memory.write (m : Memory) (a : Nat) (v : Byte) : Memory :=
  if v = unlistedByte then Memory.erase m a else Memory.set m a v

/-- Addresses strictly rising: the order part of the canonical form. -/
def Memory.rising (m : Memory) : Bool := decide (m.Pairwise fun c d => c.1 < d.1)

/-- The canonical form of backing storage: rising addresses, inside the address space, none listed with the byte it
would read as anyway. -/
def Memory.wf (m : Memory) : Bool :=
  Memory.rising m && m.all fun c => decide (c.1 < storageSize) && decide (c.2 ≠ unlistedByte)

/-! ### Backing storage -/

/-- `StoreValid(a)` (R64): inside the address space and allocated by the application. -/
def storeValid (c : Config) (a : Nat) : Bool :=
  decide (a < storageSize) && c.allocated.any fun r => decide (r.first ≤ a) && decide (a ≤ r.last)

/-- `Store[a]` (R64). -/
def storeRead (s : State) (a : Nat) : Except Stop Byte :=
  if storeValid s.cfg a then .ok (Memory.read s.store a)
  else .error (.refusal (.storageNotAllocated a))

/-- `Store[a] <- v` (R64). -/
def storeWrite (s : State) (a : Nat) (v : Byte) : Except Stop State :=
  if storeValid s.cfg a then .ok (s.setStore (Memory.write s.store a v))
  else .error (.refusal (.storageNotAllocated a))

/-- Writes in order, each `Store[a] <- v`. -/
def storeWriteAll : List Host.Cell → State → Except Stop State
  | [], s => .ok s
  | (a, v) :: ws, s => do
    let s' ← storeWrite s a v
    storeWriteAll ws s'

/-- Merges in order, each `Store[a] <- Store[a] | v` (R206). -/
def storeOrAll : List Host.Cell → State → Except Stop State
  | [], s => .ok s
  | (a, v) :: ws, s => do
    let old ← storeRead s a
    let s' ← storeWrite s a (old ||| v)
    storeOrAll ws s'

/-! ### Scratch buffer and counters -/

/-- `SCRATCH_SIZE` (R6, D9). -/
def scratchSize : Nat := 256

/-- `scratch[j] <- b` (R28, R77). -/
def scratchWrite (s : State) (j : Nat) (b : Byte) : Except Stop State :=
  if j < scratchSize then .ok (s.setScratch (Memory.set s.scratch j b))
  else .error (.fault (.scratchOutOfRange j))

/-- `scratch[j]`; "a model should treat a read of an unwritten element as a fault" (R28). -/
def scratchRead (s : State) (j : Nat) : Except Stop Byte :=
  match Memory.get s.scratch j with
  | some b => .ok b
  | none => .error (.fault (.scratchNotStaged j))

/-- `scratch[0..n-1]`, in order. -/
def scratchBytes (s : State) : Nat → Except Stop (List Byte)
  | 0 => .ok []
  | n + 1 => do
    let bs ← scratchBytes s n
    let b ← scratchRead s n
    .ok (bs ++ [b])

/-- `sat_inc(x)` (R104). -/
def satInc (x : Counter) : Counter := if x = 0xFFFF then x else x + 1

/-! ### The response -/

/-- `respond(action, txdata)` (R95). -/
def respond (action : Action) (txdata : Byte) (s : State) : State :=
  s.setOut (.response { action := action, txdata := txdata })

/-! ### Fault entry and exit -/

/-- `Latch(s)` (R205): the first fault of a transaction wins. -/
def latch (status : Byte) (s : State) : State :=
  if s.errorLatched then s
  else (s.setNewStatus (s.newStatus ||| status)).setErrorLatched true

/-- The fault exit (R211): only an address match clears the sticky flag. -/
def clearErrorLatch (s : State) : State := s.setErrorLatched false

/-- Where `CML` is. -/
def cmlAddress (c : Config) : Nat := c.cmlAddr.toNat

/-- The address of the low byte of page `p`'s status word (R38, R206). -/
def statusLowAddress (c : Config) (p : Nat) : Nat :=
  c.statusWordAddr.toNat + 2 * p + (if c.storageMsbFirst then 1 else 0)

/-- The address of the high byte of page `p`'s status word (R38, R206). -/
def statusHighAddress (c : Config) (p : Nat) : Nat :=
  c.statusWordAddr.toNat + 2 * p + (if c.storageMsbFirst then 0 else 1)

/-- The merges into the status words of pages `0..n-1` (R206). -/
def statusMerges (c : Config) : Nat → List Host.Cell
  | 0 => []
  | n + 1 =>
    statusMerges c n ++ [(statusLowAddress c n, stWordCmlLow), (statusHighAddress c n, stWordCmlHigh)]

/-- All merges of an event that newly latched `status`, in the order of R206. -/
def eventMerges (c : Config) (status : Byte) : List Host.Cell :=
  (cmlAddress c, status) :: (if c.statusWordEnable then statusMerges c c.numPages else [])

/-- The post-event merge (R206). -/
def postEventMerge (s : State) : Except Stop State :=
  if s.newStatus = 0 then .ok s else storeOrAll (eventMerges s.cfg s.newStatus) s

/-! ### The dispatcher step -/

/-- An operation's result as the outcome of a step. -/
def toOutcome : Except Stop State → Host.Outcome State Fault Refusal
  | .ok s => .next s
  | .error (.fault f) => .fault f
  | .error (.refusal r) => .refused r

/-- `CatchAll()` (R192): idle recovery, also for an event that is not enabled (R98). -/
def catchAll (s : State) : State := respond .ack 0x00 (s.setMode .idle)

/-- The rule of an event that is enabled, the catch-all of one that is not (R98 step 2 and 3). -/
def runEnabled (enabled : Bool) (rule : State → Except Stop State) (s : State) : Except Stop State :=
  if enabled then rule s else .ok (catchAll s)

/-- The dispatcher step (R190): clear `newStatus`, run the event's rule or the catch-all, merge. -/
def dispatcherStep (enabled : Bool) (rule : State → Except Stop State) (s : State) :
    Host.Outcome State Fault Refusal :=
  toOutcome do
    let s' ← runEnabled enabled rule (s.setNewStatus 0)
    postEventMerge s'

end Sys2Proof.Machine
end

