-- ==== Sys2Proof/Machine/Crc.lean ====
section
/-!
DEFINITION. The checksum engine (spec/40_crc.md R120 to R126): the table and the three operations `CRC_RESET`,
`CRC_UPDATE`, `CRC_VALUE`.
-/

namespace Sys2Proof.Machine

/-- `CRC_POLY`, x^8 + x^2 + x + 1 (R6). -/
def crcPoly : Byte := 0x07

/-- `CRC_INIT` (R6). -/
def crcInit : Byte := 0x00

/-- One of the eight rounds of R120, most significant bit first. -/
def crcRound (x : Byte) : Byte := if x.msb then (x <<< 1) ^^^ crcPoly else x <<< 1

/-- `n` rounds. -/
def crcRounds : Nat → Byte → Byte
  | 0, x => x
  | n + 1, x => crcRounds n (crcRound x)

/-- `T[i]` (R121): eight rounds applied to `i`. -/
def crcEntry (i : Byte) : Byte := crcRounds 8 i

/-- The 256-entry lookup table `T` (R34, R121), generated from R120. -/
def crcTable : List Byte := (List.range 256).map fun i => crcEntry (BitVec.ofNat 8 i)

/-- The CRC-8 of a byte sequence from accumulator `acc`, by the bitwise definition of R120. -/
def crcOver (acc : Byte) : List Byte → Byte
  | [] => acc
  | b :: bs => crcOver (crcEntry (acc ^^^ b)) bs

/-- `CRC_RESET()` (R122): `pec <- 0x00`. -/
def crcReset (s : State) : State := s.setPec crcInit

/-- `CRC_UPDATE(b)` (R123): `pec <- T[pec ^ b]`. -/
def crcUpdate (b : Byte) (s : State) : State := s.setPec (crcEntry (s.pec ^^^ b))

/-- `CRC_VALUE()` (R124). -/
def crcValue (s : State) : Byte := s.pec

/-- `CRC_RESET` as an operation of its own (R122): no result. -/
def execCrcReset (s : State) : Host.Outcome State Fault Refusal :=
  .next ((crcReset s).setOut .nothing)

/-- `CRC_UPDATE` as an operation of its own (R123): no result. -/
def execCrcUpdate (b : Byte) (s : State) : Host.Outcome State Fault Refusal :=
  .next ((crcUpdate b s).setOut .nothing)

/-- `CRC_VALUE` as an operation of its own (R124): the result is `pec`. -/
def execCrcValue (s : State) : Host.Outcome State Fault Refusal :=
  .next (s.setOut (.crc (crcValue s)))

end Sys2Proof.Machine
end

