-- ==== Sys2Proof/Machine/Operands.lean ====
section
/-!
DEFINITION. Operand and address assembly: the attribute bits of a descriptor (spec/20_memory.md R60), the command
index (R62), the page register and its legality (R36, R67, R68), the storage address of a wire byte (R66, R69 to
R71), the staging offset (R77, R105), the read position (R103) and the registers that live in backing storage
(spec/10_state.md R35 to R38).
-/

namespace Sys2Proof

/-- Attribute bit 0, "paging enabled" (R60). -/
def Descriptor.paged (d : Descriptor) : Bool := d.attributes.getLsbD 0

/-- Attribute bit 1, "variable-length block transfer" (R60). -/
def Descriptor.block (d : Descriptor) : Bool := d.attributes.getLsbD 1

/-- Attribute bit 2, the storage reserves its first byte for a stored length (R60). -/
def Descriptor.lenByteFirst (d : Descriptor) : Bool := d.attributes.getLsbD 2

/-- A command with zero declared read and write length (R60). -/
def Descriptor.sendByte (d : Descriptor) : Bool :=
  decide (d.readLength = 0) && decide (d.writeLength = 0)

/-- `lenRes(d)` (R66). -/
def Descriptor.lenRes (d : Descriptor) : Nat := if d.lenByteFirst then 1 else 0

/-- `Stride(d)` (R70). -/
def Descriptor.stride (d : Descriptor) : Nat :=
  max d.readLength.toNat d.writeLength.toNat + d.lenRes

/-- The descriptor index listed for a code (R62); the first entry counts (DESIGN CHOICE, notes/assumptions/18.md). -/
def findIndex : List (Byte × Nat) → Byte → Option Nat
  | [], _ => none
  | (k, i) :: rest, c => if k = c then some i else findIndex rest c

/-- `Index(c)` (R62): the descriptor for a command code, or `NONE`. -/
def Config.lookup (c : Config) (code : Byte) : Option Descriptor :=
  (findIndex c.index code).bind fun i => c.table[i]?

end Sys2Proof

namespace Sys2Proof.Machine

/-- `PAGE_CMD`, the code of the page-select command (R6). -/
def pageCommand : Byte := 0x00

/-- `PAGE_NONE`, the page sentinel (R6, R36). -/
def pageNone : Byte := 0xFF

/-- `PAGE` (R36, R67): read fresh from backing storage every time. -/
def pageValue (s : State) : Except Stop Byte :=
  match s.cfg.lookup pageCommand with
  | none => .error (.refusal .noPageSelect)
  | some d => storeRead s d.storageAddress.toNat

/-- `PageLegal(d)` (R68): a command without `PAGED` ignores the page value entirely. -/
def pageLegal (d : Descriptor) (s : State) : Except Stop Bool :=
  if d.paged then do
    let p ← pageValue s
    .ok (decide (p ≠ pageNone))
  else .ok true

/-- `Base(d)` (R69), exact. -/
def baseAddress (d : Descriptor) (s : State) : Except Stop Nat :=
  if d.paged then do
    let p ← pageValue s
    if p.toNat < s.cfg.numPages then .ok (d.storageAddress.toNat + p.toNat * d.stride)
    else .error (.refusal (.pageOutsideLegal p))
  else .ok d.storageAddress.toNat

/-- `ByteOff(k, n, d)` (R71): a block payload is never reversed. -/
def byteOff (msbFirst : Bool) (k n : Nat) (d : Descriptor) : Nat :=
  if d.block then d.lenRes + k
  else if msbFirst then n - 1 - k
  else k

/-- The staging offset of the byte being received (R77, R105). -/
def stagingOffset (d : Descriptor) (s : State) : Nat :=
  if d.block then s.rxIndex.toNat - 2 else s.rxIndex.toNat - 1

/-- `effectiveIndex` of the byte being produced (R103). -/
def effectiveIndex (d : Descriptor) (s : State) : Nat :=
  if d.block then s.txIndex.toNat - 1 else s.txIndex.toNat

/-- A byte the page-select command accepts: below `NUM_PAGES`, or the sentinel (R36, R146). -/
def pageByteLegal (c : Config) (b : Byte) : Bool := decide (b.toNat < c.numPages) || decide (b = pageNone)

/-- `zext_9(L) + 1` (R102), exact in 9 bits. -/
def blockLength (b : Byte) : Length := b.zeroExtend 9 + 1

/-- `CML` (R37). -/
def cmlValue (s : State) : Except Stop Byte := storeRead s (cmlAddress s.cfg)

/-- `STATUS_WORD[p]` (R38), present only if `STATUS_WORD_ENABLE`. -/
def statusWord (s : State) (p : Nat) : Except Stop (BitVec 16) := do
  let lo ← storeRead s (statusLowAddress s.cfg p)
  let hi ← storeRead s (statusHighAddress s.cfg p)
  .ok (hi ++ lo)

end Sys2Proof.Machine
end

