-- ==== Sys2Proof/Machine/ReadPhase.lean ====
section
/-!
DEFINITION. The read-phase events (spec/43_dispatch_read.md R170 to R179): `ADDR_R`, `DATA_TX_ACK`, `DATA_TX_NACK`,
and the byte-producing step they share.
-/

namespace Sys2Proof.Machine

/-- `FILL_FF` (R6). -/
def fillFF : Byte := 0xFF

/-- `FILL_00` (R6). -/
def fill00 : Byte := 0x00

/-- The byte case BLEN transmits: the stored length, or the fixed size `R` (R174). -/
def blockLengthByte (d : Descriptor) (s : State) : Except Stop Byte :=
  if d.lenByteFirst then do
    let base ← baseAddress d s
    storeRead s base
  else .ok d.readLength

/-- The byte case DATA transmits, payload byte `k` counted from 0 (R175). -/
def payloadByte (d : Descriptor) (k : Nat) (s : State) : Except Stop Byte := do
  let base ← baseAddress d s
  storeRead s (base + byteOff s.cfg.storageMsbFirst k d.readLength.toNat d)

/-- Transmit a byte from storage and feed it, or while the page is illegal transmit the zero filler, latch and touch no
storage (R174, R175). -/
def produceIfLegal (d : Descriptor) (source : Except Stop Byte) (s : State) : Except Stop (Byte × State) := do
  let legal ← pageLegal d s
  if legal then do
    let out ← source
    .ok (out, crcUpdate out s)
  else .ok (fill00, latch stData s)

/-- Case BLEN, the first byte of a block read (R174). -/
def produceBlockLength (d : Descriptor) (s : State) : Except Stop (Byte × State) :=
  produceIfLegal d (blockLengthByte d s) s

/-- Case DATA, a payload byte (R175). -/
def producePayload (d : Descriptor) (k : Nat) (s : State) : Except Stop (Byte × State) :=
  produceIfLegal d (payloadByte d k s) s

/-- The five cases of R172, tried in its order: NOREAD (R173), BLEN, DATA, PEC (R176), OVER (R177). -/
def produceCase (s : State) : Except Stop (Byte × State) :=
  match s.activeDesc with
  | none => .ok (fillFF, s)
  | some d =>
    if d.readLength = 0 then .ok (fillFF, latch stI2c s)
    else if d.block ∧ s.txIndex = 1 then produceBlockLength d s
    else if 1 ≤ effectiveIndex d s ∧ effectiveIndex d s ≤ d.readLength.toNat then
      producePayload d (effectiveIndex d s - 1) s
    else if effectiveIndex d s = d.readLength.toNat + 1 then .ok (crcValue s, s)
    else .ok (fillFF, latch stI2c s)

/-- `Produce()` (R172): the byte to transmit; `txIndex` advances in every case. -/
def produce (s : State) : Except Stop (Byte × State) := do
  let (b, s') ← produceCase s
  .ok (b, s'.setTxIndex (satInc s'.txIndex))

/-- What the read address match writes before it produces the first byte (R171): the checksum is reseeded only from
`IDLE`. -/
def openReadPhase (a : Byte) (s : State) : State :=
  let s' := if s.mode = .idle then crcReset s else s
  ((clearErrorLatch (crcUpdate a s')).setTxIndex 1).setMode .addrRead

/-- Produce one byte and answer with it (R171, R178). -/
def transmitNext (s : State) : Except Stop State := do
  let (b, s') ← produce s
  .ok (respond .ack b s')

/-- `ADDR_R` (R171), enabled in every `MODE`. -/
def execAddrR (a : Byte) (s : State) : Host.Outcome State Fault Refusal :=
  dispatcherStep true (fun s => transmitNext (openReadPhase a s)) s

/-- `DATA_TX_ACK` (R178), enabled when `MODE == ADDR_READ`. -/
def execDataTxAck (s : State) : Host.Outcome State Fault Refusal :=
  dispatcherStep s.inReadPhase transmitNext s

/-- `DATA_TX_NACK` (R179), enabled when `MODE == ADDR_READ`. -/
def execDataTxNack (s : State) : Host.Outcome State Fault Refusal :=
  dispatcherStep s.inReadPhase (fun s => .ok (respond .ack 0x00 (s.setMode .idle))) s

end Sys2Proof.Machine
end

