-- ==== Sys2Proof/Machine/Recovery.lean ====
section
/-!
DEFINITION. Bus error and catch-all (spec/44_dispatch_misc.md R191, R192): `BUS_ERROR`, `UNRECOGNIZED`.
-/

namespace Sys2Proof.Machine

/-- `BUS_ERROR` (R191): enabled in every `MODE`; the data byte is ignored and nothing is latched. -/
def execBusError (s : State) : Host.Outcome State Fault Refusal :=
  dispatcherStep true (fun s => .ok (respond .release 0x00 (s.setMode .idle))) s

/-- `UNRECOGNIZED` (R192): the code and the data byte are ignored. -/
def execUnrecognized (s : State) : Host.Outcome State Fault Refusal :=
  dispatcherStep true (fun s => .ok (catchAll s)) s

end Sys2Proof.Machine
end

