-- ==== Sys2Proof/Machine/Queue.lean ====
section
/-!
DEFINITION. The deferred-command queue (spec/41_queue.md R130 to R135): `Q_PUSH`, `Q_POP`, `Q_DEPTH`.
-/

namespace Sys2Proof.Machine

/-- The ring index step `(i + 1) mod Q_CAPACITY` (R78). -/
def ringNext (c : Config) (i : Nat) : Nat := (i + 1) % c.qCapacity

/-- `Q_PUSH(e)` (R131): the newest entry is dropped when the queue is full. -/
def queuePush (e : QEntry) (s : State) : Except Stop (Bool × State) :=
  if s.qFull then .ok (false, s)
  else if s.qTail < s.qRing.length then
    .ok (true, s.setPushed (s.qRing.set s.qTail e) (ringNext s.cfg s.qTail)
      (decide (ringNext s.cfg s.qTail = s.qHead)))
  else .error (.fault (.ringIndexOutOfRange s.qTail))

/-- `Q_POP` (R132): the entry, or `none` when the queue is empty. -/
def queuePop (s : State) : Except Stop (Option QEntry × State) :=
  if s.queueEmpty then .ok (none, s)
  else
    match s.qRing[s.qHead]? with
    | some e => .ok (some e, s.setPopped (ringNext s.cfg s.qHead) false)
    | none => .error (.fault (.ringIndexOutOfRange s.qHead))

/-- `Q_DEPTH` (R133): `(qTail - qHead) mod Q_CAPACITY` is the non-negative residue. -/
def queueDepth (s : State) : Nat :=
  if s.qFull then s.cfg.qCapacity
  else (((s.qTail : Int) - (s.qHead : Int)) % (s.cfg.qCapacity : Int)).toNat

/-- The triple that `Q_POP` returns; `{false, 0x00, 0x00}` on failure (R132, D21). -/
def poppedOutput : Option QEntry → Output
  | some e => .popped true e.code e.page
  | none => .popped false 0x00 0x00

/-- `Q_DEPTH` (R133): no state change but the returned count. -/
def execQDepth (s : State) : Host.Outcome State Fault Refusal :=
  .next (s.setOut (.depth (queueDepth s)))

/-- `Q_POP` (R132). -/
def execQPop (s : State) : Host.Outcome State Fault Refusal :=
  toOutcome do
    let (e, s') ← queuePop s
    .ok (s'.setOut (poppedOutput e))

/-- `Q_PUSH` as an operation of its own (R131): the result is whether the entry was taken. -/
def execQPush (e : QEntry) (s : State) : Host.Outcome State Fault Refusal :=
  toOutcome do
    let (ok, s') ← queuePush e s
    .ok (s'.setOut (.pushed ok))

end Sys2Proof.Machine
end

