-- ==== Sys2Proof/Machine/WritePhase.lean ====
section
/-!
DEFINITION. The write-phase events (spec/42_dispatch_write.md R140 to R155): `ADDR_W`, `ADDR_GC`, `DATA_RX`,
`DATA_RX_GC`, `STOP_RESTART`.
-/

namespace Sys2Proof.Machine

/-! ### Address match -/

/-- The write address match (R141); a general call shares it (R142). -/
def openWritePhase (a : Byte) (s : State) : State :=
  respond .ack 0x00
    (((clearErrorLatch (crcUpdate a (crcReset s))).setRxIndex 0).setMode .addrWrite)

/-! ### Data received -/

/-- Case CMD, the command-code byte (R143). -/
def receiveCommand (b : Byte) (s : State) : State :=
  match s.cfg.lookup b with
  | none => latch stCmd (s.setActive none b)
  | some d => crcUpdate b ((s.setActive (some d) b).setWriteLength (d.writeLength.zeroExtend 9))

/-- Case BLEN, the block length byte (R145). -/
def receiveBlockLength (d : Descriptor) (b : Byte) (s : State) : State :=
  let s' := if d.writeLength.toNat < b.toNat then latch stData s else s
  crcUpdate b (s'.setWriteLength (blockLength b))

/-- What case DATA does with the byte: staged if it is valid, a data fault if not (R146). -/
def stageOrLatch (valid : Bool) (d : Descriptor) (b : Byte) (s : State) : Except Stop State :=
  if valid then scratchWrite s (stagingOffset d s) b else .ok (latch stData s)

/-- Case DATA, a byte within the declared write length (R146): fed to the checksum whether staged or not. -/
def receiveData (d : Descriptor) (b : Byte) (s : State) : Except Stop State := do
  let legal ← pageLegal d s
  let valid := legal && (decide (d.code ≠ pageCommand) || pageByteLegal s.cfg b)
  let s' ← stageOrLatch valid d b s
  .ok (crcUpdate b s')

/-- Case PEC, the first byte beyond the declared write length (R147). -/
def receivePec (d : Descriptor) (b : Byte) (s : State) : State :=
  if d.writeLength ≠ 0 ∨ d.readLength = 0 then
    if b ≠ crcValue s then latch stPec s else s
  else latch stData s

/-- The six cases of R149, tried in its order; SWALLOW (R144) does nothing and EXCESS (R148) only latches. -/
def receiveCase (b : Byte) (s : State) : Except Stop State :=
  if s.rxIndex = 0 then .ok (receiveCommand b s)
  else
    match s.activeDesc with
    | none => .ok s
    | some d =>
      if d.block ∧ s.rxIndex = 1 then .ok (receiveBlockLength d b s)
      else if s.rxIndex.toNat ≤ s.writeLength.toNat then receiveData d b s
      else if s.rxIndex.toNat = s.writeLength.toNat + 1 then .ok (receivePec d b s)
      else .ok (latch stData s)

/-- `DATA_RX(b)`, the whole event (R149). -/
def dataReceived (b : Byte) (s : State) : Except Stop State := do
  let s' ← receiveCase b s
  .ok (respond .ack 0x00 (s'.setRxIndex (satInc s'.rxIndex)))

/-! ### The commit point -/

/-- `SendByteEnqueue()` (R154): the result of the push is ignored. -/
def sendByteEnqueue (d : Descriptor) (s : State) : Except Stop State := do
  let p ← pageValue s
  let (_, s') ← queuePush { code := d.code, page := p } s
  .ok s'

/-- Payload bytes with the storage offsets they are committed to, from wire byte `k` on (R71). -/
def payloadCells (msbFirst : Bool) (n : Nat) (d : Descriptor) : Nat → List Byte → List Host.Cell
  | _, [] => []
  | k, b :: bs => (byteOff msbFirst k n d, b) :: payloadCells msbFirst n d (k + 1) bs

/-- What `PlainCommit()` stores, as offsets from `Base(d)` and bytes (R152). -/
def plainCells (d : Descriptor) (s : State) : Except Stop (List Host.Cell) := do
  let bs ← scratchBytes s d.writeLength.toNat
  .ok (payloadCells s.cfg.storageMsbFirst d.writeLength.toNat d 0 bs)

/-- What `BlockCommit()` stores, as offsets from `Base(d)` and bytes (R153). -/
def blockCells (d : Descriptor) (s : State) : Except Stop (List Host.Cell) :=
  if s.rxIndex.toNat < 2 then .ok []
  else do
    let len := s.writeLength.toNat - 1
    let bs ← scratchBytes s len
    .ok ((if d.lenByteFirst then [(0, BitVec.ofNat 8 len)] else [])
      ++ payloadCells s.cfg.storageMsbFirst len d 0 bs)

/-- What `Commit()` stores, as offsets from `Base(d)` and bytes (R151). -/
def commitCells (d : Descriptor) (s : State) : Except Stop (List Host.Cell) :=
  if d.writeLength = 0 then .ok []
  else if d.block then blockCells d s
  else plainCells d s

/-- Store at `Base(d)` plus each offset; `Base(d)` is formed once (R67, R69, R152, R153; DEDUCED,
notes/assumptions/8.md). -/
def storeAtBase (d : Descriptor) (cells : List Host.Cell) (s : State) : Except Stop State := do
  let base ← baseAddress d s
  storeWriteAll (cells.map fun c => (base + c.1, c.2)) s

/-- Store at `Base(d)` if the page is legal (R68). -/
def storeIfLegal (legal : Bool) (d : Descriptor) (cells : List Host.Cell) (s : State) : Except Stop State :=
  if legal then storeAtBase d cells s else .ok s

/-- `Commit()` (R151). While the page is illegal no rule writes the command's storage (R68): R151 takes that as implied,
and it is not for a zero-length block of a paged command, nor after an application write of `PAGE` (DEDUCED,
notes/assumptions/5.md). With no byte to store the page is not looked at. -/
def commit (d : Descriptor) (s : State) : Except Stop State := do
  let cells ← commitCells d s
  if cells.isEmpty then .ok s
  else do
    let legal ← pageLegal d s
    storeIfLegal legal d cells s

/-- What the commit point does before it leaves the write phase (R150). -/
def commitPoint (s : State) : Except Stop State :=
  if s.errorLatched = false ∧ 1 ≤ s.rxIndex.toNat then
    match s.activeDesc with
    | none => .ok s
    | some d =>
      if d.sendByte then sendByteEnqueue d s
      else if s.writeLength.toNat ≤ s.rxIndex.toNat - 1 then commit d s
      else .ok s
  else .ok s

/-- `STOP_RESTART` (R150). -/
def closeWritePhase (s : State) : Except Stop State := do
  let s' ← commitPoint s
  .ok (respond .ack 0x00 (s'.setMode .writeEnded))

/-! ### The five events -/

/-- `ADDR_W` (R141), enabled in every `MODE`. -/
def execAddrW (a : Byte) (s : State) : Host.Outcome State Fault Refusal :=
  dispatcherStep true (fun s => .ok (openWritePhase a s)) s

/-- `ADDR_GC` (R142), enabled only if `GC_ENABLE` (R98, D25). -/
def execAddrGc (a : Byte) (s : State) : Host.Outcome State Fault Refusal :=
  dispatcherStep s.cfg.gcEnable (fun s => .ok (openWritePhase a s)) s

/-- `DATA_RX` (R149), enabled when `MODE == ADDR_WRITE`. -/
def execDataRx (b : Byte) (s : State) : Host.Outcome State Fault Refusal :=
  dispatcherStep s.inWritePhase (dataReceived b) s

/-- `DATA_RX_GC` (R155): as `DATA_RX`. -/
def execDataRxGc (b : Byte) (s : State) : Host.Outcome State Fault Refusal :=
  dispatcherStep s.inWritePhase (dataReceived b) s

/-- `STOP_RESTART` (R150), enabled when `MODE == ADDR_WRITE`. -/
def execStopRestart (s : State) : Host.Outcome State Fault Refusal :=
  dispatcherStep s.inWritePhase closeWritePhase s

end Sys2Proof.Machine
end

