-- ==== Sys2Proof/Machine/Dispatch.lean ====
section
/-!
DEFINITION. One arm per operation of spec/opcode_table.json, each a call of its meaning.
-/

namespace Sys2Proof.Machine

def exec (i : Instr) (s : State) : Host.Outcome State Fault Refusal :=
  match i with
  | .busError _ => Sys2Proof.Machine.execBusError s
  | .addrW a => Sys2Proof.Machine.execAddrW a s
  | .addrGc a => Sys2Proof.Machine.execAddrGc a s
  | .dataRx b => Sys2Proof.Machine.execDataRx b s
  | .dataRxGc b => Sys2Proof.Machine.execDataRxGc b s
  | .stopRestart _ => Sys2Proof.Machine.execStopRestart s
  | .addrR a => Sys2Proof.Machine.execAddrR a s
  | .dataTxAck _ => Sys2Proof.Machine.execDataTxAck s
  | .dataTxNack _ => Sys2Proof.Machine.execDataTxNack s
  | .unrecognized _ _ => Sys2Proof.Machine.execUnrecognized s
  | .qDepth => Sys2Proof.Machine.execQDepth s
  | .qPop => Sys2Proof.Machine.execQPop s
  | .crcReset => Sys2Proof.Machine.execCrcReset s
  | .crcUpdate b => Sys2Proof.Machine.execCrcUpdate b s
  | .crcValue => Sys2Proof.Machine.execCrcValue s
  | .qPush e => Sys2Proof.Machine.execQPush e s

end Sys2Proof.Machine
end

