-- ==== Sys2Proof/Machine/Launch.lean ====
section
/-!
DEFINITION. The well-formed configurations (spec/20_memory.md R63) and the footprint of a descriptor (R66).
-/

namespace Sys2Proof

/-- The pages a descriptor's storage is replicated for: every legal page if it is `PAGED`, else one copy (R66). -/
def Descriptor.copies (d : Descriptor) (numPages : Nat) : Nat := if d.paged then numPages else 1

/-- All addresses `base .. base + n - 1` are valid. -/
def Config.rangeValid (c : Config) (base n : Nat) : Bool :=
  (List.range n).all fun j => Machine.storeValid c (base + j)

/-- R63 (d) for one descriptor: its footprint (R66) lies in allocated storage for every legal page. -/
def Config.footprintValid (c : Config) (d : Descriptor) : Bool :=
  c.rangeValid d.storageAddress.toNat (d.copies c.numPages * d.stride)

/-- R63 (a): every entry of the command index names a descriptor of the table that answers its code. -/
def Config.indexMatches (c : Config) : Bool :=
  c.index.all fun e =>
    match c.lookup e.1 with
    | some d => decide (d.code = e.1)
    | none => false

/-- R63 (b): the page-select command is present and has its fixed shape. -/
def Config.pageSelectPresent (c : Config) : Bool :=
  match c.lookup Machine.pageCommand with
  | some d => decide (d.attributes = 0) && decide (d.readLength = 1) && decide (d.writeLength = 1)
  | none => false

/-- R63 (c): `LEN_BYTE_FIRST` only together with `BLOCK`. -/
def Config.lengthBytesInBlocks (c : Config) : Bool :=
  c.table.all fun d => !d.lenByteFirst || d.block

/-- R63 (e): the fault byte and, if enabled, the status words are in allocated storage. -/
def Config.statusValid (c : Config) : Bool :=
  Machine.storeValid c c.cmlAddr.toNat
    && (!c.statusWordEnable || c.rangeValid c.statusWordAddr.toNat (2 * c.numPages))

/-- A configuration that the rules give meaning to (R63). -/
def Config.wf (c : Config) : Bool :=
  c.indexMatches && c.pageSelectPresent && c.lengthBytesInBlocks
    && c.table.all c.footprintValid
    && c.statusValid
    && decide (1 ≤ c.numPages) && decide (c.numPages ≤ 255) && decide (1 ≤ c.qCapacity)

end Sys2Proof
end

