-- ==== Sys2Proof/Machine/Fetch.lean ====
section
/-!
DEFINITION. Taking the next move: fetching it from the input queue, decoding it, checking the context that issues it
(spec/60_exceptions.md R215), and running it (spec/20_memory.md R80).
-/

namespace Sys2Proof.Machine

/-- The dispatcher is entered. Before the first event since reset the application must have initialised `PAGE` to a legal
value (R216, R235, R236): a launch that has not is refused (DESIGN CHOICE, notes/assumptions/20.md). -/
def enterDispatcher (s : State) : Except Stop State :=
  if s.busActive then .ok s
  else do
    let p ← pageValue s
    if pageByteLegal s.cfg p then .ok (s.setBusActive true)
    else .error (.refusal (.pageNotInitialised p))

/-- A context is entered (R215); the application's needs nothing. -/
def enterContext (c : Context) (s : State) : Except Stop State :=
  match c with
  | .application => .ok s
  | .interrupt => enterDispatcher s

/-- Run one operation in the context it belongs to. -/
def runInContext (i : Instr) (s : State) : Host.Outcome State Fault Refusal :=
  match enterContext i.context s with
  | .ok s' => exec i s'
  | .error e => toOutcome (.error e)

/-- Run one operation issued by a context (R196, R215): an operation from the wrong context is no move of the model. -/
def runWord (issuer : Context) (word : PortWord) (s : State) : Host.Outcome State Fault Refusal :=
  match decode word with
  | .ok i => if issuer = i.context then runInContext i s else .refused .wrongContext
  | .error .reservedAppOp =>
    if issuer = .application then .next (s.setOut .nothing) else .refused .wrongContext
  | .error .unnamedInternal => .refused .noSuchInternal
  | .error .operandCount => .refused .noSuchInternal

/-- The application reads one byte of backing storage, one atomic step (R64, R215, R216). -/
def runAppRead (a : Address) (s : State) : Host.Outcome State Fault Refusal :=
  toOutcome do
    let b ← storeRead s a.toNat
    .ok (s.setOut (.stored b))

/-- The application writes one byte of backing storage, one atomic step without a result: the extra liberty of R216 and
U14 (notes/assumptions/16.md). -/
def runAppWrite (a : Address) (v : Byte) (s : State) : Host.Outcome State Fault Refusal :=
  toOutcome do
    let s' ← storeWrite s a.toNat v
    .ok (s'.setOut .nothing)

/-- The block is reset (R230): its own state takes the values of R42; backing storage, the command table and the index
stay. -/
def resetBlock (s : State) : State := { State.launch s.cfg s.store with input := s.input }

/-- Run one move. -/
def runRequest (r : Request) (s : State) : Host.Outcome State Fault Refusal :=
  match r with
  | .op issuer word => runWord issuer word s
  | .appRead a => runAppRead a s
  | .appWrite a v => runAppWrite a v s
  | .reset => .next (resetBlock s)

/-- Take the oldest move and run it; with no move pending nothing happens and all state is retained (R221). -/
def runNext (s : State) : Host.Outcome State Fault Refusal :=
  match s.input with
  | [] => .next s
  | r :: rest => runRequest r (s.setInput rest)

/-- One step of the whole machine: a configuration that fails a check of R63 is refused. -/
def stepLaunched (s : State) : Host.Outcome State Fault Refusal :=
  if s.cfg.wf then runNext s else .refused .illFormedConfiguration

/-- The move that issues a word from the context it belongs to (R215). -/
def requestOf (word : PortWord) : Request :=
  match word with
  | .event w => .op .interrupt (.event w)
  | .app op => .op .application (.app op)
  | .internal id operands => .op .interrupt (.internal id operands)

/-- Put a word where the next step takes its move from. -/
def placeWord (word : PortWord) (s : State) : State := s.setInput (requestOf word :: s.input)

/-- Put the word that a number of spec/opcode_table.json stands for where the next step takes its move from. -/
def placeTableWord (nbits w : Nat) (s : State) : State :=
  match tableWord nbits w with
  | some word => placeWord word s
  | none => s

end Sys2Proof.Machine
end

