-- ==== Sys2Proof/Machine/Step.lean ====
section
/-!
DEFINITION. One step of the machine, and the placing of an operation where the next step fetches it.
-/

namespace Sys2Proof.Machine

/-- One atomic step (R80): the next move of the input queue, whole. -/
def step (s : State) : Host.Outcome State Fault Refusal := stepLaunched s

/-- `s` with the operation of a row of spec/opcode_table.json at the head of the input queue. -/
def State.withFetchWord (s : State) (nbits w : Nat) : State := placeTableWord nbits w s

end Sys2Proof.Machine
end

