-- ==== Sys2Proof/Machine/Transactions.lean ====
section
/-!
DEFINITION. The transaction macros of spec/30_encoding.md R110, the counterpart of pseudo-instructions, over the wire
frame of R100 and the address bytes of R101.
-/

namespace Sys2Proof.Machine

/-- `aW`, the address+direction byte of a write: `{SLAVE_ADDR, 0}` (R101). -/
def addressWrite (c : Config) : Byte := c.slaveAddr ++ (0 : BitVec 1)

/-- `aR`, the address+direction byte of a read: `{SLAVE_ADDR, 1}` (R101). -/
def addressRead (c : Config) : Byte := c.slaveAddr ++ (1 : BitVec 1)

/-- `WRITE(c, b1..bn)` (R110). -/
def writeEvents (c : Config) (code : Byte) (bs : List Byte) : List Instr :=
  [.addrW (addressWrite c), .dataRx code] ++ bs.map Instr.dataRx ++ [.stopRestart 0]

/-- `WRITE_PEC(c, b1..bn)` (R110): the last byte is the CRC-8 of all bytes before it. -/
def writePecEvents (c : Config) (code : Byte) (bs : List Byte) : List Instr :=
  writeEvents c code (bs ++ [crcOver crcInit ([addressWrite c, code] ++ bs)])

/-- `SEND_BYTE(c)` (R110). -/
def sendByteEvents (c : Config) (code : Byte) : List Instr := writeEvents c code []

/-- `BLOCK_WRITE(c, L, b1..bL)` (R110). -/
def blockWriteEvents (c : Config) (code len : Byte) (bs : List Byte) : List Instr :=
  writeEvents c code (len :: bs)

/-- `READ_AGAIN(n)` (R110). -/
def readAgainEvents (c : Config) (n : Nat) : List Instr :=
  [.addrR (addressRead c)] ++ List.replicate (n - 1) (.dataTxAck 0) ++ [.dataTxNack 0]

/-- `READ(c, n)` (R110). -/
def readEvents (c : Config) (code : Byte) (n : Nat) : List Instr :=
  writeEvents c code [] ++ readAgainEvents c n

/-- Operations as moves of the input queue, each from the context it belongs to. -/
def movesOf (is : List Instr) : List Request := is.map fun i => requestOf (encode i)

end Sys2Proof.Machine
end

