-- ==== Sys2Proof/Safety.lean ====
section
/-!
DEFINITION. What claims are stated in terms of: the invariant of every reached state (spec/10_state.md R46, R28), the
legality of the page register (R36), the queue read as the list of its entries (R130, R134), what a latched fault
leaves in backing storage (spec/60_exceptions.md R205, R206), and the `MODE` transition table
(spec/44_dispatch_misc.md R195).
-/

namespace Sys2Proof.Machine

/-! ### The invariant -/

/-- How many payload bytes of the current write phase are in `scratch` (R28, R77). -/
def stagedCount (d : Descriptor) (s : State) : Nat :=
  if d.block then min (s.rxIndex.toNat - 2) (s.writeLength.toNat - 1)
  else min (s.rxIndex.toNat - 1) s.writeLength.toNat

/-- `writeLength` is the nominal length, or after a legal block length byte `L` it is `L + 1` (R27). -/
def LengthMatches (d : Descriptor) (s : State) : Prop :=
  if d.block = true ∧ 2 ≤ s.rxIndex.toNat then
    1 ≤ s.writeLength.toNat ∧ s.writeLength.toNat ≤ d.writeLength.toNat + 1
  else s.writeLength.toNat = d.writeLength.toNat

/-- A write phase without a latched error has staged every payload byte it counted (R28). -/
def PhaseStaged (s : State) : Prop :=
  s.mode = .addrWrite → s.errorLatched = false → 1 ≤ s.rxIndex.toNat →
    ∀ d, s.activeDesc = some d →
      LengthMatches d s ∧ ∀ j, j < stagedCount d s → ∃ b, Memory.get s.scratch j = some b

/-- The queue registers are a ring of `Q_CAPACITY` entries (R30 to R33). -/
structure State.QueueSound (s : State) : Prop where
  /-- the ring has `Q_CAPACITY` entries -/
  ringLength : s.qRing.length = s.cfg.qCapacity
  /-- "`qHead` and `qTail` are below `Q_CAPACITY`" (R46) -/
  headBelow : s.qHead < s.cfg.qCapacity
  /-- "`qHead` and `qTail` are below `Q_CAPACITY`" (R46) -/
  tailBelow : s.qTail < s.cfg.qCapacity
  /-- "`qFull == 1` implies `qHead == qTail`" (R46) -/
  fullMeans : s.qFull = true → s.qHead = s.qTail

/-- The invariant of every reached state (R46), with the canonical form of the memories. -/
structure State.Sound (s : State) : Prop where
  /-- the launch configuration passes the checks of R63 -/
  configWf : s.cfg.wf = true
  /-- backing storage is in canonical form -/
  storeWf : Memory.wf s.store = true
  /-- scratch offsets are listed in rising order -/
  scratchRising : Memory.rising s.scratch = true
  /-- scratch offsets are in `0..255` (R28) -/
  scratchBelow : ∀ j b, Memory.get s.scratch j = some b → j < scratchSize
  /-- the queue registers are a ring -/
  queue : s.QueueSound
  /-- "`writeLength <= 256`" (R46) -/
  lengthBelow : s.writeLength.toNat ≤ 256
  /-- "`activeDesc` is `NONE` or a descriptor of the command table with `activeDesc.code == activeCode`" (R46) -/
  active : ∀ d, s.activeDesc = some d → s.cfg.lookup s.activeCode = some d ∧ d.code = s.activeCode
  /-- every byte a commit would copy has been staged (R28) -/
  staged : PhaseStaged s

/-! ### The page register -/

/-- A legal value of the page register (R36). -/
def PageByteOk (c : Config) (p : Byte) : Prop := p.toNat < c.numPages ∨ p = 0xFF

/-- The page register holds a legal value (R36, R236). -/
def PageLegalNow (s : State) : Prop := ∃ p, pageValue s = .ok p ∧ PageByteOk s.cfg p

/-- If the next move is an application write of the page register, it writes a legal value (R36, R69, U2). -/
def LegalPageWrites (s : State) : Prop :=
  ∀ a v rest d0, s.input = .appWrite a v :: rest → s.cfg.lookup pageCommand = some d0 →
    a.toNat = d0.storageAddress.toNat → PageByteOk s.cfg v

/-- What a write of the page-select command has staged is a legal page (R146). -/
def StagedPageLegal (s : State) : Prop :=
  s.mode = .addrWrite → s.errorLatched = false → 2 ≤ s.rxIndex.toNat → s.activeCode = pageCommand →
    s.activeDesc ≠ none → ∀ b, Memory.get s.scratch 0 = some b → PageByteOk s.cfg b

/-- Only the page-select command's storage holds the page register's byte: no other command's footprint (R66) and no
fault register lies over it. Overlap is allowed (R75), and then another command can write any page value. -/
def PageIsolated (c : Config) : Prop :=
  ∀ d0, c.lookup pageCommand = some d0 →
    (∀ status, ∀ w ∈ eventMerges c status, w.1 ≠ d0.storageAddress.toNat) ∧
    ∀ code d, code ≠ pageCommand → c.lookup code = some d →
      ∀ j, j < d.copies c.numPages * d.stride → d.storageAddress.toNat + j ≠ d0.storageAddress.toNat

/-! ### The queue as a list -/

/-- The entry at a ring position. -/
def ringEntry (s : State) (i : Nat) : QEntry := s.qRing.getD i { code := 0x00, page := 0x00 }

/-- The queue's entries, oldest first: `Q_DEPTH` of them from `qHead` on (R31, R78, R133). -/
def queueContents (s : State) : List QEntry :=
  (List.range (queueDepth s)).map fun k => ringEntry s ((s.qHead + k) % s.cfg.qCapacity)

/-! ### What a latched fault leaves behind -/

/-- What the merge of an event that latched `status` ORs into the byte at address `a` (R206): the status bits at
`CML_ADDR`, the summary bit in the low byte of every page's status word. -/
def mergeBits (c : Config) (status : Byte) (a : Nat) : Byte :=
  (if a = c.cmlAddr.toNat then status else 0) |||
    (if c.statusWordEnable && (List.range c.numPages).any fun p => decide (a = statusLowAddress c p) then 0x02
    else 0)

/-- The outcome of an event that raises fault `status` in state `s` and otherwise leads to `t` (R205, R206, R210). With
an error latched already it is `t`. Otherwise the error flag and `newStatus` are set and every byte of backing storage
is as before but for the merge's bits. -/
def FaultOutcome (status : Byte) (s t : State) (o : Host.Outcome State Fault Refusal) : Prop :=
  if s.errorLatched then o = .next t
  else ∃ m, o = .next { t with errorLatched := true, newStatus := status, store := m } ∧
    ∀ a, Memory.read m a = Memory.read t.store a ||| mergeBits t.cfg status a

/-! ### Sequencing -/

/-- The acknowledge response that transmits nothing (R94, R95). -/
def ackOutput : Output := .response { action := .ack, txdata := 0x00 }

/-- The ten events of format EV (R92). -/
def isEvent : Instr → Bool
  | .busError _ | .addrW _ | .addrGc _ | .dataRx _ | .dataRxGc _ | .stopRestart _ | .addrR _
  | .dataTxAck _ | .dataTxNack _ | .unrecognized _ _ => true
  | .qDepth | .qPop | .crcReset | .crcUpdate _ | .crcValue | .qPush _ => false

/-- The `MODE` transition table (R195): rows are operations, columns the mode before. -/
def modeAfter (gcEnable : Bool) : Instr → Mode → Mode
  | .addrW _, _ => .addrWrite
  | .addrGc _, _ => if gcEnable then .addrWrite else .idle
  | .addrR _, _ => .addrRead
  | .dataRx _, .addrWrite | .dataRxGc _, .addrWrite => .addrWrite
  | .dataRx _, .idle | .dataRx _, .addrRead | .dataRx _, .writeEnded => .idle
  | .dataRxGc _, .idle | .dataRxGc _, .addrRead | .dataRxGc _, .writeEnded => .idle
  | .stopRestart _, .addrWrite => .writeEnded
  | .stopRestart _, .idle | .stopRestart _, .addrRead | .stopRestart _, .writeEnded => .idle
  | .dataTxAck _, .addrRead => .addrRead
  | .dataTxAck _, .idle | .dataTxAck _, .addrWrite | .dataTxAck _, .writeEnded => .idle
  | .dataTxNack _, _ => .idle
  | .busError _, _ => .idle
  | .unrecognized _ _, _ => .idle
  | .qDepth, m | .qPop, m | .crcReset, m | .crcUpdate _, m | .crcValue, m | .qPush _, m => m

/-- An operation that opens a phase (an address match that is enabled, R98). -/
def opensPhase (gcEnable : Bool) : Instr → Bool
  | .addrW _ | .addrR _ => true
  | .addrGc _ => gcEnable
  | .busError _ | .dataRx _ | .dataRxGc _ | .stopRestart _ | .dataTxAck _ | .dataTxNack _
  | .unrecognized _ _ | .qDepth | .qPop | .crcReset | .crcUpdate _ | .crcValue | .qPush _ => false

/-- The state in which an event produces its byte, for the two events that do (R171, R178); `none` for every other
operation and for a `DATA_TX_ACK` that is not enabled. -/
def readStart (i : Instr) (s : State) : Option State :=
  match i with
  | .addrR a =>
    some { s with
      newStatus := 0, pec := crcEntry ((if s.mode = .idle then 0 else s.pec) ^^^ a), errorLatched := false,
      txIndex := 1, mode := .addrRead }
  | .dataTxAck _ => if s.mode = .addrRead then some { s with newStatus := 0 } else none
  | .busError _ | .addrW _ | .addrGc _ | .dataRx _ | .dataRxGc _ | .stopRestart _ | .dataTxNack _
  | .unrecognized _ _ | .qDepth | .qPop | .crcReset | .crcUpdate _ | .crcValue | .qPush _ => none

/-! ### Sequences of operations -/

/-- Run operations one after the other: the last state and what each gave back, or `none` if one stops. -/
def runAll : List Instr → State → Option (State × List Output)
  | [], s => some (s, [])
  | i :: is, s =>
    match exec i s with
    | .next t => (runAll is t).map fun r => (r.1, t.out :: r.2)
    | .fault _ => none
    | .refused _ => none

end Sys2Proof.Machine
end

