-- ==== Sys2Proof/Certificates/Slice0/Obligations.lean ====
section
/-!
DEFINITION. The statements for the provers. Each docstring names the rule of spec/ it formalises. The configuration is a
field of the state, so a statement over all states holds for every configuration of R6.
-/

open Sys2Proof Sys2Proof.Machine

/-! ### Encoding -/

/-- R91, R92, R96, R97: decoding the encoding of a well-formed operation gives it back, with every operand. -/
def Obligations.DecodeOfEncodeIsIdentity : Prop :=
  ∀ i : Instr, i.wf = true → decode (encode i) = .ok i

/-- R99: there is no illegal event word; every word decodes to an event. That the word is the encoding of exactly that event
is the model's choice where the spec ignores the data byte: `Instr` keeps it (DEDUCED, notes/assumptions/12.md). -/
def Obligations.EveryEventWordIsAnOperation : Prop :=
  ∀ w : EventWord, ∃ i : Instr, decode (.event w) = .ok i ∧ i.wf = true ∧ isEvent i = true ∧
    encode i = .event w ∧ ∀ j : Instr, j.wf = true → encode j = .event w → j = i

/-- R92, R96, R97: words written out from the tables decode to the operations they stand for. The operand bytes of the two
internal words are the model's own carrier, which R97 does not give (DESIGN CHOICE, notes/assumptions/2.md). -/
def Obligations.SampleWordsDecode : Prop :=
  decode (.event 0b0000000011111111) = .ok (.busError 0xFF) ∧
  decode (.event 0b0110000001000000) = .ok (.addrW 0x40) ∧
  decode (.event 0b1000000010101010) = .ok (.dataRx 0xAA) ∧
  decode (.event 0b1010000000000000) = .ok (.stopRestart 0x00) ∧
  decode (.event 0b1010100001000001) = .ok (.addrR 0x41) ∧
  decode (.event 0b1111100000000000) = .ok (.unrecognized 0xF8 0x00) ∧
  decode (.app 0b01) = .ok .qDepth ∧ decode (.app 0b10) = .ok .qPop ∧
  decode (.internal 0b001 [0x31]) = .ok (.crcUpdate 0x31) ∧
  decode (.internal 0b011 [0x40, 0x01]) = .ok (.qPush { code := 0x40, page := 0x01 })

/-! ### The step -/

/-- R80, R190: the step takes the oldest move and runs exactly the operation it decodes to. The model's own parts are the
input queue (notes/assumptions/6.md), from which the move is removed, and the mark that the bus is active: the first
operation of the dispatcher since reset sets it, and needs a legal page (R216, R236; notes/assumptions/20.md). -/
def Obligations.StepRunsTheDecodedOperation : Prop :=
  ∀ (s : State) (issuer : Context) (word : PortWord) (rest : List Request) (i : Instr),
    s.cfg.wf = true → s.input = .op issuer word :: rest → decode word = .ok i → issuer = i.context →
    (issuer = .application → step s = exec i { s with input := rest }) ∧
    (issuer = .interrupt → s.busActive = true ∨ PageLegalNow s →
      step s = exec i { s with input := rest, busActive := true })

/-- R196: an operation issued from the wrong context is refused, and changes nothing. -/
def Obligations.WrongContextIsRefused : Prop :=
  ∀ (s : State) (issuer : Context) (word : PortWord) (rest : List Request) (i : Instr),
    s.cfg.wf = true → s.input = .op issuer word :: rest → decode word = .ok i → issuer ≠ i.context →
    step s = .refused .wrongContext

/-- R99: application-port `op` 0 and 3 change no state and return nothing. -/
def Obligations.ReservedApplicationOps : Prop :=
  ∀ (s : State) (op : BitVec 2) (rest : List Request),
    s.cfg.wf = true → s.input = .op .application (.app op) :: rest → op = 0 ∨ op = 3 →
    step s = .next { s with input := rest, out := .nothing }

/-- R64, R215, R216: an application read returns the byte and has no side effect; an application write, the extra liberty
of R216 (notes/assumptions/16.md), changes that byte and nothing else; both refuse an address that is not allocated. -/
def Obligations.ApplicationAccess : Prop :=
  ∀ (s : State) (a : Address) (v : Byte) (rest : List Request), s.cfg.wf = true →
    (s.input = .appRead a :: rest → storeValid s.cfg a.toNat = true →
      step s = .next { s with input := rest, out := .stored (Memory.read s.store a.toNat) }) ∧
    (s.input = .appWrite a v :: rest → storeValid s.cfg a.toNat = true →
      ∃ m, step s = .next { s with input := rest, store := m, out := .nothing } ∧ Memory.read m a.toNat = v ∧
        ∀ b, b ≠ a.toNat → Memory.read m b = Memory.read s.store b) ∧
    (s.input = .appRead a :: rest ∨ s.input = .appWrite a v :: rest → storeValid s.cfg a.toNat = false →
      step s = .refused (.storageNotAllocated a.toNat))

/-- R63, R216, R221, R230, R236: the steps that run no operation. A launch configuration that fails a check is refused, in
every step (the model's choice, notes/assumptions/10.md); so is a first event while `PAGE` holds no legal value (the
model's choice of the moment, notes/assumptions/20.md); with no move pending all state is retained (the empty queue is the
model's own, notes/assumptions/6.md); a reset of the running block (a move that is the model's choice,
notes/assumptions/21.md) puts it to its launch values over the same storage and configuration. -/
def Obligations.StepWithoutAnOperation : Prop :=
  ∀ s : State,
    (s.cfg.wf = false → step s = .refused .illFormedConfiguration) ∧
    (∀ word rest i p, s.cfg.wf = true → s.busActive = false → s.input = .op .interrupt word :: rest →
      decode word = .ok i → i.context = .interrupt → pageValue s = .ok p → ¬PageByteOk s.cfg p →
      step s = .refused (.pageNotInitialised p)) ∧
    (s.cfg.wf = true → s.input = [] → step s = .next s) ∧
    (∀ rest, s.cfg.wf = true → s.input = .reset :: rest →
      step s = .next { State.launch s.cfg s.store with input := rest })

/-- R7, R39, R84: no step changes the parameters, the command table or the command index. -/
def Obligations.ConfigurationNeverChanges : Prop :=
  ∀ s t : State, step s = .next t → t.cfg = s.cfg

/-! ### Reset -/

/-- R42, R230: reset puts the block's own state to these values, for every launch configuration and launch memory. -/
def Obligations.ResetValues : Prop :=
  ∀ (c : Config) (m : Memory),
    (State.launch c m).mode = .idle ∧ (State.launch c m).errorLatched = false ∧
    (State.launch c m).pec = 0x00 ∧ (State.launch c m).rxIndex = 0 ∧ (State.launch c m).txIndex = 0 ∧
    (State.launch c m).activeDesc = none ∧ (State.launch c m).activeCode = 0x00 ∧
    (State.launch c m).writeLength = 0 ∧ (State.launch c m).newStatus = 0 ∧
    (State.launch c m).qHead = 0 ∧ (State.launch c m).qTail = 0 ∧ (State.launch c m).qFull = false ∧
    (State.launch c m).store = m ∧ (State.launch c m).cfg = c ∧ queueContents (State.launch c m) = []

/-- R42, R46, R63: every launch with a well-formed configuration and canonical memory meets the invariant, with no byte
staged and the bus not active (the model's own mark, notes/assumptions/20.md). -/
def Obligations.LaunchIsSound : Prop :=
  ∀ (c : Config) (m : Memory), c.wf = true → Memory.wf m = true →
    (State.launch c m).Sound ∧ StagedPageLegal (State.launch c m) ∧ (State.launch c m).busActive = false

/-- The reset state, with the model's choice of a launch configuration (notes/assumptions/1.md) and of what unlisted
storage reads as (notes/assumptions/3.md), meets both invariants. -/
def Obligations.ResetIsSound : Prop :=
  State.reset.Sound ∧ PageIsolated State.reset.cfg ∧ PageLegalNow State.reset ∧ StagedPageLegal State.reset

/-! ### Invariants -/

/-- R28, R46: every step keeps the invariant. -/
def Obligations.StepKeepsSound : Prop :=
  ∀ s t : State, s.Sound → step s = .next t → t.Sound

/-- R36, R69, R146, R236: where only the page-select command's storage holds the page register, no step makes its value
illegal, and while the bus is active (the model's own mark, notes/assumptions/20.md) it is legal; "only an application
write can produce it", so one to the page register (notes/assumptions/16.md) must write a legal value. -/
def Obligations.StepKeepsPageLegal : Prop :=
  ∀ s t : State, s.Sound → PageIsolated s.cfg → (s.busActive = true → PageLegalNow s) → StagedPageLegal s →
    LegalPageWrites s → step s = .next t →
    (PageLegalNow s → PageLegalNow t) ∧ (t.busActive = true → PageLegalNow t) ∧ StagedPageLegal t

/-- R190: the step is total. In every state that meets the invariant every event has a next state, unless the page
register holds a value outside its legal ones and storage of a paged command is addressed (R69). That a commit of a
zero-length block has one while the page is 0xFF rests on notes/assumptions/5.md (DEDUCED). -/
def Obligations.EveryEventCompletes : Prop :=
  ∀ (s : State) (i : Instr), s.Sound → isEvent i = true →
    (∃ t, exec i s = .next t) ∨
    ∃ p, pageValue s = .ok p ∧ s.cfg.numPages ≤ p.toNat ∧ p ≠ 0xFF ∧ exec i s = .refused (.pageOutsideLegal p)

/-! ### Rules about all operations -/

/-- R195: the complete `MODE` transition table. -/
def Obligations.ModeTransitionTable : Prop :=
  ∀ (i : Instr) (s t : State), exec i s = .next t → t.mode = modeAfter s.cfg.gcEnable i s.mode

/-- R211: nothing but an address match clears the error flag. -/
def Obligations.OnlyAddressMatchClearsError : Prop :=
  ∀ (i : Instr) (s t : State), exec i s = .next t → opensPhase s.cfg.gcEnable i = false →
    s.errorLatched = true → t.errorLatched = true

/-- R205, R210: with an error latched, no event but an address match records a fault or changes a byte of storage or
the queue. -/
def Obligations.LatchedErrorSuppresses : Prop :=
  ∀ (i : Instr) (s t : State), isEvent i = true → exec i s = .next t → opensPhase s.cfg.gcEnable i = false →
    s.errorLatched = true →
    t.newStatus = 0 ∧ t.store = s.store ∧ t.qRing = s.qRing ∧ t.qTail = s.qTail ∧ t.qHead = s.qHead ∧ t.qFull = s.qFull

/-- R205: an event newly latches at most one status bit, one of the four, and only by setting the error flag. -/
def Obligations.AtMostOneFaultPerEvent : Prop :=
  ∀ (i : Instr) (s t : State), isEvent i = true → exec i s = .next t →
    t.newStatus = 0 ∨
    ((t.newStatus = 0x80 ∨ t.newStatus = 0x40 ∨ t.newStatus = 0x20 ∨ t.newStatus = 0x02) ∧ t.errorLatched = true)

/-- R46, R65: a byte of storage changes only at the commit point of an unfaulted write phase that carried the declared
length, or by the merge of an event that newly latched a fault. -/
def Obligations.StorageChangesOnlyAtCommitOrMerge : Prop :=
  ∀ (i : Instr) (s t : State) (a : Nat), exec i s = .next t → Memory.read t.store a ≠ Memory.read s.store a →
    (∃ x d, i = .stopRestart x ∧ s.mode = .addrWrite ∧ s.errorLatched = false ∧ 1 ≤ s.rxIndex.toNat ∧
      s.activeDesc = some d ∧ d.writeLength ≠ 0 ∧ s.writeLength.toNat ≤ s.rxIndex.toNat - 1) ∨
    (isEvent i = true ∧ t.newStatus ≠ 0 ∧ ∃ w ∈ eventMerges s.cfg t.newStatus, w.1 = a)

/-- R37, R251: no operation but a commit clears a bit of backing storage, so none clears a fault bit. -/
def Obligations.StorageBitsOnlySet : Prop :=
  ∀ (i : Instr) (s t : State) (a : Nat), exec i s = .next t → (∀ x, i ≠ .stopRestart x) →
    Memory.read t.store a &&& Memory.read s.store a = Memory.read s.store a

/-- R94, R95, R140: every event answers with one response; it is never `HOLD`, it is `RELEASE` exactly for `BUS_ERROR`,
and only `ADDR_R` and an enabled `DATA_TX_ACK` transmit a byte other than 0x00. -/
def Obligations.EveryEventAnswers : Prop :=
  ∀ (i : Instr) (s t : State), isEvent i = true → exec i s = .next t →
    ∃ r : Response, t.out = .response r ∧ r.action ≠ .hold ∧
      (r.action = .release ↔ ∃ x, i = .busError x) ∧ (readStart i s = none → r.txdata = 0x00)

/-! ### Write-phase events -/

/-- R141, R142: an own-address write match, and an enabled general-call match, open a write phase. -/
def Obligations.WriteAddressMatch : Prop :=
  ∀ (s : State) (a : Byte) (i : Instr), i = .addrW a ∨ (i = .addrGc a ∧ s.cfg.gcEnable = true) →
    exec i s = .next { s with
      newStatus := 0, pec := crcEntry (0x00 ^^^ a), errorLatched := false, rxIndex := 0, mode := .addrWrite,
      out := ackOutput }

/-- R98, R192: an unnamed code, and every event that is not enabled, goes to the catch-all. -/
def Obligations.CatchAllRecovers : Prop :=
  ∀ (s : State) (i : Instr),
    (∃ c x, i = .unrecognized c x) ∨ ((∃ a, i = .addrGc a) ∧ s.cfg.gcEnable = false) ∨
    (((∃ b, i = .dataRx b) ∨ (∃ b, i = .dataRxGc b) ∨ ∃ x, i = .stopRestart x) ∧ s.mode ≠ .addrWrite) ∨
    (((∃ x, i = .dataTxAck x) ∨ ∃ x, i = .dataTxNack x) ∧ s.mode ≠ .addrRead) →
    exec i s = .next { s with newStatus := 0, mode := .idle, out := ackOutput }

/-- R191: a bus error releases the bus and leaves the write or read phase; it changes nothing else. -/
def Obligations.BusErrorReleases : Prop :=
  ∀ (s : State) (x : Byte),
    exec (.busError x) s = .next { s with
      newStatus := 0, mode := .idle, out := .response { action := .release, txdata := 0x00 } }

/-- R143, R149: the code byte of a supported command. -/
def Obligations.SupportedCommandByte : Prop :=
  ∀ (s : State) (b : Byte) (i : Instr) (d : Descriptor), i = .dataRx b ∨ i = .dataRxGc b →
    s.mode = .addrWrite → s.rxIndex = 0 → s.cfg.lookup b = some d →
    exec i s = .next { s with
      newStatus := 0, activeCode := b, activeDesc := some d, writeLength := d.writeLength.zeroExtend 9,
      pec := crcEntry (s.pec ^^^ b), rxIndex := 1, out := ackOutput }

/-- R143, R149: the code byte of an unsupported command latches the command fault and is not fed. -/
def Obligations.UnsupportedCommandByte : Prop :=
  ∀ (s : State) (b : Byte) (i : Instr), i = .dataRx b ∨ i = .dataRxGc b →
    s.mode = .addrWrite → s.rxIndex = 0 → s.cfg.lookup b = none → s.cfg.statusValid = true →
    FaultOutcome 0x80 s
      { s with newStatus := 0, activeCode := b, activeDesc := none, rxIndex := 1, out := ackOutput } (exec i s)

/-- R144, R149: a byte after an unsupported code is only counted. -/
def Obligations.SwallowedByte : Prop :=
  ∀ (s : State) (b : Byte) (i : Instr), i = .dataRx b ∨ i = .dataRxGc b →
    s.mode = .addrWrite → s.rxIndex ≠ 0 → s.activeDesc = none →
    exec i s = .next { s with newStatus := 0, rxIndex := satInc s.rxIndex, out := ackOutput }

/-- R145, R102: the block length byte sets `writeLength` to itself plus one and is fed, over-long or not; an over-long one
latches the data fault. -/
def Obligations.BlockLengthByte : Prop :=
  ∀ (s : State) (b : Byte) (i : Instr) (d : Descriptor), i = .dataRx b ∨ i = .dataRxGc b →
    s.mode = .addrWrite → s.rxIndex = 1 → s.activeDesc = some d → d.block = true → s.cfg.statusValid = true →
    (b.toNat ≤ d.writeLength.toNat →
      exec i s = .next { s with
        newStatus := 0, writeLength := BitVec.ofNat 9 (b.toNat + 1), pec := crcEntry (s.pec ^^^ b), rxIndex := 2,
        out := ackOutput }) ∧
    (d.writeLength.toNat < b.toNat →
      FaultOutcome 0x40 s
        { s with
          newStatus := 0, writeLength := BitVec.ofNat 9 (b.toNat + 1), pec := crcEntry (s.pec ^^^ b), rxIndex := 2,
          out := ackOutput } (exec i s))

/-- R146, R149, R105: a valid byte within the declared length is staged at its offset and fed. -/
def Obligations.DataByteIsStaged : Prop :=
  ∀ (s : State) (b : Byte) (i : Instr) (d : Descriptor), i = .dataRx b ∨ i = .dataRxGc b →
    s.mode = .addrWrite → s.activeDesc = some d → 1 ≤ s.rxIndex.toNat → ¬(d.block = true ∧ s.rxIndex = 1) →
    s.rxIndex.toNat ≤ s.writeLength.toNat → s.writeLength.toNat ≤ 256 → pageLegal d s = .ok true →
    (d.code ≠ 0x00 ∨ b.toNat < s.cfg.numPages ∨ b = 0xFF) →
    ∃ m, exec i s = .next { s with
        newStatus := 0, scratch := m, pec := crcEntry (s.pec ^^^ b), rxIndex := satInc s.rxIndex, out := ackOutput } ∧
      ∀ j, Memory.get m j =
        if j = (if d.block = true then s.rxIndex.toNat - 2 else s.rxIndex.toNat - 1) then some b
        else Memory.get s.scratch j

/-- R146, R149: a byte within the declared length that the page or the page-select range forbids is not staged, is still
fed, and latches the data fault. -/
def Obligations.DataByteIsRefused : Prop :=
  ∀ (s : State) (b : Byte) (i : Instr) (d : Descriptor), i = .dataRx b ∨ i = .dataRxGc b →
    s.mode = .addrWrite → s.activeDesc = some d → 1 ≤ s.rxIndex.toNat → ¬(d.block = true ∧ s.rxIndex = 1) →
    s.rxIndex.toNat ≤ s.writeLength.toNat → s.cfg.statusValid = true →
    (pageLegal d s = .ok false ∨
      (pageLegal d s = .ok true ∧ d.code = 0x00 ∧ s.cfg.numPages ≤ b.toNat ∧ b ≠ 0xFF)) →
    FaultOutcome 0x40 s
      { s with
        newStatus := 0, pec := crcEntry (s.pec ^^^ b), rxIndex := satInc s.rxIndex, out := ackOutput } (exec i s)

/-- R147, R149: the byte in the PEC position is compared with the checksum and not fed; on a read-only command it latches
the data fault whatever it is. -/
def Obligations.PecPositionByte : Prop :=
  ∀ (s : State) (b : Byte) (i : Instr) (d : Descriptor), i = .dataRx b ∨ i = .dataRxGc b →
    s.mode = .addrWrite → s.activeDesc = some d → ¬(d.block = true ∧ s.rxIndex = 1) →
    s.rxIndex.toNat = s.writeLength.toNat + 1 → s.cfg.statusValid = true →
    ((d.writeLength ≠ 0 ∨ d.readLength = 0) → b = s.pec →
      exec i s = .next { s with newStatus := 0, rxIndex := satInc s.rxIndex, out := ackOutput }) ∧
    ((d.writeLength ≠ 0 ∨ d.readLength = 0) → b ≠ s.pec →
      FaultOutcome 0x20 s { s with newStatus := 0, rxIndex := satInc s.rxIndex, out := ackOutput } (exec i s)) ∧
    (d.writeLength = 0 → d.readLength ≠ 0 →
      FaultOutcome 0x40 s { s with newStatus := 0, rxIndex := satInc s.rxIndex, out := ackOutput } (exec i s))

/-- R148, R149: a byte beyond the PEC position latches the data fault and is only counted. -/
def Obligations.ExcessByte : Prop :=
  ∀ (s : State) (b : Byte) (i : Instr) (d : Descriptor), i = .dataRx b ∨ i = .dataRxGc b →
    s.mode = .addrWrite → s.activeDesc = some d → s.writeLength.toNat + 2 ≤ s.rxIndex.toNat →
    s.cfg.statusValid = true →
    FaultOutcome 0x40 s { s with newStatus := 0, rxIndex := satInc s.rxIndex, out := ackOutput } (exec i s)

/-- R150, R151, R152, R71: the commit of a command that is not a block command. The staged bytes reach the storage
addresses the byte order gives them, and no other byte changes. One base address serves all bytes: where a paged command
overlaps the page register that is the model's reading (DEDUCED, notes/assumptions/8.md). -/
def Obligations.PlainCommitStores : Prop :=
  ∀ (s : State) (x : Byte) (d : Descriptor) (base : Nat) (v : Nat → Byte),
    s.mode = .addrWrite → s.errorLatched = false → 1 ≤ s.rxIndex.toNat → s.activeDesc = some d →
    d.block = false → d.writeLength ≠ 0 → s.writeLength.toNat ≤ s.rxIndex.toNat - 1 →
    pageLegal d s = .ok true → baseAddress d s = .ok base →
    (∀ k, k < d.writeLength.toNat → storeValid s.cfg (base + k) = true) →
    (∀ k, k < d.writeLength.toNat → Memory.get s.scratch k = some (v k)) →
    ∃ m, exec (.stopRestart x) s = .next { s with
        newStatus := 0, mode := .writeEnded, store := m, out := ackOutput } ∧
      (∀ k, k < d.writeLength.toNat →
        Memory.read m
          (base + if s.cfg.storageMsbFirst = true then d.writeLength.toNat - 1 - k else k) = v k) ∧
      ∀ a, (∀ k, k < d.writeLength.toNat → a ≠ base + k) → Memory.read m a = Memory.read s.store a

/-- R150, R151, R153: the commit of a block command. The length goes to the reserved first byte if there is one, the
payload behind it in wire order, and no other byte changes. One base address serves all bytes: where a paged block overlaps
the page register that is the model's reading (DEDUCED, notes/assumptions/8.md). -/
def Obligations.BlockCommitStores : Prop :=
  ∀ (s : State) (x : Byte) (d : Descriptor) (base len : Nat) (v : Nat → Byte),
    s.mode = .addrWrite → s.errorLatched = false → 2 ≤ s.rxIndex.toNat → s.activeDesc = some d →
    d.block = true → d.writeLength ≠ 0 → s.writeLength.toNat = len + 1 →
    s.writeLength.toNat ≤ s.rxIndex.toNat - 1 → pageLegal d s = .ok true → baseAddress d s = .ok base →
    (∀ k, k < d.lenRes + len → storeValid s.cfg (base + k) = true) →
    (∀ k, k < len → Memory.get s.scratch k = some (v k)) →
    ∃ m, exec (.stopRestart x) s = .next { s with
        newStatus := 0, mode := .writeEnded, store := m, out := ackOutput } ∧
      (d.lenByteFirst = true → Memory.read m base = BitVec.ofNat 8 len) ∧
      (∀ k, k < len → Memory.read m (base + d.lenRes + k) = v k) ∧
      ∀ a, (∀ k, k < d.lenRes + len → a ≠ base + k) → Memory.read m a = Memory.read s.store a

/-- R150, R151, R203: with an error latched, no code byte in this phase, an unsupported command, too few bytes or a
read-only command, the write phase ends and nothing is stored or enqueued. -/
def Obligations.NothingToCommit : Prop :=
  ∀ (s : State) (x : Byte), s.mode = .addrWrite →
    (s.errorLatched = true ∨ s.rxIndex = 0 ∨ s.activeDesc = none ∨
      ∃ d, s.activeDesc = some d ∧ (d.readLength ≠ 0 ∨ d.writeLength ≠ 0) ∧
        (s.rxIndex.toNat - 1 < s.writeLength.toNat ∨ d.writeLength = 0)) →
    exec (.stopRestart x) s = .next { s with newStatus := 0, mode := .writeEnded, out := ackOutput }

/-- R68 against R151 (DEDUCED, notes/assumptions/5.md): a commit while the page is illegal writes no byte of the command's
storage, for a plain command and for a block of any length. While the application writes no `PAGE`
(notes/assumptions/16.md) only a zero-length block reaches the commit point so. -/
def Obligations.IllegalPageCommitsNothing : Prop :=
  ∀ (s : State) (x : Byte) (d : Descriptor), s.mode = .addrWrite → s.activeDesc = some d → d.writeLength ≠ 0 →
    pageLegal d s = .ok false →
    (∀ k, k < (if d.block = true then s.writeLength.toNat - 1 else d.writeLength.toNat) →
      ∃ b, Memory.get s.scratch k = some b) →
    exec (.stopRestart x) s = .next { s with newStatus := 0, mode := .writeEnded, out := ackOutput }

/-- R150, R154: a send-byte command is enqueued with the page register's value, and dropped without a trace when the
queue is full. -/
def Obligations.SendByteIsEnqueued : Prop :=
  ∀ (s : State) (x p : Byte) (d : Descriptor), s.mode = .addrWrite → s.errorLatched = false →
    1 ≤ s.rxIndex.toNat → s.activeDesc = some d → d.readLength = 0 → d.writeLength = 0 → pageValue s = .ok p →
    s.QueueSound →
    (s.qFull = true →
      exec (.stopRestart x) s = .next { s with newStatus := 0, mode := .writeEnded, out := ackOutput }) ∧
    (s.qFull = false →
      ∃ t, exec (.stopRestart x) s = .next t ∧
        queueContents t = queueContents s ++ [{ code := d.code, page := p }] ∧
        t = { s with
          newStatus := 0, mode := .writeEnded, out := ackOutput, qRing := t.qRing, qTail := t.qTail,
          qFull := t.qFull })

/-! ### Read-phase events -/

/-- R171, R173, R178: a read with no supported command transmits 0xFF and is silent. -/
def Obligations.UnsupportedReadIsSilent : Prop :=
  ∀ (i : Instr) (s r : State), readStart i s = some r → r.activeDesc = none →
    exec i s = .next { r with
      txIndex := satInc r.txIndex, out := .response { action := .ack, txdata := 0xFF } }

/-- R173: a read of a write-only command transmits 0xFF and latches the I2C/protocol fault. -/
def Obligations.WriteOnlyReadIsFlagged : Prop :=
  ∀ (i : Instr) (s r : State) (d : Descriptor), readStart i s = some r → r.activeDesc = some d →
    d.readLength = 0 → s.cfg.statusValid = true →
    FaultOutcome 0x02 r
      { r with txIndex := satInc r.txIndex, out := .response { action := .ack, txdata := 0xFF } } (exec i s)

/-- R174: the first byte of a block read is the stored length or the fixed size, and is fed; while the page is illegal it
is 0x00, is not fed, and latches the data fault: R174 calls that page test the spec's own addition (C9, D13). -/
def Obligations.BlockReadLengthByte : Prop :=
  ∀ (i : Instr) (s r : State) (d : Descriptor), readStart i s = some r → r.activeDesc = some d →
    d.readLength ≠ 0 → d.block = true → r.txIndex = 1 → s.cfg.statusValid = true →
    (∀ base, pageLegal d r = .ok true → d.lenByteFirst = true → baseAddress d r = .ok base →
      storeValid r.cfg base = true →
      exec i s = .next { r with
        txIndex := 2, pec := crcEntry (r.pec ^^^ Memory.read r.store base),
        out := .response { action := .ack, txdata := Memory.read r.store base } }) ∧
    (pageLegal d r = .ok true → d.lenByteFirst = false →
      exec i s = .next { r with
        txIndex := 2, pec := crcEntry (r.pec ^^^ d.readLength),
        out := .response { action := .ack, txdata := d.readLength } }) ∧
    (pageLegal d r = .ok false →
      FaultOutcome 0x40 r
        { r with txIndex := 2, out := .response { action := .ack, txdata := 0x00 } } (exec i s))

/-- R103, R175, R71: a payload byte comes from the storage address of its wire position and is fed; while the page is
illegal it is 0x00, is not fed, and latches the data fault. -/
def Obligations.PayloadByteIsRead : Prop :=
  ∀ (i : Instr) (s r : State) (d : Descriptor) (k : Nat), readStart i s = some r → r.activeDesc = some d →
    k < d.readLength.toNat → r.txIndex.toNat = (if d.block = true then k + 2 else k + 1) →
    s.cfg.statusValid = true →
    (∀ base out, pageLegal d r = .ok true → baseAddress d r = .ok base →
      storeRead r (base + if d.block = true then d.lenRes + k
        else if r.cfg.storageMsbFirst = true then d.readLength.toNat - 1 - k else k) = .ok out →
      exec i s = .next { r with
        txIndex := satInc r.txIndex, pec := crcEntry (r.pec ^^^ out),
        out := .response { action := .ack, txdata := out } }) ∧
    (pageLegal d r = .ok false →
      FaultOutcome 0x40 r
        { r with txIndex := satInc r.txIndex, out := .response { action := .ack, txdata := 0x00 } } (exec i s))

/-- R176: after the payload the checksum is transmitted, not fed. -/
def Obligations.PecByteIsTransmitted : Prop :=
  ∀ (i : Instr) (s r : State) (d : Descriptor), readStart i s = some r → r.activeDesc = some d →
    d.readLength ≠ 0 → r.txIndex.toNat = d.readLength.toNat + (if d.block = true then 2 else 1) →
    exec i s = .next { r with
      txIndex := satInc r.txIndex, out := .response { action := .ack, txdata := r.pec } }

/-- R177: a byte beyond the PEC is 0xFF and latches the I2C/protocol fault. -/
def Obligations.OverReadIsFlagged : Prop :=
  ∀ (i : Instr) (s r : State) (d : Descriptor), readStart i s = some r → r.activeDesc = some d →
    d.readLength.toNat + (if d.block = true then 3 else 2) ≤ r.txIndex.toNat → s.cfg.statusValid = true →
    FaultOutcome 0x02 r
      { r with txIndex := satInc r.txIndex, out := .response { action := .ack, txdata := 0xFF } } (exec i s)

/-- R179: a transmit that is not acknowledged ends the read; nothing else changes. Outside a read the catch-all does the
same (R192). -/
def Obligations.EndOfRead : Prop :=
  ∀ (s : State) (x : Byte),
    exec (.dataTxNack x) s = .next { s with newStatus := 0, mode := .idle, out := ackOutput }

/-! ### Checksum engine -/

/-- R122, R123, R124: the three checksum operations; nothing else changes. -/
def Obligations.ChecksumOperations : Prop :=
  ∀ (s : State) (b : Byte),
    exec .crcReset s = .next { s with pec := 0x00, out := .nothing } ∧
    exec (.crcUpdate b) s = .next { s with pec := crcTable.getD (s.pec ^^^ b).toNat 0, out := .nothing } ∧
    exec .crcValue s = .next { s with out := .crc s.pec }

/-- R120, R123: the table is linear over GF(2). -/
def Obligations.ChecksumTableIsLinear : Prop :=
  ∀ x y : Byte, crcEntry (x ^^^ y) = crcEntry x ^^^ crcEntry y

/-- R123, R126: feeding bytes one at a time gives the CRC-8 of the sequence by the bitwise definition, and a message
followed by its own PEC has checksum zero. -/
def Obligations.ChecksumOfSequence : Prop :=
  ∀ (s : State) (bs : List Byte),
    (∃ t outs, runAll (bs.map Instr.crcUpdate) s = some (t, outs) ∧ t.pec = crcOver s.pec bs) ∧
    crcOver s.pec (bs ++ [crcOver s.pec bs]) = 0

/-! ### Queue -/

/-- R133: the occupancy, read without a change of state. -/
def Obligations.DepthIsOccupancy : Prop :=
  ∀ s : State, s.QueueSound →
    exec .qDepth s = .next { s with
      out := .depth (if s.qFull = true then s.cfg.qCapacity
        else if s.qHead ≤ s.qTail then s.qTail - s.qHead else s.qTail + s.cfg.qCapacity - s.qHead) } ∧
    (queueContents s).length ≤ s.cfg.qCapacity ∧
    exec .qDepth s = .next { s with out := .depth (queueContents s).length }

/-- R132: popping an empty queue fails without altering state; otherwise the oldest entry leaves. The two zero
bytes of a failed pop are no result to use (DEDUCED, notes/assumptions/15.md). -/
def Obligations.PopReturnsOldest : Prop :=
  ∀ s : State, s.QueueSound →
    (queueContents s = [] → exec .qPop s = .next { s with out := .popped false 0x00 0x00 }) ∧
    ∀ e es, queueContents s = e :: es →
      ∃ t, exec .qPop s = .next t ∧ queueContents t = es ∧
        t = { s with
          qHead := (s.qHead + 1) % s.cfg.qCapacity, qFull := false, out := .popped true e.code e.page }

/-- R131: a push appends, unless the queue is full; then the newest entry is dropped and nothing changes. -/
def Obligations.PushAppends : Prop :=
  ∀ (s : State) (e : QEntry), s.QueueSound →
    ((queueContents s).length = s.cfg.qCapacity → exec (.qPush e) s = .next { s with out := .pushed false }) ∧
    ((queueContents s).length < s.cfg.qCapacity →
      ∃ t, exec (.qPush e) s = .next t ∧ queueContents t = queueContents s ++ [e] ∧
        t = { s with
          qRing := s.qRing.set s.qTail e, qTail := (s.qTail + 1) % s.cfg.qCapacity,
          qFull := decide ((s.qTail + 1) % s.cfg.qCapacity = s.qHead), out := .pushed true })

/-- R134: N pushes into an empty queue of capacity N succeed, the next fails and is dropped, N pops return the entries in
FIFO order, and the next pop fails (its two zero bytes: DEDUCED, notes/assumptions/15.md). -/
def Obligations.QueueIsFifo : Prop :=
  ∀ (s : State) (es : List QEntry) (e : QEntry), s.QueueSound → queueContents s = [] →
    es.length = s.cfg.qCapacity →
    ∃ t u : State,
      runAll (es.map Instr.qPush) s = some (t, es.map fun _ => .pushed true) ∧ queueContents t = es ∧
      exec (.qPush e) t = .next { t with out := .pushed false } ∧
      runAll (es.map fun _ => .qPop) t = some (u, es.map fun f => .popped true f.code f.page) ∧
      queueContents u = [] ∧ exec .qPop u = .next { u with out := .popped false 0x00 0x00 }

/-! ### Operands, storage and the latch -/

/-- R68, R69, R70: a command without `PAGED` ignores the page value; on a paged command only 0xFF is illegal, a page below
`NUM_PAGES` selects its copy of the storage, and a value between the two has no base address. -/
def Obligations.PageTranslation : Prop :=
  ∀ (s : State) (d : Descriptor),
    (d.paged = false → pageLegal d s = .ok true ∧ baseAddress d s = .ok d.storageAddress.toNat) ∧
    ∀ p, d.paged = true → pageValue s = .ok p →
      pageLegal d s = .ok (decide (p ≠ 0xFF)) ∧
      (p.toNat < s.cfg.numPages →
        baseAddress d s = .ok (d.storageAddress.toNat + p.toNat *
          (max d.readLength.toNat d.writeLength.toNat + if d.attributes.getLsbD 2 = true then 1 else 0))) ∧
      (s.cfg.numPages ≤ p.toNat → p ≠ 0xFF →
        baseAddress d s = .error (.refusal (.pageOutsideLegal p)))

/-- R64: a write changes that byte and nothing else, keeps the canonical form, and an address that is not allocated is
refused by reads and writes alike. -/
def Obligations.StorageAccess : Prop :=
  ∀ (s : State) (a : Nat) (v : Byte),
    (storeValid s.cfg a = true →
      storeRead s a = .ok (Memory.read s.store a) ∧
      ∃ m, storeWrite s a v = .ok { s with store := m } ∧ Memory.read m a = v ∧
        (∀ b, b ≠ a → Memory.read m b = Memory.read s.store b) ∧
        (Memory.wf s.store = true → Memory.wf m = true)) ∧
    (storeValid s.cfg a = false →
      storeRead s a = .error (.refusal (.storageNotAllocated a)) ∧
      storeWrite s a v = .error (.refusal (.storageNotAllocated a)))

/-- R104: the saturating increment. -/
def Obligations.CounterSaturates : Prop :=
  ∀ x : Counter,
    (x.toNat < 65535 → (satInc x).toNat = x.toNat + 1) ∧ (x.toNat = 65535 → satInc x = x)

/-- R205, R206: fault entry. `Latch` records the first fault of a transaction and no later one; the post-event merge does
nothing if nothing was newly latched, and otherwise ORs the status bits into `CML` and the summary bit into every
page's status word, whatever the page register holds. -/
def Obligations.FaultEntry : Prop :=
  ∀ (s : State) (status : Byte),
    (s.errorLatched = false →
      latch status s = { s with newStatus := s.newStatus ||| status, errorLatched := true }) ∧
    (s.errorLatched = true → latch status s = s) ∧
    (s.newStatus = 0 → postEventMerge s = .ok s) ∧
    (s.newStatus ≠ 0 → s.cfg.statusValid = true →
      ∃ m, postEventMerge s = .ok { s with store := m } ∧
        ∀ a, Memory.read m a = Memory.read s.store a ||| mergeBits s.cfg s.newStatus a)

/-- R38, R206: after a merge every page's status word has the summary bit 0x0002 set and its other bits as they were, in
either storage order, where the fault byte lies outside the status words. -/
def Obligations.SummaryBitIsBroadcast : Prop :=
  ∀ (s t : State) (p : Nat) (w : BitVec 16), s.cfg.statusWordEnable = true → s.newStatus ≠ 0 → p < s.cfg.numPages →
    (∀ q, q < 2 * s.cfg.numPages → s.cfg.cmlAddr.toNat ≠ s.cfg.statusWordAddr.toNat + q) →
    statusWord s p = .ok w → postEventMerge s = .ok t → statusWord t p = .ok (w ||| 0x0002)

/-! ### Whole transactions -/

/-- R144, R203, X1: a write of an unsupported command is absorbed whatever bytes follow. The command fault is latched
exactly once, by the code byte: no later event of the transaction leaves `newStatus` nonzero. Nothing else happens to
storage or the queue. -/
def Obligations.UnsupportedWriteIsAbsorbed : Prop :=
  ∀ (s : State) (code : Byte) (bs : List Byte), s.cfg.lookup code = none → s.cfg.statusValid = true →
    (∃ u, runAll ((writeEvents s.cfg code bs).take 2) s = some (u, [ackOutput, ackOutput]) ∧
      u.newStatus = 0x80 ∧ u.errorLatched = true ∧
      (∀ a, Memory.read u.store a = Memory.read s.store a ||| mergeBits s.cfg 0x80 a) ∧
      ∀ k, 1 ≤ k → k ≤ bs.length + 1 →
        ∃ v outs, runAll (((writeEvents s.cfg code bs).drop 2).take k) u = some (v, outs) ∧
          v.newStatus = 0 ∧ v.errorLatched = true ∧ v.store = u.store) ∧
    ∃ t outs, runAll (writeEvents s.cfg code bs) s = some (t, outs) ∧ outs = List.replicate (bs.length + 3) ackOutput ∧
      t.mode = .writeEnded ∧ t.errorLatched = true ∧ t.newStatus = 0 ∧
      t.qRing = s.qRing ∧ t.qTail = s.qTail ∧ t.qHead = s.qHead ∧ t.qFull = s.qFull ∧
      ∀ a, Memory.read t.store a = Memory.read s.store a ||| mergeBits s.cfg 0x80 a

/-- R147, R151, R152, X2, X3: a write of exactly the declared number of bytes to a command that is neither block nor paged
commits those bytes, in order, if its PEC is the CRC-8 of all bytes before it, and with any other PEC byte latches the
PEC fault and commits nothing. Page select, block and paged commands are left out: their single events are covered by
`DataByteIsStaged` to `BlockCommitStores`. -/
def Obligations.WriteWithPec : Prop :=
  ∀ (s : State) (code pecByte : Byte) (d : Descriptor) (bs : List Byte), s.cfg.wf = true →
    s.cfg.lookup code = some d → code ≠ 0x00 → d.block = false → d.paged = false → d.writeLength ≠ 0 →
    bs.length = d.writeLength.toNat →
    ∃ t outs, runAll (writeEvents s.cfg code (bs ++ [pecByte])) s = some (t, outs) ∧
      outs = List.replicate (bs.length + 4) ackOutput ∧
      (pecByte = crcOver 0 ([addressWrite s.cfg, code] ++ bs) →
        (∀ k (h : k < bs.length), Memory.read t.store
          (d.storageAddress.toNat + if s.cfg.storageMsbFirst = true then bs.length - 1 - k else k) = bs[k]) ∧
        ∀ a, (∀ k, k < bs.length → a ≠ d.storageAddress.toNat + k) →
          Memory.read t.store a = Memory.read s.store a) ∧
      (pecByte ≠ crcOver 0 ([addressWrite s.cfg, code] ++ bs) →
        ∀ a, Memory.read t.store a = Memory.read s.store a ||| mergeBits s.cfg 0x20 a)

/-- R171, R175, R176, X8: reading a command that is neither block nor paged returns its storage bytes in order and then
the CRC-8 of the address byte, the code, the second address byte and those bytes. Block and paged commands are left out: their
single events are covered by `BlockReadLengthByte` to `PecByteIsTransmitted`. -/
def Obligations.ReadReturnsStorage : Prop :=
  ∀ (s : State) (code : Byte) (d : Descriptor) (bs : List Byte), s.cfg.wf = true → s.cfg.lookup code = some d →
    d.block = false → d.paged = false → d.readLength ≠ 0 → bs.length = d.readLength.toNat →
    (∀ k (h : k < bs.length), Memory.read s.store
      (d.storageAddress.toNat + if s.cfg.storageMsbFirst = true then bs.length - 1 - k else k) = bs[k]) →
    ∃ t outs, runAll (readEvents s.cfg code (bs.length + 1)) s = some (t, outs) ∧
      t.store = s.store ∧ t.mode = .idle ∧
      outs = List.replicate 3 ackOutput ++
        (bs ++ [crcOver 0 ([addressWrite s.cfg, code, addressRead s.cfg] ++ bs)]).map
          (fun b => Output.response { action := .ack, txdata := b }) ++
        [ackOutput]
end

