-- ==== Sys2Proof/Laws/Decode.lean ====
section
/-!
SUPPORT. The fields of an event word and the word built from them (spec/30_encoding.md R91).
-/

namespace Sys2Proof

@[simp] theorem eventCode_eventWord (code data : Byte) : eventCode (eventWord code data) = code := by
  apply BitVec.eq_of_getLsbD_eq
  intro i hi
  simp only [eventCode, eventWord, BitVec.getLsbD_extractLsb', BitVec.getLsbD_append, hi, decide_true, Bool.true_and]
  rw [if_neg (by omega)]; simp

@[simp] theorem eventData_eventWord (code data : Byte) : eventData (eventWord code data) = data := by
  apply BitVec.eq_of_getLsbD_eq
  intro i hi
  simp only [eventData, eventWord, BitVec.getLsbD_extractLsb', BitVec.getLsbD_append, hi, decide_true, Bool.true_and]
  rw [if_pos (by omega), Nat.zero_add]

/-- An event word is its two fields and nothing else. -/
@[simp] theorem eventWord_fields (w : EventWord) : eventWord (eventCode w) (eventData w) = w := by
  apply BitVec.eq_of_getLsbD_eq
  intro i hi
  simp only [eventCode, eventData, eventWord, BitVec.getLsbD_extractLsb', BitVec.getLsbD_append]
  split
  · simp_all
  · rw [show 8 + (i - 8) = i by omega]; simp; omega

/-- A decoded event has one of the named codes, or is `UNRECOGNIZED` with a code that is none of them. -/
theorem decodeEvent_wf (code data : Byte) : (decodeEvent code data).wf = true := by
  unfold decodeEvent
  repeat' split
  all_goals simp_all [Instr.wf, namedEventCodes]

end Sys2Proof
end

