-- ==== Sys2Proof/Laws/Memory.lean ====
section
/-!
SUPPORT. The laws of byte memories: what a listing and an erasure leave at every address, that they keep the addresses
rising, and that a write keeps the canonical form of backing storage.
-/

namespace Sys2Proof.Machine

/-! ### What an address holds after an update -/

theorem Memory.get_set (m : Memory) (x y : Nat) (v : Byte) :
    Memory.get (Memory.set m x v) y = if x = y then some v else Memory.get m y := by
  induction m with
  | nil => simp [Memory.set, Memory.get]
  | cons c m ih =>
    obtain ⟨a, w⟩ := c
    simp only [Memory.set]
    split
    · simp only [Memory.get]
    · split
      · rename_i h; subst h; simp only [Memory.get]; split <;> rfl
      · simp only [Memory.get, ih]
        split <;> split <;> simp_all

theorem Memory.get_erase (m : Memory) (x y : Nat) :
    Memory.get (Memory.erase m x) y = if x = y then none else Memory.get m y := by
  induction m with
  | nil => simp [Memory.erase, Memory.get]
  | cons c m ih =>
    obtain ⟨a, w⟩ := c
    simp only [Memory.erase]
    split <;> simp only [Memory.get, ih] <;> split <;> simp_all
    omega

/-- A read after a write to the same address gives the value written. -/
@[simp] theorem Memory.read_write_same (m : Memory) (a : Nat) (v : Byte) :
    Memory.read (Memory.write m a v) a = v := by
  unfold Memory.read Memory.write
  split <;> simp_all [Memory.get_set, Memory.get_erase]

/-- A write leaves every other address alone. -/
theorem Memory.read_write_other (m : Memory) {a b : Nat} (v : Byte) (h : a ≠ b) :
    Memory.read (Memory.write m a v) b = Memory.read m b := by
  unfold Memory.read Memory.write
  split <;> simp [Memory.get_set, Memory.get_erase, h]

theorem Memory.read_write (m : Memory) (a b : Nat) (v : Byte) :
    Memory.read (Memory.write m a v) b = if a = b then v else Memory.read m b := by
  split
  · rename_i h; subst h; exact Memory.read_write_same m a v
  · rename_i h; exact Memory.read_write_other m v h

@[simp] theorem Memory.read_nil (a : Nat) : Memory.read [] a = unlistedByte := rfl

/-! ### Which cells an update lists -/

theorem Memory.mem_set {m : Memory} {x : Nat} {v : Byte} {c : Host.Cell} (h : c ∈ Memory.set m x v) :
    c = (x, v) ∨ c ∈ m := by
  induction m with
  | nil => simpa [Memory.set] using h
  | cons d m ih =>
    obtain ⟨a, w⟩ := d
    simp only [Memory.set] at h
    split at h
    · simpa using h
    · split at h
      · rcases List.mem_cons.1 h with h | h
        · exact .inl h
        · exact .inr (List.mem_cons_of_mem _ h)
      · rcases List.mem_cons.1 h with h | h
        · exact .inr (h ▸ List.mem_cons_self)
        · exact (ih h).imp_right (List.mem_cons_of_mem _)

theorem Memory.mem_erase {m : Memory} {x : Nat} {c : Host.Cell} (h : c ∈ Memory.erase m x) : c ∈ m := by
  induction m with
  | nil => simp [Memory.erase] at h
  | cons d m ih =>
    obtain ⟨a, w⟩ := d
    simp only [Memory.erase] at h
    split at h
    · exact List.mem_cons_of_mem _ (ih h)
    · rcases List.mem_cons.1 h with h | h
      · exact h ▸ List.mem_cons_self
      · exact List.mem_cons_of_mem _ (ih h)

/-- A byte that is found is listed. -/
theorem Memory.mem_of_get {m : Memory} {x : Nat} {b : Byte} (h : Memory.get m x = some b) : (x, b) ∈ m := by
  induction m with
  | nil => simp [Memory.get] at h
  | cons d m ih =>
    obtain ⟨a, w⟩ := d
    simp only [Memory.get] at h
    split at h
    · simp_all
    · exact List.mem_cons_of_mem _ (ih h)

/-! ### Rising addresses -/

theorem Memory.rising_iff (m : Memory) :
    Memory.rising m = true ↔ m.Pairwise fun c d => c.1 < d.1 := by
  simp [Memory.rising]

theorem Memory.rising_set {m : Memory} (x : Nat) (v : Byte) (h : Memory.rising m = true) :
    Memory.rising (Memory.set m x v) = true := by
  rw [Memory.rising_iff] at h ⊢
  induction m with
  | nil => simp [Memory.set]
  | cons d m ih =>
    obtain ⟨a, w⟩ := d
    obtain ⟨hhead, htail⟩ := List.pairwise_cons.1 h
    simp only [Memory.set]
    split
    · refine List.pairwise_cons.2 ⟨fun c hc => ?_, h⟩
      rcases List.mem_cons.1 hc with rfl | hc
      · assumption
      · have := hhead c hc; simp only at this ⊢; omega
    · split
      · rename_i hx; subst hx; exact List.pairwise_cons.2 ⟨hhead, htail⟩
      · refine List.pairwise_cons.2 ⟨fun c hc => ?_, ih htail⟩
        rcases Memory.mem_set hc with rfl | hc
        · simp only; omega
        · exact hhead c hc

theorem Memory.rising_erase {m : Memory} (x : Nat) (h : Memory.rising m = true) :
    Memory.rising (Memory.erase m x) = true := by
  rw [Memory.rising_iff] at h ⊢
  induction m with
  | nil => simp [Memory.erase]
  | cons d m ih =>
    obtain ⟨a, w⟩ := d
    obtain ⟨hhead, htail⟩ := List.pairwise_cons.1 h
    simp only [Memory.erase]
    split
    · exact ih htail
    · exact List.pairwise_cons.2 ⟨fun c hc => hhead c (Memory.mem_erase hc), ih htail⟩

/-! ### The canonical form of backing storage -/

theorem Memory.wf_iff (m : Memory) :
    Memory.wf m = true ↔
      Memory.rising m = true ∧ ∀ c ∈ m, c.1 < storageSize ∧ c.2 ≠ unlistedByte := by
  simp [Memory.wf, List.all_eq_true]

/-- A write inside the address space keeps the canonical form. -/
theorem Memory.wf_write {m : Memory} {a : Nat} (v : Byte) (h : Memory.wf m = true) (ha : a < storageSize) :
    Memory.wf (Memory.write m a v) = true := by
  rw [Memory.wf_iff] at h ⊢
  obtain ⟨hr, hc⟩ := h
  unfold Memory.write
  split
  · exact ⟨Memory.rising_erase a hr, fun c hm => hc c (Memory.mem_erase hm)⟩
  · refine ⟨Memory.rising_set a v hr, fun c hm => ?_⟩
    rcases Memory.mem_set hm with rfl | hm
    · exact ⟨ha, by assumption⟩
    · exact hc c hm

/-- The first address of a rising memory is found nowhere behind it. -/
theorem Memory.get_tail_none {a : Nat} {w : Byte} {m : Memory} (h : Memory.rising ((a, w) :: m) = true) {x : Nat}
    (hx : x ≤ a) : Memory.get m x = none := by
  rw [Memory.rising_iff] at h
  cases hg : Memory.get m x with
  | none => rfl
  | some b => have := (List.pairwise_cons.1 h).1 _ (Memory.mem_of_get hg); simp only at this; omega

/-- In canonical form, what is listed is what reads as something else than an unlisted address. -/
theorem Memory.get_eq_of_wf {m : Memory} (h : Memory.wf m = true) (x : Nat) :
    Memory.get m x = if Memory.read m x = unlistedByte then none else some (Memory.read m x) := by
  unfold Memory.read
  cases hg : Memory.get m x with
  | none => simp
  | some b => have := (((Memory.wf_iff m).1 h).2 _ (Memory.mem_of_get hg)).2; simp_all

/-- Memories in rising order that list the same bytes are equal. -/
theorem Memory.ext_get {m n : Memory} (hm : Memory.rising m = true) (hn : Memory.rising n = true)
    (h : ∀ x, Memory.get m x = Memory.get n x) : m = n := by
  induction m generalizing n with
  | nil =>
    cases n with
    | nil => rfl
    | cons c n => have := h c.1; simp [Memory.get] at this
  | cons c m ih =>
    obtain ⟨a, v⟩ := c
    cases n with
    | nil => have := h a; simp [Memory.get] at this
    | cons d n =>
      obtain ⟨b, w⟩ := d
      have hab : a = b := by
        have ha := h a
        have hb := h b
        simp only [Memory.get, if_true] at ha hb
        rcases Nat.lt_trichotomy a b with hlt | heq | hgt
        · rw [if_neg (by omega), Memory.get_tail_none hn (by omega)] at ha; simp at ha
        · exact heq
        · rw [if_neg (by omega), Memory.get_tail_none hm (by omega)] at hb; simp at hb
      subst hab
      have hv := h a
      simp only [Memory.get, if_true, Option.some.injEq] at hv
      subst hv
      have htm := (Memory.rising_iff _).2 (List.pairwise_cons.1 ((Memory.rising_iff _).1 hm)).2
      have htn := (Memory.rising_iff _).2 (List.pairwise_cons.1 ((Memory.rising_iff _).1 hn)).2
      rw [ih htm htn fun x => ?_]
      by_cases hx : x = a
      · subst hx; rw [Memory.get_tail_none hm (Nat.le_refl x), Memory.get_tail_none hn (Nat.le_refl x)]
      · have := h x; simp only [Memory.get] at this; rwa [if_neg (by omega), if_neg (by omega)] at this

/-- Equal memories are equal data: canonical memories that read alike at every address are the same list. -/
theorem Memory.ext_of_wf {m n : Memory} (hm : Memory.wf m = true) (hn : Memory.wf n = true)
    (h : ∀ x, Memory.read m x = Memory.read n x) : m = n :=
  Memory.ext_get ((Memory.wf_iff m).1 hm).1 ((Memory.wf_iff n).1 hn).1 fun x => by
    rw [Memory.get_eq_of_wf hm, Memory.get_eq_of_wf hn, h x]

@[simp] theorem Memory.wf_nil : Memory.wf [] = true := rfl

end Sys2Proof.Machine
end

