-- ==== Sys2Proof/Laws/State.lean ====
section
/-!
SUPPORT. One lemma per field per update of `State`, true by `rfl`, so that no later proof unfolds a record update.
-/

namespace Sys2Proof.Machine

/-! `setMode` -/

@[simp] theorem State.setMode_cfg (s : State) (x : Mode) : (s.setMode x).cfg = s.cfg := rfl
@[simp] theorem State.setMode_mode (s : State) (x : Mode) : (s.setMode x).mode = x := rfl
@[simp] theorem State.setMode_errorLatched (s : State) (x : Mode) : (s.setMode x).errorLatched = s.errorLatched := rfl
@[simp] theorem State.setMode_pec (s : State) (x : Mode) : (s.setMode x).pec = s.pec := rfl
@[simp] theorem State.setMode_rxIndex (s : State) (x : Mode) : (s.setMode x).rxIndex = s.rxIndex := rfl
@[simp] theorem State.setMode_txIndex (s : State) (x : Mode) : (s.setMode x).txIndex = s.txIndex := rfl
@[simp] theorem State.setMode_activeDesc (s : State) (x : Mode) : (s.setMode x).activeDesc = s.activeDesc := rfl
@[simp] theorem State.setMode_activeCode (s : State) (x : Mode) : (s.setMode x).activeCode = s.activeCode := rfl
@[simp] theorem State.setMode_writeLength (s : State) (x : Mode) : (s.setMode x).writeLength = s.writeLength := rfl
@[simp] theorem State.setMode_scratch (s : State) (x : Mode) : (s.setMode x).scratch = s.scratch := rfl
@[simp] theorem State.setMode_newStatus (s : State) (x : Mode) : (s.setMode x).newStatus = s.newStatus := rfl
@[simp] theorem State.setMode_qRing (s : State) (x : Mode) : (s.setMode x).qRing = s.qRing := rfl
@[simp] theorem State.setMode_qHead (s : State) (x : Mode) : (s.setMode x).qHead = s.qHead := rfl
@[simp] theorem State.setMode_qTail (s : State) (x : Mode) : (s.setMode x).qTail = s.qTail := rfl
@[simp] theorem State.setMode_qFull (s : State) (x : Mode) : (s.setMode x).qFull = s.qFull := rfl
@[simp] theorem State.setMode_store (s : State) (x : Mode) : (s.setMode x).store = s.store := rfl
@[simp] theorem State.setMode_busActive (s : State) (x : Mode) : (s.setMode x).busActive = s.busActive := rfl
@[simp] theorem State.setMode_input (s : State) (x : Mode) : (s.setMode x).input = s.input := rfl
@[simp] theorem State.setMode_out (s : State) (x : Mode) : (s.setMode x).out = s.out := rfl

/-! `setErrorLatched` -/

@[simp] theorem State.setErrorLatched_cfg (s : State) (x : Bool) : (s.setErrorLatched x).cfg = s.cfg := rfl
@[simp] theorem State.setErrorLatched_mode (s : State) (x : Bool) : (s.setErrorLatched x).mode = s.mode := rfl
@[simp] theorem State.setErrorLatched_errorLatched (s : State) (x : Bool) : (s.setErrorLatched x).errorLatched = x := rfl
@[simp] theorem State.setErrorLatched_pec (s : State) (x : Bool) : (s.setErrorLatched x).pec = s.pec := rfl
@[simp] theorem State.setErrorLatched_rxIndex (s : State) (x : Bool) : (s.setErrorLatched x).rxIndex = s.rxIndex := rfl
@[simp] theorem State.setErrorLatched_txIndex (s : State) (x : Bool) : (s.setErrorLatched x).txIndex = s.txIndex := rfl
@[simp] theorem State.setErrorLatched_activeDesc (s : State) (x : Bool) : (s.setErrorLatched x).activeDesc = s.activeDesc := rfl
@[simp] theorem State.setErrorLatched_activeCode (s : State) (x : Bool) : (s.setErrorLatched x).activeCode = s.activeCode := rfl
@[simp] theorem State.setErrorLatched_writeLength (s : State) (x : Bool) : (s.setErrorLatched x).writeLength = s.writeLength := rfl
@[simp] theorem State.setErrorLatched_scratch (s : State) (x : Bool) : (s.setErrorLatched x).scratch = s.scratch := rfl
@[simp] theorem State.setErrorLatched_newStatus (s : State) (x : Bool) : (s.setErrorLatched x).newStatus = s.newStatus := rfl
@[simp] theorem State.setErrorLatched_qRing (s : State) (x : Bool) : (s.setErrorLatched x).qRing = s.qRing := rfl
@[simp] theorem State.setErrorLatched_qHead (s : State) (x : Bool) : (s.setErrorLatched x).qHead = s.qHead := rfl
@[simp] theorem State.setErrorLatched_qTail (s : State) (x : Bool) : (s.setErrorLatched x).qTail = s.qTail := rfl
@[simp] theorem State.setErrorLatched_qFull (s : State) (x : Bool) : (s.setErrorLatched x).qFull = s.qFull := rfl
@[simp] theorem State.setErrorLatched_store (s : State) (x : Bool) : (s.setErrorLatched x).store = s.store := rfl
@[simp] theorem State.setErrorLatched_busActive (s : State) (x : Bool) : (s.setErrorLatched x).busActive = s.busActive := rfl
@[simp] theorem State.setErrorLatched_input (s : State) (x : Bool) : (s.setErrorLatched x).input = s.input := rfl
@[simp] theorem State.setErrorLatched_out (s : State) (x : Bool) : (s.setErrorLatched x).out = s.out := rfl

/-! `setPec` -/

@[simp] theorem State.setPec_cfg (s : State) (x : Byte) : (s.setPec x).cfg = s.cfg := rfl
@[simp] theorem State.setPec_mode (s : State) (x : Byte) : (s.setPec x).mode = s.mode := rfl
@[simp] theorem State.setPec_errorLatched (s : State) (x : Byte) : (s.setPec x).errorLatched = s.errorLatched := rfl
@[simp] theorem State.setPec_pec (s : State) (x : Byte) : (s.setPec x).pec = x := rfl
@[simp] theorem State.setPec_rxIndex (s : State) (x : Byte) : (s.setPec x).rxIndex = s.rxIndex := rfl
@[simp] theorem State.setPec_txIndex (s : State) (x : Byte) : (s.setPec x).txIndex = s.txIndex := rfl
@[simp] theorem State.setPec_activeDesc (s : State) (x : Byte) : (s.setPec x).activeDesc = s.activeDesc := rfl
@[simp] theorem State.setPec_activeCode (s : State) (x : Byte) : (s.setPec x).activeCode = s.activeCode := rfl
@[simp] theorem State.setPec_writeLength (s : State) (x : Byte) : (s.setPec x).writeLength = s.writeLength := rfl
@[simp] theorem State.setPec_scratch (s : State) (x : Byte) : (s.setPec x).scratch = s.scratch := rfl
@[simp] theorem State.setPec_newStatus (s : State) (x : Byte) : (s.setPec x).newStatus = s.newStatus := rfl
@[simp] theorem State.setPec_qRing (s : State) (x : Byte) : (s.setPec x).qRing = s.qRing := rfl
@[simp] theorem State.setPec_qHead (s : State) (x : Byte) : (s.setPec x).qHead = s.qHead := rfl
@[simp] theorem State.setPec_qTail (s : State) (x : Byte) : (s.setPec x).qTail = s.qTail := rfl
@[simp] theorem State.setPec_qFull (s : State) (x : Byte) : (s.setPec x).qFull = s.qFull := rfl
@[simp] theorem State.setPec_store (s : State) (x : Byte) : (s.setPec x).store = s.store := rfl
@[simp] theorem State.setPec_busActive (s : State) (x : Byte) : (s.setPec x).busActive = s.busActive := rfl
@[simp] theorem State.setPec_input (s : State) (x : Byte) : (s.setPec x).input = s.input := rfl
@[simp] theorem State.setPec_out (s : State) (x : Byte) : (s.setPec x).out = s.out := rfl

/-! `setRxIndex` -/

@[simp] theorem State.setRxIndex_cfg (s : State) (x : Counter) : (s.setRxIndex x).cfg = s.cfg := rfl
@[simp] theorem State.setRxIndex_mode (s : State) (x : Counter) : (s.setRxIndex x).mode = s.mode := rfl
@[simp] theorem State.setRxIndex_errorLatched (s : State) (x : Counter) : (s.setRxIndex x).errorLatched = s.errorLatched := rfl
@[simp] theorem State.setRxIndex_pec (s : State) (x : Counter) : (s.setRxIndex x).pec = s.pec := rfl
@[simp] theorem State.setRxIndex_rxIndex (s : State) (x : Counter) : (s.setRxIndex x).rxIndex = x := rfl
@[simp] theorem State.setRxIndex_txIndex (s : State) (x : Counter) : (s.setRxIndex x).txIndex = s.txIndex := rfl
@[simp] theorem State.setRxIndex_activeDesc (s : State) (x : Counter) : (s.setRxIndex x).activeDesc = s.activeDesc := rfl
@[simp] theorem State.setRxIndex_activeCode (s : State) (x : Counter) : (s.setRxIndex x).activeCode = s.activeCode := rfl
@[simp] theorem State.setRxIndex_writeLength (s : State) (x : Counter) : (s.setRxIndex x).writeLength = s.writeLength := rfl
@[simp] theorem State.setRxIndex_scratch (s : State) (x : Counter) : (s.setRxIndex x).scratch = s.scratch := rfl
@[simp] theorem State.setRxIndex_newStatus (s : State) (x : Counter) : (s.setRxIndex x).newStatus = s.newStatus := rfl
@[simp] theorem State.setRxIndex_qRing (s : State) (x : Counter) : (s.setRxIndex x).qRing = s.qRing := rfl
@[simp] theorem State.setRxIndex_qHead (s : State) (x : Counter) : (s.setRxIndex x).qHead = s.qHead := rfl
@[simp] theorem State.setRxIndex_qTail (s : State) (x : Counter) : (s.setRxIndex x).qTail = s.qTail := rfl
@[simp] theorem State.setRxIndex_qFull (s : State) (x : Counter) : (s.setRxIndex x).qFull = s.qFull := rfl
@[simp] theorem State.setRxIndex_store (s : State) (x : Counter) : (s.setRxIndex x).store = s.store := rfl
@[simp] theorem State.setRxIndex_busActive (s : State) (x : Counter) : (s.setRxIndex x).busActive = s.busActive := rfl
@[simp] theorem State.setRxIndex_input (s : State) (x : Counter) : (s.setRxIndex x).input = s.input := rfl
@[simp] theorem State.setRxIndex_out (s : State) (x : Counter) : (s.setRxIndex x).out = s.out := rfl

/-! `setTxIndex` -/

@[simp] theorem State.setTxIndex_cfg (s : State) (x : Counter) : (s.setTxIndex x).cfg = s.cfg := rfl
@[simp] theorem State.setTxIndex_mode (s : State) (x : Counter) : (s.setTxIndex x).mode = s.mode := rfl
@[simp] theorem State.setTxIndex_errorLatched (s : State) (x : Counter) : (s.setTxIndex x).errorLatched = s.errorLatched := rfl
@[simp] theorem State.setTxIndex_pec (s : State) (x : Counter) : (s.setTxIndex x).pec = s.pec := rfl
@[simp] theorem State.setTxIndex_rxIndex (s : State) (x : Counter) : (s.setTxIndex x).rxIndex = s.rxIndex := rfl
@[simp] theorem State.setTxIndex_txIndex (s : State) (x : Counter) : (s.setTxIndex x).txIndex = x := rfl
@[simp] theorem State.setTxIndex_activeDesc (s : State) (x : Counter) : (s.setTxIndex x).activeDesc = s.activeDesc := rfl
@[simp] theorem State.setTxIndex_activeCode (s : State) (x : Counter) : (s.setTxIndex x).activeCode = s.activeCode := rfl
@[simp] theorem State.setTxIndex_writeLength (s : State) (x : Counter) : (s.setTxIndex x).writeLength = s.writeLength := rfl
@[simp] theorem State.setTxIndex_scratch (s : State) (x : Counter) : (s.setTxIndex x).scratch = s.scratch := rfl
@[simp] theorem State.setTxIndex_newStatus (s : State) (x : Counter) : (s.setTxIndex x).newStatus = s.newStatus := rfl
@[simp] theorem State.setTxIndex_qRing (s : State) (x : Counter) : (s.setTxIndex x).qRing = s.qRing := rfl
@[simp] theorem State.setTxIndex_qHead (s : State) (x : Counter) : (s.setTxIndex x).qHead = s.qHead := rfl
@[simp] theorem State.setTxIndex_qTail (s : State) (x : Counter) : (s.setTxIndex x).qTail = s.qTail := rfl
@[simp] theorem State.setTxIndex_qFull (s : State) (x : Counter) : (s.setTxIndex x).qFull = s.qFull := rfl
@[simp] theorem State.setTxIndex_store (s : State) (x : Counter) : (s.setTxIndex x).store = s.store := rfl
@[simp] theorem State.setTxIndex_busActive (s : State) (x : Counter) : (s.setTxIndex x).busActive = s.busActive := rfl
@[simp] theorem State.setTxIndex_input (s : State) (x : Counter) : (s.setTxIndex x).input = s.input := rfl
@[simp] theorem State.setTxIndex_out (s : State) (x : Counter) : (s.setTxIndex x).out = s.out := rfl

/-! `setActive` -/

@[simp] theorem State.setActive_cfg (s : State) (d : Option Descriptor) (c : Byte) : (s.setActive d c).cfg = s.cfg := rfl
@[simp] theorem State.setActive_mode (s : State) (d : Option Descriptor) (c : Byte) : (s.setActive d c).mode = s.mode := rfl
@[simp] theorem State.setActive_errorLatched (s : State) (d : Option Descriptor) (c : Byte) : (s.setActive d c).errorLatched = s.errorLatched := rfl
@[simp] theorem State.setActive_pec (s : State) (d : Option Descriptor) (c : Byte) : (s.setActive d c).pec = s.pec := rfl
@[simp] theorem State.setActive_rxIndex (s : State) (d : Option Descriptor) (c : Byte) : (s.setActive d c).rxIndex = s.rxIndex := rfl
@[simp] theorem State.setActive_txIndex (s : State) (d : Option Descriptor) (c : Byte) : (s.setActive d c).txIndex = s.txIndex := rfl
@[simp] theorem State.setActive_activeDesc (s : State) (d : Option Descriptor) (c : Byte) : (s.setActive d c).activeDesc = d := rfl
@[simp] theorem State.setActive_activeCode (s : State) (d : Option Descriptor) (c : Byte) : (s.setActive d c).activeCode = c := rfl
@[simp] theorem State.setActive_writeLength (s : State) (d : Option Descriptor) (c : Byte) : (s.setActive d c).writeLength = s.writeLength := rfl
@[simp] theorem State.setActive_scratch (s : State) (d : Option Descriptor) (c : Byte) : (s.setActive d c).scratch = s.scratch := rfl
@[simp] theorem State.setActive_newStatus (s : State) (d : Option Descriptor) (c : Byte) : (s.setActive d c).newStatus = s.newStatus := rfl
@[simp] theorem State.setActive_qRing (s : State) (d : Option Descriptor) (c : Byte) : (s.setActive d c).qRing = s.qRing := rfl
@[simp] theorem State.setActive_qHead (s : State) (d : Option Descriptor) (c : Byte) : (s.setActive d c).qHead = s.qHead := rfl
@[simp] theorem State.setActive_qTail (s : State) (d : Option Descriptor) (c : Byte) : (s.setActive d c).qTail = s.qTail := rfl
@[simp] theorem State.setActive_qFull (s : State) (d : Option Descriptor) (c : Byte) : (s.setActive d c).qFull = s.qFull := rfl
@[simp] theorem State.setActive_store (s : State) (d : Option Descriptor) (c : Byte) : (s.setActive d c).store = s.store := rfl
@[simp] theorem State.setActive_busActive (s : State) (d : Option Descriptor) (c : Byte) : (s.setActive d c).busActive = s.busActive := rfl
@[simp] theorem State.setActive_input (s : State) (d : Option Descriptor) (c : Byte) : (s.setActive d c).input = s.input := rfl
@[simp] theorem State.setActive_out (s : State) (d : Option Descriptor) (c : Byte) : (s.setActive d c).out = s.out := rfl

/-! `setWriteLength` -/

@[simp] theorem State.setWriteLength_cfg (s : State) (x : Length) : (s.setWriteLength x).cfg = s.cfg := rfl
@[simp] theorem State.setWriteLength_mode (s : State) (x : Length) : (s.setWriteLength x).mode = s.mode := rfl
@[simp] theorem State.setWriteLength_errorLatched (s : State) (x : Length) : (s.setWriteLength x).errorLatched = s.errorLatched := rfl
@[simp] theorem State.setWriteLength_pec (s : State) (x : Length) : (s.setWriteLength x).pec = s.pec := rfl
@[simp] theorem State.setWriteLength_rxIndex (s : State) (x : Length) : (s.setWriteLength x).rxIndex = s.rxIndex := rfl
@[simp] theorem State.setWriteLength_txIndex (s : State) (x : Length) : (s.setWriteLength x).txIndex = s.txIndex := rfl
@[simp] theorem State.setWriteLength_activeDesc (s : State) (x : Length) : (s.setWriteLength x).activeDesc = s.activeDesc := rfl
@[simp] theorem State.setWriteLength_activeCode (s : State) (x : Length) : (s.setWriteLength x).activeCode = s.activeCode := rfl
@[simp] theorem State.setWriteLength_writeLength (s : State) (x : Length) : (s.setWriteLength x).writeLength = x := rfl
@[simp] theorem State.setWriteLength_scratch (s : State) (x : Length) : (s.setWriteLength x).scratch = s.scratch := rfl
@[simp] theorem State.setWriteLength_newStatus (s : State) (x : Length) : (s.setWriteLength x).newStatus = s.newStatus := rfl
@[simp] theorem State.setWriteLength_qRing (s : State) (x : Length) : (s.setWriteLength x).qRing = s.qRing := rfl
@[simp] theorem State.setWriteLength_qHead (s : State) (x : Length) : (s.setWriteLength x).qHead = s.qHead := rfl
@[simp] theorem State.setWriteLength_qTail (s : State) (x : Length) : (s.setWriteLength x).qTail = s.qTail := rfl
@[simp] theorem State.setWriteLength_qFull (s : State) (x : Length) : (s.setWriteLength x).qFull = s.qFull := rfl
@[simp] theorem State.setWriteLength_store (s : State) (x : Length) : (s.setWriteLength x).store = s.store := rfl
@[simp] theorem State.setWriteLength_busActive (s : State) (x : Length) : (s.setWriteLength x).busActive = s.busActive := rfl
@[simp] theorem State.setWriteLength_input (s : State) (x : Length) : (s.setWriteLength x).input = s.input := rfl
@[simp] theorem State.setWriteLength_out (s : State) (x : Length) : (s.setWriteLength x).out = s.out := rfl

/-! `setScratch` -/

@[simp] theorem State.setScratch_cfg (s : State) (x : Memory) : (s.setScratch x).cfg = s.cfg := rfl
@[simp] theorem State.setScratch_mode (s : State) (x : Memory) : (s.setScratch x).mode = s.mode := rfl
@[simp] theorem State.setScratch_errorLatched (s : State) (x : Memory) : (s.setScratch x).errorLatched = s.errorLatched := rfl
@[simp] theorem State.setScratch_pec (s : State) (x : Memory) : (s.setScratch x).pec = s.pec := rfl
@[simp] theorem State.setScratch_rxIndex (s : State) (x : Memory) : (s.setScratch x).rxIndex = s.rxIndex := rfl
@[simp] theorem State.setScratch_txIndex (s : State) (x : Memory) : (s.setScratch x).txIndex = s.txIndex := rfl
@[simp] theorem State.setScratch_activeDesc (s : State) (x : Memory) : (s.setScratch x).activeDesc = s.activeDesc := rfl
@[simp] theorem State.setScratch_activeCode (s : State) (x : Memory) : (s.setScratch x).activeCode = s.activeCode := rfl
@[simp] theorem State.setScratch_writeLength (s : State) (x : Memory) : (s.setScratch x).writeLength = s.writeLength := rfl
@[simp] theorem State.setScratch_scratch (s : State) (x : Memory) : (s.setScratch x).scratch = x := rfl
@[simp] theorem State.setScratch_newStatus (s : State) (x : Memory) : (s.setScratch x).newStatus = s.newStatus := rfl
@[simp] theorem State.setScratch_qRing (s : State) (x : Memory) : (s.setScratch x).qRing = s.qRing := rfl
@[simp] theorem State.setScratch_qHead (s : State) (x : Memory) : (s.setScratch x).qHead = s.qHead := rfl
@[simp] theorem State.setScratch_qTail (s : State) (x : Memory) : (s.setScratch x).qTail = s.qTail := rfl
@[simp] theorem State.setScratch_qFull (s : State) (x : Memory) : (s.setScratch x).qFull = s.qFull := rfl
@[simp] theorem State.setScratch_store (s : State) (x : Memory) : (s.setScratch x).store = s.store := rfl
@[simp] theorem State.setScratch_busActive (s : State) (x : Memory) : (s.setScratch x).busActive = s.busActive := rfl
@[simp] theorem State.setScratch_input (s : State) (x : Memory) : (s.setScratch x).input = s.input := rfl
@[simp] theorem State.setScratch_out (s : State) (x : Memory) : (s.setScratch x).out = s.out := rfl

/-! `setNewStatus` -/

@[simp] theorem State.setNewStatus_cfg (s : State) (x : Byte) : (s.setNewStatus x).cfg = s.cfg := rfl
@[simp] theorem State.setNewStatus_mode (s : State) (x : Byte) : (s.setNewStatus x).mode = s.mode := rfl
@[simp] theorem State.setNewStatus_errorLatched (s : State) (x : Byte) : (s.setNewStatus x).errorLatched = s.errorLatched := rfl
@[simp] theorem State.setNewStatus_pec (s : State) (x : Byte) : (s.setNewStatus x).pec = s.pec := rfl
@[simp] theorem State.setNewStatus_rxIndex (s : State) (x : Byte) : (s.setNewStatus x).rxIndex = s.rxIndex := rfl
@[simp] theorem State.setNewStatus_txIndex (s : State) (x : Byte) : (s.setNewStatus x).txIndex = s.txIndex := rfl
@[simp] theorem State.setNewStatus_activeDesc (s : State) (x : Byte) : (s.setNewStatus x).activeDesc = s.activeDesc := rfl
@[simp] theorem State.setNewStatus_activeCode (s : State) (x : Byte) : (s.setNewStatus x).activeCode = s.activeCode := rfl
@[simp] theorem State.setNewStatus_writeLength (s : State) (x : Byte) : (s.setNewStatus x).writeLength = s.writeLength := rfl
@[simp] theorem State.setNewStatus_scratch (s : State) (x : Byte) : (s.setNewStatus x).scratch = s.scratch := rfl
@[simp] theorem State.setNewStatus_newStatus (s : State) (x : Byte) : (s.setNewStatus x).newStatus = x := rfl
@[simp] theorem State.setNewStatus_qRing (s : State) (x : Byte) : (s.setNewStatus x).qRing = s.qRing := rfl
@[simp] theorem State.setNewStatus_qHead (s : State) (x : Byte) : (s.setNewStatus x).qHead = s.qHead := rfl
@[simp] theorem State.setNewStatus_qTail (s : State) (x : Byte) : (s.setNewStatus x).qTail = s.qTail := rfl
@[simp] theorem State.setNewStatus_qFull (s : State) (x : Byte) : (s.setNewStatus x).qFull = s.qFull := rfl
@[simp] theorem State.setNewStatus_store (s : State) (x : Byte) : (s.setNewStatus x).store = s.store := rfl
@[simp] theorem State.setNewStatus_busActive (s : State) (x : Byte) : (s.setNewStatus x).busActive = s.busActive := rfl
@[simp] theorem State.setNewStatus_input (s : State) (x : Byte) : (s.setNewStatus x).input = s.input := rfl
@[simp] theorem State.setNewStatus_out (s : State) (x : Byte) : (s.setNewStatus x).out = s.out := rfl

/-! `setPushed` -/

@[simp] theorem State.setPushed_cfg (s : State) (ring : List QEntry) (tail : Nat) (full : Bool) : (s.setPushed ring tail full).cfg = s.cfg := rfl
@[simp] theorem State.setPushed_mode (s : State) (ring : List QEntry) (tail : Nat) (full : Bool) : (s.setPushed ring tail full).mode = s.mode := rfl
@[simp] theorem State.setPushed_errorLatched (s : State) (ring : List QEntry) (tail : Nat) (full : Bool) : (s.setPushed ring tail full).errorLatched = s.errorLatched := rfl
@[simp] theorem State.setPushed_pec (s : State) (ring : List QEntry) (tail : Nat) (full : Bool) : (s.setPushed ring tail full).pec = s.pec := rfl
@[simp] theorem State.setPushed_rxIndex (s : State) (ring : List QEntry) (tail : Nat) (full : Bool) : (s.setPushed ring tail full).rxIndex = s.rxIndex := rfl
@[simp] theorem State.setPushed_txIndex (s : State) (ring : List QEntry) (tail : Nat) (full : Bool) : (s.setPushed ring tail full).txIndex = s.txIndex := rfl
@[simp] theorem State.setPushed_activeDesc (s : State) (ring : List QEntry) (tail : Nat) (full : Bool) : (s.setPushed ring tail full).activeDesc = s.activeDesc := rfl
@[simp] theorem State.setPushed_activeCode (s : State) (ring : List QEntry) (tail : Nat) (full : Bool) : (s.setPushed ring tail full).activeCode = s.activeCode := rfl
@[simp] theorem State.setPushed_writeLength (s : State) (ring : List QEntry) (tail : Nat) (full : Bool) : (s.setPushed ring tail full).writeLength = s.writeLength := rfl
@[simp] theorem State.setPushed_scratch (s : State) (ring : List QEntry) (tail : Nat) (full : Bool) : (s.setPushed ring tail full).scratch = s.scratch := rfl
@[simp] theorem State.setPushed_newStatus (s : State) (ring : List QEntry) (tail : Nat) (full : Bool) : (s.setPushed ring tail full).newStatus = s.newStatus := rfl
@[simp] theorem State.setPushed_qRing (s : State) (ring : List QEntry) (tail : Nat) (full : Bool) : (s.setPushed ring tail full).qRing = ring := rfl
@[simp] theorem State.setPushed_qHead (s : State) (ring : List QEntry) (tail : Nat) (full : Bool) : (s.setPushed ring tail full).qHead = s.qHead := rfl
@[simp] theorem State.setPushed_qTail (s : State) (ring : List QEntry) (tail : Nat) (full : Bool) : (s.setPushed ring tail full).qTail = tail := rfl
@[simp] theorem State.setPushed_qFull (s : State) (ring : List QEntry) (tail : Nat) (full : Bool) : (s.setPushed ring tail full).qFull = full := rfl
@[simp] theorem State.setPushed_store (s : State) (ring : List QEntry) (tail : Nat) (full : Bool) : (s.setPushed ring tail full).store = s.store := rfl
@[simp] theorem State.setPushed_busActive (s : State) (ring : List QEntry) (tail : Nat) (full : Bool) : (s.setPushed ring tail full).busActive = s.busActive := rfl
@[simp] theorem State.setPushed_input (s : State) (ring : List QEntry) (tail : Nat) (full : Bool) : (s.setPushed ring tail full).input = s.input := rfl
@[simp] theorem State.setPushed_out (s : State) (ring : List QEntry) (tail : Nat) (full : Bool) : (s.setPushed ring tail full).out = s.out := rfl

/-! `setPopped` -/

@[simp] theorem State.setPopped_cfg (s : State) (head : Nat) (full : Bool) : (s.setPopped head full).cfg = s.cfg := rfl
@[simp] theorem State.setPopped_mode (s : State) (head : Nat) (full : Bool) : (s.setPopped head full).mode = s.mode := rfl
@[simp] theorem State.setPopped_errorLatched (s : State) (head : Nat) (full : Bool) : (s.setPopped head full).errorLatched = s.errorLatched := rfl
@[simp] theorem State.setPopped_pec (s : State) (head : Nat) (full : Bool) : (s.setPopped head full).pec = s.pec := rfl
@[simp] theorem State.setPopped_rxIndex (s : State) (head : Nat) (full : Bool) : (s.setPopped head full).rxIndex = s.rxIndex := rfl
@[simp] theorem State.setPopped_txIndex (s : State) (head : Nat) (full : Bool) : (s.setPopped head full).txIndex = s.txIndex := rfl
@[simp] theorem State.setPopped_activeDesc (s : State) (head : Nat) (full : Bool) : (s.setPopped head full).activeDesc = s.activeDesc := rfl
@[simp] theorem State.setPopped_activeCode (s : State) (head : Nat) (full : Bool) : (s.setPopped head full).activeCode = s.activeCode := rfl
@[simp] theorem State.setPopped_writeLength (s : State) (head : Nat) (full : Bool) : (s.setPopped head full).writeLength = s.writeLength := rfl
@[simp] theorem State.setPopped_scratch (s : State) (head : Nat) (full : Bool) : (s.setPopped head full).scratch = s.scratch := rfl
@[simp] theorem State.setPopped_newStatus (s : State) (head : Nat) (full : Bool) : (s.setPopped head full).newStatus = s.newStatus := rfl
@[simp] theorem State.setPopped_qRing (s : State) (head : Nat) (full : Bool) : (s.setPopped head full).qRing = s.qRing := rfl
@[simp] theorem State.setPopped_qHead (s : State) (head : Nat) (full : Bool) : (s.setPopped head full).qHead = head := rfl
@[simp] theorem State.setPopped_qTail (s : State) (head : Nat) (full : Bool) : (s.setPopped head full).qTail = s.qTail := rfl
@[simp] theorem State.setPopped_qFull (s : State) (head : Nat) (full : Bool) : (s.setPopped head full).qFull = full := rfl
@[simp] theorem State.setPopped_store (s : State) (head : Nat) (full : Bool) : (s.setPopped head full).store = s.store := rfl
@[simp] theorem State.setPopped_busActive (s : State) (head : Nat) (full : Bool) : (s.setPopped head full).busActive = s.busActive := rfl
@[simp] theorem State.setPopped_input (s : State) (head : Nat) (full : Bool) : (s.setPopped head full).input = s.input := rfl
@[simp] theorem State.setPopped_out (s : State) (head : Nat) (full : Bool) : (s.setPopped head full).out = s.out := rfl

/-! `setStore` -/

@[simp] theorem State.setStore_cfg (s : State) (x : Memory) : (s.setStore x).cfg = s.cfg := rfl
@[simp] theorem State.setStore_mode (s : State) (x : Memory) : (s.setStore x).mode = s.mode := rfl
@[simp] theorem State.setStore_errorLatched (s : State) (x : Memory) : (s.setStore x).errorLatched = s.errorLatched := rfl
@[simp] theorem State.setStore_pec (s : State) (x : Memory) : (s.setStore x).pec = s.pec := rfl
@[simp] theorem State.setStore_rxIndex (s : State) (x : Memory) : (s.setStore x).rxIndex = s.rxIndex := rfl
@[simp] theorem State.setStore_txIndex (s : State) (x : Memory) : (s.setStore x).txIndex = s.txIndex := rfl
@[simp] theorem State.setStore_activeDesc (s : State) (x : Memory) : (s.setStore x).activeDesc = s.activeDesc := rfl
@[simp] theorem State.setStore_activeCode (s : State) (x : Memory) : (s.setStore x).activeCode = s.activeCode := rfl
@[simp] theorem State.setStore_writeLength (s : State) (x : Memory) : (s.setStore x).writeLength = s.writeLength := rfl
@[simp] theorem State.setStore_scratch (s : State) (x : Memory) : (s.setStore x).scratch = s.scratch := rfl
@[simp] theorem State.setStore_newStatus (s : State) (x : Memory) : (s.setStore x).newStatus = s.newStatus := rfl
@[simp] theorem State.setStore_qRing (s : State) (x : Memory) : (s.setStore x).qRing = s.qRing := rfl
@[simp] theorem State.setStore_qHead (s : State) (x : Memory) : (s.setStore x).qHead = s.qHead := rfl
@[simp] theorem State.setStore_qTail (s : State) (x : Memory) : (s.setStore x).qTail = s.qTail := rfl
@[simp] theorem State.setStore_qFull (s : State) (x : Memory) : (s.setStore x).qFull = s.qFull := rfl
@[simp] theorem State.setStore_store (s : State) (x : Memory) : (s.setStore x).store = x := rfl
@[simp] theorem State.setStore_busActive (s : State) (x : Memory) : (s.setStore x).busActive = s.busActive := rfl
@[simp] theorem State.setStore_input (s : State) (x : Memory) : (s.setStore x).input = s.input := rfl
@[simp] theorem State.setStore_out (s : State) (x : Memory) : (s.setStore x).out = s.out := rfl

/-! `setBusActive` -/

@[simp] theorem State.setBusActive_cfg (s : State) (x : Bool) : (s.setBusActive x).cfg = s.cfg := rfl
@[simp] theorem State.setBusActive_mode (s : State) (x : Bool) : (s.setBusActive x).mode = s.mode := rfl
@[simp] theorem State.setBusActive_errorLatched (s : State) (x : Bool) : (s.setBusActive x).errorLatched = s.errorLatched := rfl
@[simp] theorem State.setBusActive_pec (s : State) (x : Bool) : (s.setBusActive x).pec = s.pec := rfl
@[simp] theorem State.setBusActive_rxIndex (s : State) (x : Bool) : (s.setBusActive x).rxIndex = s.rxIndex := rfl
@[simp] theorem State.setBusActive_txIndex (s : State) (x : Bool) : (s.setBusActive x).txIndex = s.txIndex := rfl
@[simp] theorem State.setBusActive_activeDesc (s : State) (x : Bool) : (s.setBusActive x).activeDesc = s.activeDesc := rfl
@[simp] theorem State.setBusActive_activeCode (s : State) (x : Bool) : (s.setBusActive x).activeCode = s.activeCode := rfl
@[simp] theorem State.setBusActive_writeLength (s : State) (x : Bool) : (s.setBusActive x).writeLength = s.writeLength := rfl
@[simp] theorem State.setBusActive_scratch (s : State) (x : Bool) : (s.setBusActive x).scratch = s.scratch := rfl
@[simp] theorem State.setBusActive_newStatus (s : State) (x : Bool) : (s.setBusActive x).newStatus = s.newStatus := rfl
@[simp] theorem State.setBusActive_qRing (s : State) (x : Bool) : (s.setBusActive x).qRing = s.qRing := rfl
@[simp] theorem State.setBusActive_qHead (s : State) (x : Bool) : (s.setBusActive x).qHead = s.qHead := rfl
@[simp] theorem State.setBusActive_qTail (s : State) (x : Bool) : (s.setBusActive x).qTail = s.qTail := rfl
@[simp] theorem State.setBusActive_qFull (s : State) (x : Bool) : (s.setBusActive x).qFull = s.qFull := rfl
@[simp] theorem State.setBusActive_store (s : State) (x : Bool) : (s.setBusActive x).store = s.store := rfl
@[simp] theorem State.setBusActive_busActive (s : State) (x : Bool) : (s.setBusActive x).busActive = x := rfl
@[simp] theorem State.setBusActive_input (s : State) (x : Bool) : (s.setBusActive x).input = s.input := rfl
@[simp] theorem State.setBusActive_out (s : State) (x : Bool) : (s.setBusActive x).out = s.out := rfl

/-! `setInput` -/

@[simp] theorem State.setInput_cfg (s : State) (x : List Request) : (s.setInput x).cfg = s.cfg := rfl
@[simp] theorem State.setInput_mode (s : State) (x : List Request) : (s.setInput x).mode = s.mode := rfl
@[simp] theorem State.setInput_errorLatched (s : State) (x : List Request) : (s.setInput x).errorLatched = s.errorLatched := rfl
@[simp] theorem State.setInput_pec (s : State) (x : List Request) : (s.setInput x).pec = s.pec := rfl
@[simp] theorem State.setInput_rxIndex (s : State) (x : List Request) : (s.setInput x).rxIndex = s.rxIndex := rfl
@[simp] theorem State.setInput_txIndex (s : State) (x : List Request) : (s.setInput x).txIndex = s.txIndex := rfl
@[simp] theorem State.setInput_activeDesc (s : State) (x : List Request) : (s.setInput x).activeDesc = s.activeDesc := rfl
@[simp] theorem State.setInput_activeCode (s : State) (x : List Request) : (s.setInput x).activeCode = s.activeCode := rfl
@[simp] theorem State.setInput_writeLength (s : State) (x : List Request) : (s.setInput x).writeLength = s.writeLength := rfl
@[simp] theorem State.setInput_scratch (s : State) (x : List Request) : (s.setInput x).scratch = s.scratch := rfl
@[simp] theorem State.setInput_newStatus (s : State) (x : List Request) : (s.setInput x).newStatus = s.newStatus := rfl
@[simp] theorem State.setInput_qRing (s : State) (x : List Request) : (s.setInput x).qRing = s.qRing := rfl
@[simp] theorem State.setInput_qHead (s : State) (x : List Request) : (s.setInput x).qHead = s.qHead := rfl
@[simp] theorem State.setInput_qTail (s : State) (x : List Request) : (s.setInput x).qTail = s.qTail := rfl
@[simp] theorem State.setInput_qFull (s : State) (x : List Request) : (s.setInput x).qFull = s.qFull := rfl
@[simp] theorem State.setInput_store (s : State) (x : List Request) : (s.setInput x).store = s.store := rfl
@[simp] theorem State.setInput_busActive (s : State) (x : List Request) : (s.setInput x).busActive = s.busActive := rfl
@[simp] theorem State.setInput_input (s : State) (x : List Request) : (s.setInput x).input = x := rfl
@[simp] theorem State.setInput_out (s : State) (x : List Request) : (s.setInput x).out = s.out := rfl

/-! `setOut` -/

@[simp] theorem State.setOut_cfg (s : State) (x : Output) : (s.setOut x).cfg = s.cfg := rfl
@[simp] theorem State.setOut_mode (s : State) (x : Output) : (s.setOut x).mode = s.mode := rfl
@[simp] theorem State.setOut_errorLatched (s : State) (x : Output) : (s.setOut x).errorLatched = s.errorLatched := rfl
@[simp] theorem State.setOut_pec (s : State) (x : Output) : (s.setOut x).pec = s.pec := rfl
@[simp] theorem State.setOut_rxIndex (s : State) (x : Output) : (s.setOut x).rxIndex = s.rxIndex := rfl
@[simp] theorem State.setOut_txIndex (s : State) (x : Output) : (s.setOut x).txIndex = s.txIndex := rfl
@[simp] theorem State.setOut_activeDesc (s : State) (x : Output) : (s.setOut x).activeDesc = s.activeDesc := rfl
@[simp] theorem State.setOut_activeCode (s : State) (x : Output) : (s.setOut x).activeCode = s.activeCode := rfl
@[simp] theorem State.setOut_writeLength (s : State) (x : Output) : (s.setOut x).writeLength = s.writeLength := rfl
@[simp] theorem State.setOut_scratch (s : State) (x : Output) : (s.setOut x).scratch = s.scratch := rfl
@[simp] theorem State.setOut_newStatus (s : State) (x : Output) : (s.setOut x).newStatus = s.newStatus := rfl
@[simp] theorem State.setOut_qRing (s : State) (x : Output) : (s.setOut x).qRing = s.qRing := rfl
@[simp] theorem State.setOut_qHead (s : State) (x : Output) : (s.setOut x).qHead = s.qHead := rfl
@[simp] theorem State.setOut_qTail (s : State) (x : Output) : (s.setOut x).qTail = s.qTail := rfl
@[simp] theorem State.setOut_qFull (s : State) (x : Output) : (s.setOut x).qFull = s.qFull := rfl
@[simp] theorem State.setOut_store (s : State) (x : Output) : (s.setOut x).store = s.store := rfl
@[simp] theorem State.setOut_busActive (s : State) (x : Output) : (s.setOut x).busActive = s.busActive := rfl
@[simp] theorem State.setOut_input (s : State) (x : Output) : (s.setOut x).input = s.input := rfl
@[simp] theorem State.setOut_out (s : State) (x : Output) : (s.setOut x).out = x := rfl

end Sys2Proof.Machine
end

