-- ==== Sys2Proof/Laws/Ops.lean ====
section
/-!
SUPPORT. One lemma for each shared operation of Machine/Ops.lean that says what it can do: when it succeeds, what it
leaves, and that nothing else changes.
-/

namespace Sys2Proof.Machine

/-! ### Computations that can stop -/

/-- A sequence of two computations succeeds exactly when both do. -/
theorem bind_eq_ok {α β : Type} {x : Except Stop α} {f : α → Except Stop β} {b : β} :
    (x >>= f) = .ok b ↔ ∃ a, x = .ok a ∧ f a = .ok b := by
  cases x <;> simp [bind, Except.bind]

/-- A result that is given outright. -/
theorem ok_eq_ok {α : Type} {a b : α} : (Except.ok a : Except Stop α) = .ok b ↔ b = a := by
  simp only [Except.ok.injEq]; exact eq_comm

@[simp] theorem ok_bind {α β : Type} (a : α) (f : α → Except Stop β) : (Except.ok a >>= f) = f a := rfl

@[simp] theorem error_bind {α β : Type} (e : Stop) (f : α → Except Stop β) :
    ((Except.error e : Except Stop α) >>= f) = .error e := rfl

@[simp] theorem toOutcome_ok (s : State) : toOutcome (.ok s) = .next s := rfl

theorem toOutcome_eq_next {x : Except Stop State} {t : State} : toOutcome x = .next t ↔ x = .ok t := by
  rcases x with (_ | _) | _ <;> simp [toOutcome]

/-! ### Backing storage -/

theorem storeValid_lt {c : Config} {a : Nat} (h : storeValid c a = true) : a < storageSize := by
  simp only [storeValid, Bool.and_eq_true, decide_eq_true_eq] at h; exact h.1

theorem storeRead_eq_ok {s : State} {a : Nat} {b : Byte} :
    storeRead s a = .ok b ↔ storeValid s.cfg a = true ∧ b = Memory.read s.store a := by
  unfold storeRead
  split
  · rename_i h; simp only [h, true_and, Except.ok.injEq]; exact eq_comm
  · rename_i h; simp [h]

theorem storeWrite_eq_ok {s t : State} {a : Nat} {v : Byte} :
    storeWrite s a v = .ok t ↔ storeValid s.cfg a = true ∧ t = s.setStore (Memory.write s.store a v) := by
  unfold storeWrite
  split
  · rename_i h; simp only [h, true_and, Except.ok.injEq]; exact eq_comm
  · rename_i h; simp [h]

@[simp] theorem setStore_setStore (s : State) (m n : Memory) : (s.setStore m).setStore n = s.setStore n := rfl

@[simp] theorem setStore_self (s : State) : s.setStore s.store = s := rfl

/-- Backing storage after writes in order. -/
def applyWrites (ws : List Host.Cell) (m : Memory) : Memory :=
  ws.foldl (fun m w => Memory.write m w.1 w.2) m

/-- Backing storage after merges in order. -/
def applyOrs (ws : List Host.Cell) (m : Memory) : Memory :=
  ws.foldl (fun m w => Memory.write m w.1 (Memory.read m w.1 ||| w.2)) m

/-- `storeWriteAll` succeeds exactly when every address is allocated, and then changes only backing storage. -/
theorem storeWriteAll_eq_ok {ws : List Host.Cell} {s t : State} :
    storeWriteAll ws s = .ok t ↔
      (∀ w ∈ ws, storeValid s.cfg w.1 = true) ∧ t = s.setStore (applyWrites ws s.store) := by
  induction ws generalizing s with
  | nil => simp only [storeWriteAll, applyWrites, Except.ok.injEq, List.foldl_nil, List.not_mem_nil, false_imp_iff,
      implies_true, true_and, setStore_self]; exact eq_comm
  | cons w ws ih =>
    obtain ⟨a, v⟩ := w
    simp only [storeWriteAll, bind_eq_ok, storeWrite_eq_ok, ih, applyWrites, List.foldl_cons,
      List.forall_mem_cons]
    constructor
    · rintro ⟨s', ⟨hv, rfl⟩, h, rfl⟩; exact ⟨⟨hv, h⟩, rfl⟩
    · rintro ⟨⟨hv, h⟩, rfl⟩; exact ⟨_, ⟨hv, rfl⟩, h, rfl⟩

/-- `storeOrAll` succeeds exactly when every address is allocated, and then changes only backing storage. -/
theorem storeOrAll_eq_ok {ws : List Host.Cell} {s t : State} :
    storeOrAll ws s = .ok t ↔
      (∀ w ∈ ws, storeValid s.cfg w.1 = true) ∧ t = s.setStore (applyOrs ws s.store) := by
  induction ws generalizing s with
  | nil => simp only [storeOrAll, applyOrs, Except.ok.injEq, List.foldl_nil, List.not_mem_nil, false_imp_iff,
      implies_true, true_and, setStore_self]; exact eq_comm
  | cons w ws ih =>
    obtain ⟨a, v⟩ := w
    simp only [storeOrAll, bind_eq_ok, storeRead_eq_ok, storeWrite_eq_ok, ih, applyOrs, List.foldl_cons,
      List.forall_mem_cons]
    constructor
    · rintro ⟨b, ⟨hv, rfl⟩, s', ⟨_, rfl⟩, h, rfl⟩; exact ⟨⟨hv, h⟩, rfl⟩
    · rintro ⟨⟨hv, h⟩, rfl⟩; exact ⟨_, ⟨hv, rfl⟩, _, ⟨hv, rfl⟩, h, rfl⟩

theorem wf_applyWrites {ws : List Host.Cell} {m : Memory} (h : Memory.wf m = true)
    (hw : ∀ w ∈ ws, w.1 < storageSize) : Memory.wf (applyWrites ws m) = true := by
  induction ws generalizing m with
  | nil => exact h
  | cons w ws ih =>
    exact ih (Memory.wf_write _ h (hw w List.mem_cons_self)) fun x hx => hw x (List.mem_cons_of_mem _ hx)

theorem wf_applyOrs {ws : List Host.Cell} {m : Memory} (h : Memory.wf m = true)
    (hw : ∀ w ∈ ws, w.1 < storageSize) : Memory.wf (applyOrs ws m) = true := by
  induction ws generalizing m with
  | nil => exact h
  | cons w ws ih =>
    exact ih (Memory.wf_write _ h (hw w List.mem_cons_self)) fun x hx => hw x (List.mem_cons_of_mem _ hx)

/-- An address that is written nowhere reads as before. -/
theorem read_applyWrites_other {ws : List Host.Cell} {m : Memory} {a : Nat} (h : ∀ w ∈ ws, w.1 ≠ a) :
    Memory.read (applyWrites ws m) a = Memory.read m a := by
  induction ws generalizing m with
  | nil => rfl
  | cons w ws ih =>
    refine (ih fun x hx => h x (List.mem_cons_of_mem _ hx)).trans ?_
    exact Memory.read_write_other _ _ (h w List.mem_cons_self)

/-- Writes to different addresses are all there afterwards. -/
theorem read_applyWrites_mem {ws : List Host.Cell} {m : Memory} (hd : (ws.map (·.1)).Nodup) {a : Nat} {v : Byte}
    (h : (a, v) ∈ ws) : Memory.read (applyWrites ws m) a = v := by
  induction ws generalizing m with
  | nil => simp at h
  | cons w ws ih =>
    obtain ⟨hw, hd⟩ := List.nodup_cons.1 hd
    rcases List.mem_cons.1 h with rfl | h
    · have hother : ∀ x ∈ ws, x.1 ≠ a := fun x hx he => hw (List.mem_map.2 ⟨x, hx, he⟩)
      exact (read_applyWrites_other (m := Memory.write m a v) hother).trans (Memory.read_write_same _ _ _)
    · exact ih hd h

/-- The bits that merges in order OR into the byte at `a`. -/
def orBits : List Host.Cell → Nat → Byte
  | [], _ => 0
  | w :: ws, a => (if w.1 = a then w.2 else 0) ||| orBits ws a

theorem read_applyOrs (ws : List Host.Cell) (m : Memory) (a : Nat) :
    Memory.read (applyOrs ws m) a = Memory.read m a ||| orBits ws a := by
  induction ws generalizing m with
  | nil => simp [applyOrs, orBits]
  | cons w ws ih =>
    refine (ih _).trans ?_
    rw [Memory.read_write, orBits]
    split
    · rename_i h; subst h; rw [BitVec.or_assoc]
    · simp

/-! ### Scratch buffer and counters -/

theorem scratchRead_eq_ok {s : State} {j : Nat} {b : Byte} :
    scratchRead s j = .ok b ↔ Memory.get s.scratch j = some b := by
  unfold scratchRead; split <;> simp_all

theorem scratchWrite_eq_ok {s t : State} {j : Nat} {b : Byte} :
    scratchWrite s j b = .ok t ↔ j < scratchSize ∧ t = s.setScratch (Memory.set s.scratch j b) := by
  unfold scratchWrite
  split
  · rename_i h; simp only [h, true_and, Except.ok.injEq]; exact eq_comm
  · rename_i h; simp [h]

/-- `scratchBytes` succeeds exactly with the bytes staged at offsets `0..n-1`. -/
theorem scratchBytes_eq_ok {s : State} {n : Nat} {bs : List Byte} :
    scratchBytes s n = .ok bs ↔ bs.length = n ∧ ∀ j (h : j < bs.length), Memory.get s.scratch j = some bs[j] := by
  induction n generalizing bs with
  | zero =>
    simp only [scratchBytes, Except.ok.injEq]
    constructor
    · rintro rfl; simp
    · rintro ⟨h, -⟩; exact (List.eq_nil_of_length_eq_zero h).symm
  | succ n ih =>
    simp only [scratchBytes, bind_eq_ok, ih, scratchRead_eq_ok, Except.ok.injEq]
    constructor
    · rintro ⟨cs, ⟨hl, hc⟩, b, hb, rfl⟩
      refine ⟨by simp [hl], fun j hj => ?_⟩
      rw [List.getElem_append]
      split
      · exact hc j (by assumption)
      · have : j = n := by simp at hj; omega
        subst this; simpa [hl] using hb
    · rintro ⟨hl, hc⟩
      refine ⟨bs.take n, ⟨by simp [hl], fun j hj => ?_⟩, bs[n], hc n (by omega), ?_⟩
      · simp only [List.length_take] at hj
        rw [List.getElem_take]; exact hc j (by omega)
      · rw [List.take_append_getElem, List.take_of_length_le (by omega)]

/-- Reading staged offsets succeeds. -/
theorem scratchBytes_total {s : State} {n : Nat} (h : ∀ j, j < n → ∃ b, Memory.get s.scratch j = some b) :
    ∃ bs, scratchBytes s n = .ok bs := by
  induction n with
  | zero => exact ⟨[], rfl⟩
  | succ n ih =>
    obtain ⟨bs, hbs⟩ := ih fun j hj => h j (by omega)
    obtain ⟨b, hb⟩ := h n (by omega)
    exact ⟨bs ++ [b], by simp [scratchBytes, hbs, scratchRead_eq_ok.2 hb]⟩

/-- `sat_inc` counts up to 65535 and stays there. -/
theorem satInc_toNat (x : Counter) : (satInc x).toNat = min (x.toNat + 1) 65535 := by
  unfold satInc
  split
  · rename_i h; subst h; rfl
  · rename_i h
    have : x.toNat ≠ 65535 := fun he => h (BitVec.eq_of_toNat_eq (by simpa using he))
    rw [BitVec.toNat_add]; have := x.isLt; simp; omega

/-! ### The response and the latch -/

@[simp] theorem respond_eq (action : Action) (b : Byte) (s : State) :
    respond action b s = s.setOut (.response { action := action, txdata := b }) := rfl

theorem latch_of_latched {s : State} (status : Byte) (h : s.errorLatched = true) : latch status s = s := by
  simp [latch, h]

theorem latch_of_clear {s : State} (status : Byte) (h : s.errorLatched = false) :
    latch status s = (s.setNewStatus (s.newStatus ||| status)).setErrorLatched true := by
  simp [latch, h]

/-- After `Latch` an error is latched. -/
@[simp] theorem latch_errorLatched (status : Byte) (s : State) : (latch status s).errorLatched = true := by
  unfold latch; split <;> simp_all

/-- `Latch` writes the error flag and `newStatus` only. -/
theorem latch_frame (status : Byte) (s : State) :
    latch status s =
      (s.setNewStatus (latch status s).newStatus).setErrorLatched (latch status s).errorLatched := by
  unfold latch; split <;> rfl

/-! ### The post-event merge -/

theorem orBits_append (ws vs : List Host.Cell) (a : Nat) :
    orBits (ws ++ vs) a = orBits ws a ||| orBits vs a := by
  induction ws with
  | nil => simp [orBits]
  | cons w ws ih => simp [orBits, ih, BitVec.or_assoc]

theorem orBits_statusMerges (c : Config) (n a : Nat) :
    orBits (statusMerges c n) a =
      if (List.range n).any (fun p => decide (a = statusLowAddress c p)) then 0x02 else 0 := by
  induction n with
  | zero => simp [statusMerges, orBits]
  | succ n ih =>
    rw [statusMerges, orBits_append, ih, List.range_succ, List.any_append]
    have hlow : stWordCmlLow = 0x02 := rfl
    have hhigh : stWordCmlHigh = 0x00 := rfl
    simp only [orBits, hlow, hhigh, List.any_cons, List.any_nil, Bool.or_false, eq_comm (a := a)]
    cases (List.range n).any fun p => decide (statusLowAddress c p = a) <;>
      by_cases h : statusLowAddress c n = a <;> simp [h]

/-- What the merges of R206 OR into each byte. -/
theorem orBits_eventMerges (c : Config) (status : Byte) (a : Nat) :
    orBits (eventMerges c status) a = mergeBits c status a := by
  unfold eventMerges mergeBits cmlAddress
  cases c.statusWordEnable <;> simp [orBits, orBits_statusMerges, eq_comm (a := a)]

/-- The post-event merge succeeds exactly when nothing was latched or all its addresses are allocated, and then
changes only backing storage. -/
theorem postEventMerge_eq_ok {s t : State} :
    postEventMerge s = .ok t ↔
      (s.newStatus = 0 ∧ t = s) ∨
      (s.newStatus ≠ 0 ∧ (∀ w ∈ eventMerges s.cfg s.newStatus, storeValid s.cfg w.1 = true) ∧
        t = s.setStore (applyOrs (eventMerges s.cfg s.newStatus) s.store)) := by
  unfold postEventMerge
  split
  · rename_i h
    simp only [h, true_and, ne_eq, not_true_eq_false, false_and, or_false, Except.ok.injEq]; exact eq_comm
  · rename_i h
    simp only [h, ne_eq, not_false_eq_true, true_and, false_and, false_or, storeOrAll_eq_ok]

/-- An event that latched nothing merges nothing. -/
theorem postEventMerge_of_quiet {s : State} (h : s.newStatus = 0) : postEventMerge s = .ok s := if_pos h

/-- After a merge every byte is as before but for the bits of `mergeBits`. -/
theorem read_merged (c : Config) (status : Byte) (m : Memory) (a : Nat) :
    Memory.read (applyOrs (eventMerges c status) m) a = Memory.read m a ||| mergeBits c status a := by
  rw [read_applyOrs, orBits_eventMerges]

/-! ### The dispatcher step -/

/-- A dispatcher step answers a next state exactly when its rule, or the catch-all where the event is not enabled, and
the merge succeed. -/
theorem dispatcherStep_eq_next {en : Bool} {rule : State → Except Stop State} {s t : State} :
    dispatcherStep en rule s = .next t ↔
      ∃ u, runEnabled en rule (s.setNewStatus 0) = .ok u ∧ postEventMerge u = .ok t := by
  unfold dispatcherStep
  rw [toOutcome_eq_next, bind_eq_ok]

@[simp] theorem runEnabled_true (rule : State → Except Stop State) (s : State) : runEnabled true rule s = rule s :=
  rfl

@[simp] theorem runEnabled_false (rule : State → Except Stop State) (s : State) :
    runEnabled false rule s = .ok (catchAll s) := rfl

/-- An event that latches nothing ends where its rule ends. -/
theorem dispatcherStep_of_quiet {en : Bool} {rule : State → Except Stop State} {s u : State}
    (h : runEnabled en rule (s.setNewStatus 0) = .ok u) (hq : u.newStatus = 0) :
    dispatcherStep en rule s = .next u :=
  dispatcherStep_eq_next.2 ⟨u, h, postEventMerge_eq_ok.2 (.inl ⟨hq, rfl⟩)⟩

/-- All bytes of a valid range are valid. -/
theorem storeValid_of_range {c : Config} {base n j : Nat} (h : c.rangeValid base n = true) (hj : j < n) :
    storeValid c (base + j) = true := by
  simp only [Config.rangeValid, List.all_eq_true, List.mem_range] at h
  exact h j hj

theorem mem_statusMerges {c : Config} {n : Nat} {w : Host.Cell} (h : w ∈ statusMerges c n) :
    ∃ p, p < n ∧ (w.1 = statusLowAddress c p ∨ w.1 = statusHighAddress c p) := by
  induction n with
  | zero => simp [statusMerges] at h
  | succ n ih =>
    rw [statusMerges, List.mem_append] at h
    rcases h with h | h
    · obtain ⟨p, hp, hw⟩ := ih h; exact ⟨p, by omega, hw⟩
    · refine ⟨n, by omega, ?_⟩
      simp only [List.mem_cons, List.not_mem_nil, or_false] at h
      rcases h with rfl | rfl <;> simp

/-- R63 (e) makes every address of a merge valid. -/
theorem eventMerges_valid {c : Config} (h : c.statusValid = true) (status : Byte) :
    ∀ w ∈ eventMerges c status, storeValid c w.1 = true := by
  simp only [Config.statusValid, Bool.and_eq_true, Bool.or_eq_true, Bool.not_eq_true'] at h
  intro w hw
  rcases List.mem_cons.1 hw with rfl | hw
  · exact h.1
  · split at hw
    · rename_i hen
      obtain ⟨p, hp, hw⟩ := mem_statusMerges hw
      have hr := h.2.resolve_left (by simp [hen])
      have : ∃ j, j < 2 * c.numPages ∧ w.1 = c.statusWordAddr.toNat + j := by
        rcases hw with hw | hw
        · exact ⟨2 * p + if c.storageMsbFirst then 1 else 0, by split <;> omega,
            by rw [hw, statusLowAddress, Nat.add_assoc]⟩
        · exact ⟨2 * p + if c.storageMsbFirst then 0 else 1, by split <;> omega,
            by rw [hw, statusHighAddress, Nat.add_assoc]⟩
      obtain ⟨j, hj, hw⟩ := this
      rw [hw]; exact storeValid_of_range hr hj
    · simp at hw

/-- An event whose rule ends in a latched fault has the outcome R205 and R206 describe. -/
theorem faultOutcome_of_rule {en : Bool} {rule : State → Except Stop State} {s t u : State} {status : Byte}
    (h : runEnabled en rule (s.setNewStatus 0) = .ok u) (hs : status ≠ 0) (ht : t.newStatus = 0)
    (hv : t.cfg.statusValid = true)
    (hu : u = if s.errorLatched then t else (t.setNewStatus status).setErrorLatched true) :
    FaultOutcome status s t (dispatcherStep en rule s) := by
  unfold FaultOutcome
  split
  · rename_i he; rw [if_pos he] at hu
    subst hu; exact dispatcherStep_of_quiet h ht
  · rename_i he; rw [if_neg he] at hu; subst hu
    refine ⟨applyOrs (eventMerges t.cfg status) t.store, ?_, fun a => read_merged _ _ _ _⟩
    exact dispatcherStep_eq_next.2 ⟨_, h, postEventMerge_eq_ok.2 (.inr ⟨hs, eventMerges_valid hv status, rfl⟩)⟩

/-- `faultOutcome_of_rule` with the two cases of the error flag apart. -/
theorem faultOutcome_of_cases {en : Bool} {rule : State → Except Stop State} {s t u : State} {status : Byte}
    (h : runEnabled en rule (s.setNewStatus 0) = .ok u) (hs : status ≠ 0) (ht : t.newStatus = 0)
    (hv : t.cfg.statusValid = true) (hl : s.errorLatched = true → u = t)
    (hc : s.errorLatched = false → u = (t.setNewStatus status).setErrorLatched true) :
    FaultOutcome status s t (dispatcherStep en rule s) := by
  refine faultOutcome_of_rule h hs ht hv ?_
  cases he : s.errorLatched with
  | true => exact (hl he).trans (if_pos rfl).symm
  | false => exact (hc he).trans (if_neg Bool.false_ne_true).symm

/-- `Latch` at the start of an event, where `newStatus` is 0 (R190). -/
theorem latch_of_fresh {s : State} (status : Byte) (h : s.errorLatched = false) (hn : s.newStatus = 0) :
    latch status s = (s.setNewStatus status).setErrorLatched true := by
  rw [latch_of_clear status h, hn]; simp

end Sys2Proof.Machine
end

