-- ==== Sys2Proof/Laws/Operands.lean ====
section
/-!
SUPPORT. What the operations of Machine/Operands.lean and Machine/Launch.lean can do: the page register and the storage
base read nothing but the configuration and backing storage, a well-formed configuration makes the page register
readable, and the storage of a command lies in allocated addresses.
-/

namespace Sys2Proof

/-- A descriptor that the command index answers with is in the command table. -/
theorem Config.mem_table_of_lookup {c : Config} {code : Byte} {d : Descriptor} (h : c.lookup code = some d) :
    d ∈ c.table := by
  unfold Config.lookup at h
  cases hf : findIndex c.index code with
  | none => simp [hf] at h
  | some i => rw [hf, Option.bind_some] at h; exact List.mem_of_getElem? h

theorem mem_of_findIndex {es : List (Byte × Nat)} {code : Byte} {i : Nat} (h : findIndex es code = some i) :
    (code, i) ∈ es := by
  induction es with
  | nil => simp [findIndex] at h
  | cons e es ih =>
    obtain ⟨k, n⟩ := e
    simp only [findIndex] at h
    split at h
    · simp_all
    · exact List.mem_cons_of_mem _ (ih h)

/-- The parts of R63, one by one. -/
theorem Config.wf_iff (c : Config) :
    c.wf = true ↔
      c.indexMatches = true ∧ c.pageSelectPresent = true ∧ c.lengthBytesInBlocks = true ∧
      (∀ d ∈ c.table, c.footprintValid d = true) ∧ c.statusValid = true ∧
      1 ≤ c.numPages ∧ c.numPages ≤ 255 ∧ 1 ≤ c.qCapacity := by
  simp only [Config.wf, Bool.and_eq_true, List.all_eq_true, decide_eq_true_eq, and_assoc]

/-- R63 (a): the descriptor found for a code answers that code. -/
theorem Config.code_of_lookup {c : Config} (h : c.wf = true) {code : Byte} {d : Descriptor}
    (hl : c.lookup code = some d) : d.code = code := by
  have hm := ((Config.wf_iff c).1 h).1
  simp only [Config.indexMatches, List.all_eq_true] at hm
  have hf : ∃ i, findIndex c.index code = some i := by
    unfold Config.lookup at hl
    cases hf : findIndex c.index code with
    | none => simp [hf] at hl
    | some i => exact ⟨i, rfl⟩
  obtain ⟨i, hf⟩ := hf
  have := hm _ (mem_of_findIndex hf)
  simpa [hl] using this

/-- R63 (c): only a block command reserves a byte for a stored length. -/
theorem Config.block_of_wf {c : Config} (h : c.wf = true) {d : Descriptor} (hd : d ∈ c.table) :
    d.block = true ∨ d.lenByteFirst = false := by
  have := ((Config.wf_iff c).1 h).2.2.1
  simp only [Config.lengthBytesInBlocks, List.all_eq_true, Bool.or_eq_true, Bool.not_eq_true'] at this
  exact (this d hd).symm

/-- R63 (d): every address of a command's storage on a legal page is valid. -/
theorem Config.footprint_storeValid {c : Config} (h : c.wf = true) {d : Descriptor} (hd : d ∈ c.table) {j : Nat}
    (hj : j < d.copies c.numPages * d.stride) : Machine.storeValid c (d.storageAddress.toNat + j) = true := by
  have := ((Config.wf_iff c).1 h).2.2.2.1 d hd
  exact Machine.storeValid_of_range this hj

/-- R63 (b): the page-select command is there, with its fixed shape. -/
theorem Config.pageSelect_of_wf {c : Config} (h : c.wf = true) :
    ∃ d, c.lookup Machine.pageCommand = some d ∧ d.attributes = 0 ∧ d.readLength = 1 ∧ d.writeLength = 1 := by
  have hp := ((Config.wf_iff c).1 h).2.1
  unfold Config.pageSelectPresent at hp
  split at hp
  · rename_i d hd
    simp only [Bool.and_eq_true, decide_eq_true_eq] at hp
    exact ⟨d, hd, hp.1.1, hp.1.2, hp.2⟩
  · simp at hp

end Sys2Proof

namespace Sys2Proof.Machine

/-! ### The page register -/

/-- The page register is a byte of backing storage and nothing else. -/
theorem pageValue_congr {s t : State} (hc : t.cfg = s.cfg) (hm : t.store = s.store) : pageValue t = pageValue s := by
  unfold pageValue storeRead; rw [hc, hm]

theorem pageLegal_congr {s t : State} (d : Descriptor) (hc : t.cfg = s.cfg) (hm : t.store = s.store) :
    pageLegal d t = pageLegal d s := by
  unfold pageLegal; rw [pageValue_congr hc hm]

theorem baseAddress_congr {s t : State} (d : Descriptor) (hc : t.cfg = s.cfg) (hm : t.store = s.store) :
    baseAddress d t = baseAddress d s := by
  unfold baseAddress; rw [pageValue_congr hc hm, hc]

/-- Reading the page register gives the byte at the page-select command's storage address. -/
theorem pageValue_eq_ok {s : State} {p : Byte} :
    pageValue s = .ok p ↔
      ∃ d, s.cfg.lookup pageCommand = some d ∧ storeValid s.cfg d.storageAddress.toNat = true ∧
        p = Memory.read s.store d.storageAddress.toNat := by
  unfold pageValue
  cases h : s.cfg.lookup pageCommand with
  | none => simp
  | some d => simp [storeRead_eq_ok]

/-- In a well-formed configuration the page register can be read. -/
theorem pageValue_total {s : State} (h : s.cfg.wf = true) : ∃ p, pageValue s = .ok p := by
  obtain ⟨d, hd, ha, hr, hw⟩ := Config.pageSelect_of_wf h
  have hv := Config.footprint_storeValid h (Config.mem_table_of_lookup hd) (j := 0) (by
    simp [Descriptor.copies, Descriptor.paged, ha, Descriptor.stride, hr, hw])
  exact ⟨_, pageValue_eq_ok.2 ⟨d, hd, by simpa using hv, rfl⟩⟩

/-- R68 for a command without `PAGED`. -/
theorem pageLegal_of_not_paged {d : Descriptor} (h : d.paged = false) (s : State) : pageLegal d s = .ok true := by
  simp [pageLegal, h]

/-- R68 for a paged command. -/
theorem pageLegal_of_paged {d : Descriptor} (h : d.paged = true) {s : State} {p : Byte} (hp : pageValue s = .ok p) :
    pageLegal d s = .ok (decide (p ≠ 0xFF)) := by
  unfold pageLegal; rw [if_pos h, hp]; rfl

theorem pageLegal_total {s : State} (h : s.cfg.wf = true) (d : Descriptor) : ∃ l, pageLegal d s = .ok l := by
  cases hp : d.paged with
  | false => exact ⟨_, pageLegal_of_not_paged hp s⟩
  | true => obtain ⟨p, hv⟩ := pageValue_total h; exact ⟨_, pageLegal_of_paged hp hv⟩

/-! ### The storage base -/

/-- R69 for a command without `PAGED`. -/
theorem baseAddress_of_not_paged {d : Descriptor} (h : d.paged = false) (s : State) :
    baseAddress d s = .ok d.storageAddress.toNat := by
  simp [baseAddress, h]

/-- R69 for a paged command: a page below `NUM_PAGES` selects its copy, any other has no base. -/
theorem baseAddress_of_paged {d : Descriptor} (h : d.paged = true) {s : State} {p : Byte} (hp : pageValue s = .ok p) :
    baseAddress d s =
      if p.toNat < s.cfg.numPages then .ok (d.storageAddress.toNat + p.toNat * d.stride)
      else .error (.refusal (.pageOutsideLegal p)) := by
  simp [baseAddress, h, hp]

/-- A storage base is the storage address plus a whole number of strides, below the footprint's number of copies. -/
theorem baseAddress_eq_ok {d : Descriptor} {s : State} {base : Nat}
    (h : baseAddress d s = .ok base) :
    ∃ p, p < d.copies s.cfg.numPages ∧ base = d.storageAddress.toNat + p * d.stride := by
  unfold baseAddress at h
  cases hp : d.paged with
  | false =>
    simp only [hp, Bool.false_eq_true, if_false, Except.ok.injEq] at h
    exact ⟨0, by simp [Descriptor.copies, hp], by simp [h]⟩
  | true =>
    simp only [hp, if_true, bind_eq_ok] at h
    obtain ⟨p, -, h⟩ := h
    split at h
    · rename_i hlt
      simp only [Except.ok.injEq] at h
      exact ⟨p.toNat, by simp only [Descriptor.copies, hp, if_true]; exact hlt, h.symm⟩
    · simp at h

/-- Every address of the page's copy of a command's storage is valid. -/
theorem storeValid_of_base {d : Descriptor} {s : State} {base j : Nat} (hw : s.cfg.wf = true) (hd : d ∈ s.cfg.table)
    (h : baseAddress d s = .ok base) (hj : j < d.stride) : storeValid s.cfg (base + j) = true := by
  obtain ⟨p, hp, rfl⟩ := baseAddress_eq_ok h
  rw [Nat.add_assoc]
  refine Config.footprint_storeValid hw hd ?_
  calc p * d.stride + j < p * d.stride + d.stride := by omega
    _ = (p + 1) * d.stride := by rw [Nat.add_mul, Nat.one_mul]
    _ ≤ _ := Nat.mul_le_mul_right _ hp

/-- While the page is legal, forming the base fails only on a page value between `NUM_PAGES` and 0xFF (R36, R69). -/
theorem baseAddress_total {d : Descriptor} {s : State} (h : s.cfg.wf = true) (hl : pageLegal d s = .ok true) :
    (∃ base, baseAddress d s = .ok base) ∨
      ∃ p, pageValue s = .ok p ∧ s.cfg.numPages ≤ p.toNat ∧ p ≠ 0xFF ∧
        baseAddress d s = .error (.refusal (.pageOutsideLegal p)) := by
  cases hp : d.paged with
  | false => exact .inl ⟨_, baseAddress_of_not_paged hp s⟩
  | true =>
    obtain ⟨p, hv⟩ := pageValue_total h
    rw [baseAddress_of_paged hp hv]
    split
    · exact .inl ⟨_, rfl⟩
    · rename_i hlt
      rw [pageLegal_of_paged hp hv] at hl
      exact .inr ⟨p, hv, by omega, by simpa using hl, rfl⟩

/-! ### Fields of a received or produced byte -/

/-- `zext_9(L) + 1` (R102) does not wrap. -/
theorem blockLength_toNat (b : Byte) : (blockLength b).toNat = b.toNat + 1 := by
  simp [blockLength, BitVec.toNat_add]; omega

theorem blockLength_eq (b : Byte) : blockLength b = BitVec.ofNat 9 (b.toNat + 1) :=
  BitVec.eq_of_toNat_eq (by rw [blockLength_toNat]; simp; omega)

end Sys2Proof.Machine
end

