-- ==== Sys2Proof/Laws/ReadPhase.lean ====
section
/-!
SUPPORT. What the operations of Machine/ReadPhase.lean can do: the byte each case of spec/43 R172 produces, and the two
events that produce one.
-/

namespace Sys2Proof.Machine

/-- A byte from storage is fed; while the page is illegal the zero filler goes out and a data fault is latched. -/
theorem produceIfLegal_eq_ok {d : Descriptor} {source : Except Stop Byte} {s : State} {r : Byte × State} :
    produceIfLegal d source s = .ok r ↔
      (pageLegal d s = .ok true ∧ ∃ out, source = .ok out ∧ r = (out, crcUpdate out s)) ∨
      (pageLegal d s = .ok false ∧ r = (fill00, latch stData s)) := by
  unfold produceIfLegal
  simp only [bind_eq_ok]
  constructor
  · rintro ⟨legal, hl, h⟩
    cases legal with
    | true => simp only [if_true, bind_eq_ok, ok_eq_ok] at h; exact .inl ⟨hl, h⟩
    | false => simp only [Bool.false_eq_true, if_false, ok_eq_ok] at h; exact .inr ⟨hl, h⟩
  · rintro (⟨hl, h⟩ | ⟨hl, h⟩)
    · exact ⟨true, hl, by simpa only [if_true, bind_eq_ok, ok_eq_ok] using h⟩
    · exact ⟨false, hl, by simpa only [Bool.false_eq_true, if_false, ok_eq_ok] using h⟩

/-- Case NOREAD with no descriptor (R173). -/
theorem produceCase_none {s : State} (h : s.activeDesc = none) : produceCase s = .ok (fillFF, s) := by
  unfold produceCase; rw [h]

/-- The cases of a supported command (R172 to R177). -/
theorem produceCase_some {s : State} {d : Descriptor} (h : s.activeDesc = some d) :
    produceCase s =
      if d.readLength = 0 then .ok (fillFF, latch stI2c s)
      else if d.block = true ∧ s.txIndex = 1 then produceIfLegal d (blockLengthByte d s) s
      else if 1 ≤ effectiveIndex d s ∧ effectiveIndex d s ≤ d.readLength.toNat then
        produceIfLegal d (payloadByte d (effectiveIndex d s - 1) s) s
      else if effectiveIndex d s = d.readLength.toNat + 1 then .ok (s.pec, s)
      else .ok (fillFF, latch stI2c s) := by
  unfold produceCase; rw [h]; rfl

/-- Every produced byte is counted (R172) and answered (R171, R178). -/
theorem transmitNext_eq_ok {s t : State} :
    transmitNext s = .ok t ↔
      ∃ b u, produceCase s = .ok (b, u) ∧ t = respond .ack b (u.setTxIndex (satInc u.txIndex)) := by
  unfold transmitNext produce
  simp only [bind_eq_ok, ok_eq_ok]
  constructor
  · rintro ⟨_, ⟨⟨b, u⟩, h, rfl⟩, rfl⟩; exact ⟨b, u, h, rfl⟩
  · rintro ⟨b, u, h, rfl⟩; exact ⟨_, ⟨(b, u), h, rfl⟩, rfl⟩

/-- `ADDR_R` is always enabled (R98). -/
theorem exec_addrR (a : Byte) (s : State) :
    exec (.addrR a) s = dispatcherStep true (fun s => transmitNext (openReadPhase a s)) s := rfl

/-- `DATA_TX_ACK` in a read phase. -/
theorem exec_dataTxAck {s : State} (h : s.mode = .addrRead) (x : Byte) :
    exec (.dataTxAck x) s = dispatcherStep true transmitNext s := by
  show dispatcherStep s.inReadPhase transmitNext s = _
  rw [show s.inReadPhase = true by simp [State.inReadPhase, h]]

/-- What `ADDR_R` writes before it produces a byte, as `readStart` states it (R171). -/
theorem openReadPhase_eq (a : Byte) (s : State) :
    openReadPhase a (s.setNewStatus 0) = { s with
      newStatus := 0, pec := crcEntry ((if s.mode = .idle then 0 else s.pec) ^^^ a), errorLatched := false,
      txIndex := 1, mode := .addrRead } := by
  unfold openReadPhase
  by_cases hm : s.mode = .idle
  · rw [if_pos hm, if_pos (by exact hm)]; rfl
  · rw [if_neg hm, if_neg (by exact hm)]; rfl

theorem readStart_addrR (a : Byte) (s : State) :
    readStart (.addrR a) s = some (openReadPhase a (s.setNewStatus 0)) := by
  rw [openReadPhase_eq]; rfl

/-- Both events that produce a byte do it in the state `readStart` gives. -/
theorem exec_of_readStart {i : Instr} {s r : State} (h : readStart i s = some r) :
    r.newStatus = 0 ∧ r.cfg = s.cfg ∧ r.store = s.store ∧ r.mode = .addrRead ∧
    exec i s = toOutcome (transmitNext r >>= postEventMerge) := by
  cases i with
  | addrR a =>
    rw [readStart_addrR, Option.some.injEq] at h
    have he := openReadPhase_eq a s
    rw [h] at he
    refine ⟨by rw [he], by rw [he], by rw [he], by rw [he], ?_⟩
    rw [← h]; rfl
  | dataTxAck x =>
    simp only [readStart] at h
    split at h
    · rename_i hm
      simp only [Option.some.injEq] at h
      subst h
      exact ⟨rfl, rfl, rfl, hm, exec_dataTxAck hm x⟩
    · simp at h
  | _ => simp [readStart] at h

end Sys2Proof.Machine
end

