-- ==== Sys2Proof/Laws/Queue.lean ====
section
/-!
SUPPORT. What the three queue operations can do (spec/41_queue.md R131 to R133), and the ring's depth without integers.
-/

namespace Sys2Proof.Machine

/-- `Q_PUSH` drops the entry exactly when the queue is full; otherwise it writes the tail position. -/
theorem queuePush_eq_ok {e : QEntry} {s : State} {r : Bool × State} :
    queuePush e s = .ok r ↔
      (s.qFull = true ∧ r = (false, s)) ∨
      (s.qFull = false ∧ s.qTail < s.qRing.length ∧
        r = (true, s.setPushed (s.qRing.set s.qTail e) (ringNext s.cfg s.qTail)
          (decide (ringNext s.cfg s.qTail = s.qHead)))) := by
  unfold queuePush
  cases hf : s.qFull with
  | true => simp only [if_true, Except.ok.injEq, true_and, Bool.true_eq_false, false_and, or_false]; exact eq_comm
  | false =>
    simp only [Bool.false_eq_true, if_false, false_and, false_or, true_and]
    split
    · rename_i h; simp only [h, true_and, Except.ok.injEq]; exact eq_comm
    · rename_i h; simp [h]

/-- `Q_POP` fails exactly on an empty queue; otherwise it reads the head position. -/
theorem queuePop_eq_ok {s : State} {r : Option QEntry × State} :
    queuePop s = .ok r ↔
      (s.queueEmpty = true ∧ r = (none, s)) ∨
      (s.queueEmpty = false ∧ ∃ e, s.qRing[s.qHead]? = some e ∧
        r = (some e, s.setPopped (ringNext s.cfg s.qHead) false)) := by
  unfold queuePop
  cases he : s.queueEmpty with
  | true => simp only [if_true, Except.ok.injEq, true_and, Bool.true_eq_false, false_and, or_false]; exact eq_comm
  | false =>
    simp only [Bool.false_eq_true, if_false, false_and, false_or, true_and]
    split
    · rename_i e h
      simp only [h, Option.some.injEq, Except.ok.injEq]
      constructor
      · rintro rfl; exact ⟨e, rfl, rfl⟩
      · rintro ⟨_, rfl, rfl⟩; rfl
    · rename_i h; simp [h]

theorem queueEmpty_iff (s : State) : s.queueEmpty = true ↔ s.qHead = s.qTail ∧ s.qFull = false := by
  simp [State.queueEmpty]

/-- `Q_DEPTH` (R133) without the integer residue. -/
theorem queueDepth_eq {s : State} (h : s.QueueSound) :
    queueDepth s = if s.qFull = true then s.cfg.qCapacity
      else if s.qHead ≤ s.qTail then s.qTail - s.qHead else s.qTail + s.cfg.qCapacity - s.qHead := by
  have hh := h.headBelow
  have ht := h.tailBelow
  unfold queueDepth
  split
  · rfl
  · split
    · rw [Int.emod_eq_of_lt (by omega) (by omega)]; omega
    · rw [← Int.add_emod_right, Int.emod_eq_of_lt (by omega) (by omega)]; omega

/-- The depth never exceeds the capacity, and reaches it exactly when the queue is full. -/
theorem queueDepth_le {s : State} (h : s.QueueSound) : queueDepth s ≤ s.cfg.qCapacity := by
  have hh := h.headBelow
  have ht := h.tailBelow
  rw [queueDepth_eq h]; split
  · omega
  · split <;> omega

theorem queueDepth_eq_capacity_iff {s : State} (h : s.QueueSound) :
    queueDepth s = s.cfg.qCapacity ↔ s.qFull = true := by
  have hh := h.headBelow
  have ht := h.tailBelow
  rw [queueDepth_eq h]; split
  · simp_all
  · rename_i hf; simp only [hf]; split <;> simp <;> omega

theorem queueDepth_eq_zero_iff {s : State} (h : s.QueueSound) : queueDepth s = 0 ↔ s.queueEmpty = true := by
  have hh := h.headBelow
  have ht := h.tailBelow
  rw [queueDepth_eq h, queueEmpty_iff]
  split
  · simp_all; omega
  · rename_i hf; split <;> simp_all <;> omega

@[simp] theorem length_queueContents (s : State) : (queueContents s).length = queueDepth s := by
  simp [queueContents]

/-- The entry at a position of the queue. -/
theorem getElem_queueContents {s : State} {k : Nat} (h : k < (queueContents s).length) :
    (queueContents s)[k] = ringEntry s ((s.qHead + k) % s.cfg.qCapacity) := by
  simp [queueContents]

/-- Pushing keeps the ring. -/
theorem queueSound_setPushed {s : State} (h : s.QueueSound) (e : QEntry) :
    (s.setPushed (s.qRing.set s.qTail e) (ringNext s.cfg s.qTail)
      (decide (ringNext s.cfg s.qTail = s.qHead))).QueueSound :=
  { ringLength := by simp [h.ringLength]
    headBelow := h.headBelow
    tailBelow := Nat.mod_lt _ (Nat.zero_lt_of_lt h.tailBelow)
    fullMeans := fun hf => (of_decide_eq_true hf).symm }

/-- Popping keeps the ring. -/
theorem queueSound_setPopped {s : State} (h : s.QueueSound) :
    (s.setPopped (ringNext s.cfg s.qHead) false).QueueSound :=
  { ringLength := h.ringLength
    headBelow := Nat.mod_lt _ (Nat.zero_lt_of_lt h.headBelow)
    tailBelow := h.tailBelow
    fullMeans := fun hf => by simp at hf }

/-! ### The queue as a list -/

/-- The ring index step inside the ring, without a remainder. -/
theorem ringNext_eq {c : Config} {i : Nat} (h : i < c.qCapacity) :
    ringNext c i = if i + 1 = c.qCapacity then 0 else i + 1 := by
  unfold ringNext
  split
  · rename_i he; rw [he, Nat.mod_self]
  · exact Nat.mod_eq_of_lt (by omega)

theorem queueContents_eq_nil_iff {s : State} (h : s.QueueSound) : queueContents s = [] ↔ s.queueEmpty = true := by
  rw [← queueDepth_eq_zero_iff h, ← length_queueContents, List.length_eq_zero_iff]

/-- Popping lowers the depth by one. -/
theorem queueDepth_setPopped {s : State} (h : s.QueueSound) (he : s.queueEmpty = false) :
    queueDepth s = queueDepth (s.setPopped (ringNext s.cfg s.qHead) false) + 1 := by
  have hh := h.headBelow
  have ht := h.tailBelow
  have hf := h.fullMeans
  have hne : ¬(s.qHead = s.qTail ∧ s.qFull = false) := by rw [← queueEmpty_iff, he]; simp
  rw [queueDepth_eq h, queueDepth_eq (queueSound_setPopped h), State.setPopped_qHead, ringNext_eq hh]
  cases hq : s.qFull with
  | true => have := hf hq; simp; split <;> split <;> omega
  | false => simp [hq] at hne; simp; split <;> split <;> split <;> omega

/-- Popping removes the oldest entry. -/
theorem queueContents_setPopped {s : State} (h : s.QueueSound) (he : s.queueEmpty = false) :
    queueContents s = ringEntry s s.qHead :: queueContents (s.setPopped (ringNext s.cfg s.qHead) false) := by
  unfold queueContents
  rw [queueDepth_setPopped h he, List.range_succ_eq_map, List.map_cons, List.map_map]
  congr 1
  · simp [Nat.mod_eq_of_lt h.headBelow]
  · refine List.map_congr_left fun k _ => ?_
    simp only [Function.comp, State.setPopped_qHead, State.setPopped_cfg, ringEntry, State.setPopped_qRing, ringNext,
      Nat.mod_add_mod]
    congr 2; omega

/-- Pushing raises the depth by one, and the tail is where the queue ends. -/
theorem queueDepth_setPushed {s : State} (h : s.QueueSound) (hf : s.qFull = false) (e : QEntry) :
    queueDepth (s.setPushed (s.qRing.set s.qTail e) (ringNext s.cfg s.qTail)
      (decide (ringNext s.cfg s.qTail = s.qHead))) = queueDepth s + 1 ∧
    (s.qHead + queueDepth s) % s.cfg.qCapacity = s.qTail ∧ queueDepth s < s.cfg.qCapacity := by
  have hh := h.headBelow
  have ht := h.tailBelow
  rw [queueDepth_eq h, queueDepth_eq (queueSound_setPushed h e), State.setPushed_qTail, ringNext_eq ht]
  simp only [hf, Bool.false_eq_true, if_false, State.setPushed_qFull, State.setPushed_qHead, State.setPushed_cfg,
    decide_eq_true_eq]
  refine ⟨by split <;> split <;> split <;> (try split) <;> omega, ?_, by split <;> omega⟩
  split
  · rw [Nat.mod_eq_of_lt (by omega)]; omega
  · rw [show s.qHead + (s.qTail + s.cfg.qCapacity - s.qHead) = s.qTail + s.cfg.qCapacity by omega, Nat.add_mod_right,
      Nat.mod_eq_of_lt ht]

/-- Ring positions below the capacity are different. -/
theorem ring_position_inj {h a b c : Nat} (ha : a < c) (hb : b < c) (he : (h + a) % c = (h + b) % c) : a = b := by
  have hm : a % c = b % c := Nat.ModEq.add_left_cancel' h he
  rwa [Nat.mod_eq_of_lt ha, Nat.mod_eq_of_lt hb] at hm

/-- Pushing appends the entry. -/
theorem queueContents_setPushed {s : State} (h : s.QueueSound) (hf : s.qFull = false) (e : QEntry) :
    queueContents (s.setPushed (s.qRing.set s.qTail e) (ringNext s.cfg s.qTail)
      (decide (ringNext s.cfg s.qTail = s.qHead))) = queueContents s ++ [e] := by
  obtain ⟨hd, hm, hlt⟩ := queueDepth_setPushed h hf e
  unfold queueContents
  rw [hd, List.range_succ, List.map_append]
  congr 1
  · refine List.map_congr_left fun k hk => ?_
    rw [List.mem_range] at hk
    simp only [State.setPushed_qHead, State.setPushed_cfg, ringEntry, State.setPushed_qRing,
      List.getD_eq_getElem?_getD]
    rw [List.getElem?_set_ne]
    intro heq
    rw [← hm] at heq
    have := ring_position_inj hlt (by omega) heq
    omega
  · simp only [State.setPushed_qHead, State.setPushed_cfg, ringEntry, State.setPushed_qRing, List.map_cons,
      List.map_nil, hm, List.getD_eq_getElem?_getD]
    rw [List.getElem?_set_self (by rw [h.ringLength]; exact h.tailBelow)]; rfl

end Sys2Proof.Machine
end

