-- ==== Sys2Proof/Laws/WritePhase.lean ====
section
/-!
SUPPORT. What the operations of Machine/WritePhase.lean can do: which case a received byte falls into (spec/42 R149), and
what the commit point stores or enqueues (R150 to R154).
-/

namespace Sys2Proof.Machine

/-! ### Enabled events -/

theorem inWritePhase_of_mode {s : State} (h : s.mode = .addrWrite) : s.inWritePhase = true := by
  simp [State.inWritePhase, h]

theorem inReadPhase_of_mode {s : State} (h : s.mode = .addrRead) : s.inReadPhase = true := by
  simp [State.inReadPhase, h]

/-- In a write phase both data events run the same rule (R149, R155). -/
theorem exec_dataReceived {s : State} (h : s.mode = .addrWrite) {b : Byte} {i : Instr}
    (hi : i = .dataRx b ∨ i = .dataRxGc b) : exec i s = dispatcherStep true (dataReceived b) s := by
  have h := inWritePhase_of_mode h
  rcases hi with rfl | rfl
  · show dispatcherStep s.inWritePhase (dataReceived b) s = _; rw [h]
  · show dispatcherStep s.inWritePhase (dataReceived b) s = _; rw [h]

/-- In a write phase `STOP_RESTART` runs its rule. -/
theorem exec_closeWritePhase {s : State} (h : s.mode = .addrWrite) (x : Byte) :
    exec (.stopRestart x) s = dispatcherStep true closeWritePhase s := by
  show dispatcherStep s.inWritePhase closeWritePhase s = _
  rw [inWritePhase_of_mode h]

/-! ### The case a received byte falls into -/

/-- Case CMD (R143). -/
theorem receiveCase_command {s : State} (b : Byte) (h : s.rxIndex = 0) :
    receiveCase b s = .ok (receiveCommand b s) := if_pos h

/-- Case SWALLOW (R144). -/
theorem receiveCase_swallow {s : State} (b : Byte) (h : s.rxIndex ≠ 0) (ha : s.activeDesc = none) :
    receiveCase b s = .ok s := by
  unfold receiveCase; rw [if_neg h, ha]

/-- Cases BLEN, DATA, PEC and EXCESS (R145 to R148). -/
theorem receiveCase_supported {s : State} (b : Byte) {d : Descriptor} (h : 1 ≤ s.rxIndex.toNat)
    (ha : s.activeDesc = some d) :
    receiveCase b s =
      if d.block = true ∧ s.rxIndex = 1 then .ok (receiveBlockLength d b s)
      else if s.rxIndex.toNat ≤ s.writeLength.toNat then receiveData d b s
      else if s.rxIndex.toNat = s.writeLength.toNat + 1 then .ok (receivePec d b s)
      else .ok (latch stData s) := by
  have h0 : ¬s.rxIndex = 0 := fun h0 => by rw [h0] at h; simp at h
  unfold receiveCase; rw [if_neg h0, ha]

/-- Every received byte is counted and answered (R149). -/
theorem dataReceived_eq_ok {b : Byte} {s t : State} :
    dataReceived b s = .ok t ↔
      ∃ u, receiveCase b s = .ok u ∧ t = respond .ack 0x00 (u.setRxIndex (satInc u.rxIndex)) := by
  unfold dataReceived
  simp only [bind_eq_ok, ok_eq_ok]

/-- Case DATA (R146): the byte is staged or a data fault is latched, and it is fed. -/
theorem receiveData_eq_ok {d : Descriptor} {b : Byte} {s t : State} :
    receiveData d b s = .ok t ↔
      ∃ legal, pageLegal d s = .ok legal ∧
        if (legal && (decide (d.code ≠ pageCommand) || pageByteLegal s.cfg b)) = true then
          stagingOffset d s < scratchSize ∧
            t = crcUpdate b (s.setScratch (Memory.set s.scratch (stagingOffset d s) b))
        else t = crcUpdate b (latch stData s) := by
  unfold receiveData
  simp only [bind_eq_ok, Except.ok.injEq]
  refine exists_congr fun legal => and_congr_right fun _ => ?_
  unfold stageOrLatch
  split
  · simp only [scratchWrite_eq_ok]
    constructor
    · rintro ⟨u, ⟨h, rfl⟩, rfl⟩; exact ⟨h, rfl⟩
    · rintro ⟨h, rfl⟩; exact ⟨_, ⟨h, rfl⟩, rfl⟩
  · simp only [Except.ok.injEq]
    constructor
    · rintro ⟨u, rfl, rfl⟩; rfl
    · rintro rfl; exact ⟨_, rfl, rfl⟩

/-! ### The commit point -/

/-- `SendByteEnqueue()` (R154): a push of the code and the page register's value. -/
theorem sendByteEnqueue_eq_ok {d : Descriptor} {s t : State} :
    sendByteEnqueue d s = .ok t ↔
      ∃ p, pageValue s = .ok p ∧ ∃ taken, queuePush { code := d.code, page := p } s = .ok (taken, t) := by
  unfold sendByteEnqueue
  simp only [bind_eq_ok, Except.ok.injEq]
  refine exists_congr fun p => and_congr_right fun _ => ?_
  constructor
  · rintro ⟨⟨taken, u⟩, h, rfl⟩; exact ⟨taken, h⟩
  · rintro ⟨taken, h⟩; exact ⟨_, h, rfl⟩

/-- Where each payload byte is committed (R71). -/
theorem mem_payloadCells {f : Bool} {n : Nat} {d : Descriptor} {k : Nat} {bs : List Byte} {c : Host.Cell} :
    c ∈ payloadCells f n d k bs ↔ ∃ j, ∃ h : j < bs.length, c = (byteOff f (k + j) n d, bs[j]) := by
  induction bs generalizing k with
  | nil => simp [payloadCells]
  | cons b bs ih =>
    simp only [payloadCells, List.mem_cons, ih]
    constructor
    · rintro (rfl | ⟨j, h, rfl⟩)
      · exact ⟨0, by simp, rfl⟩
      · exact ⟨j + 1, by simpa using h, by simp [Nat.add_assoc, Nat.add_comm 1 j]⟩
    · rintro ⟨j, h, rfl⟩
      cases j with
      | zero => exact .inl rfl
      | succ j => exact .inr ⟨j, by simpa using h, by simp [Nat.add_assoc, Nat.add_comm 1 j]⟩

@[simp] theorem length_payloadCells (f : Bool) (n : Nat) (d : Descriptor) (k : Nat) (bs : List Byte) :
    (payloadCells f n d k bs).length = bs.length := by
  induction bs generalizing k with
  | nil => rfl
  | cons b bs ih => simp [payloadCells, ih]

/-- The payload offsets of a command stay below its stride (R70, R71). -/
theorem byteOff_lt {f : Bool} {k n : Nat} {d : Descriptor} (hk : k < n) (hn : n ≤ d.writeLength.toNat)
    (hd : d.block = true ∨ d.lenByteFirst = false) : byteOff f k n d < d.stride := by
  unfold byteOff Descriptor.stride
  have : n ≤ max d.readLength.toNat d.writeLength.toNat := Nat.le_trans hn (Nat.le_max_right _ _)
  split
  · omega
  · have h0 : d.lenRes = 0 := by simp [Descriptor.lenRes, hd.resolve_left (by assumption)]
    split <;> omega

/-- Different payload bytes have different offsets (R71). -/
theorem byteOff_inj {f : Bool} {j k n : Nat} {d : Descriptor} (hj : j < n) (hk : k < n)
    (h : byteOff f j n d = byteOff f k n d) : j = k := by
  unfold byteOff at h
  split at h
  · omega
  · split at h <;> omega

/-- What `Commit()` stores, in each of its cases (R151 to R153). -/
theorem commitCells_eq_ok {d : Descriptor} {s : State} {cells : List Host.Cell} :
    commitCells d s = .ok cells ↔
      (d.writeLength = 0 ∧ cells = []) ∨
      (d.writeLength ≠ 0 ∧ d.block = false ∧ ∃ bs, scratchBytes s d.writeLength.toNat = .ok bs ∧
        cells = payloadCells s.cfg.storageMsbFirst d.writeLength.toNat d 0 bs) ∨
      (d.writeLength ≠ 0 ∧ d.block = true ∧ s.rxIndex.toNat < 2 ∧ cells = []) ∨
      (d.writeLength ≠ 0 ∧ d.block = true ∧ 2 ≤ s.rxIndex.toNat ∧
        ∃ bs, scratchBytes s (s.writeLength.toNat - 1) = .ok bs ∧
          cells = (if d.lenByteFirst = true then [(0, BitVec.ofNat 8 (s.writeLength.toNat - 1))] else [])
            ++ payloadCells s.cfg.storageMsbFirst (s.writeLength.toNat - 1) d 0 bs) := by
  unfold commitCells
  by_cases hw : d.writeLength = 0
  · simp only [hw, if_true, Except.ok.injEq, true_and, ne_eq, not_true_eq_false, false_and, or_false]; exact eq_comm
  · cases hb : d.block with
    | false =>
      simp only [hw, if_false, Bool.false_eq_true, plainCells, bind_eq_ok, ok_eq_ok, false_and, ne_eq,
        not_false_eq_true, true_and, or_false, false_or]
    | true =>
      simp only [hw, if_false, if_true, blockCells, false_and, ne_eq, not_false_eq_true, true_and, false_or,
        Bool.true_eq_false]
      split
      · rename_i h
        simp only [h, true_and, Except.ok.injEq, Nat.not_le.2 h, false_and, or_false]; exact eq_comm
      · rename_i h
        simp only [h, false_and, false_or, Nat.not_lt.1 h, true_and, bind_eq_ok, ok_eq_ok]

/-- `Commit()` changes backing storage only, and only on a legal page. -/
theorem commit_eq_ok {d : Descriptor} {s t : State} :
    commit d s = .ok t ↔
      ∃ cells, commitCells d s = .ok cells ∧
        ((cells = [] ∧ t = s) ∨
        (cells ≠ [] ∧ pageLegal d s = .ok false ∧ t = s) ∨
        (cells ≠ [] ∧ pageLegal d s = .ok true ∧ ∃ base, baseAddress d s = .ok base ∧
          (∀ c ∈ cells, storeValid s.cfg (base + c.1) = true) ∧
          t = s.setStore (applyWrites (cells.map fun c => (base + c.1, c.2)) s.store))) := by
  unfold commit
  simp only [bind_eq_ok]
  refine exists_congr fun cells => and_congr_right fun _ => ?_
  cases cells with
  | nil =>
    simp only [List.isEmpty_nil, if_true, Except.ok.injEq, ne_eq, not_true_eq_false, false_and, or_false, true_and]
    exact eq_comm
  | cons c cs =>
    simp only [List.isEmpty_cons, Bool.false_eq_true, if_false, bind_eq_ok, ne_eq, reduceCtorEq, not_false_eq_true,
      true_and, false_and, false_or]
    constructor
    · rintro ⟨legal, hl, h⟩
      cases legal with
      | false =>
        simp only [storeIfLegal, Bool.false_eq_true, if_false, Except.ok.injEq] at h
        exact .inl ⟨hl, h.symm⟩
      | true =>
        simp only [storeIfLegal, if_true, storeAtBase, bind_eq_ok, storeWriteAll_eq_ok] at h
        obtain ⟨base, hb, hv, rfl⟩ := h
        exact .inr ⟨hl, base, hb, fun x hx => hv _ (List.mem_map.2 ⟨x, hx, rfl⟩), rfl⟩
    · rintro (⟨hl, rfl⟩ | ⟨hl, base, hb, hv, rfl⟩)
      · exact ⟨false, hl, rfl⟩
      · refine ⟨true, hl, ?_⟩
        simp only [storeIfLegal, if_true, storeAtBase, bind_eq_ok, storeWriteAll_eq_ok]
        refine ⟨base, hb, fun w hw => ?_, rfl⟩
        obtain ⟨x, hx, rfl⟩ := List.mem_map.1 hw
        exact hv x hx

/-- What the commit point does (R150). -/
theorem commitPoint_eq_ok {s t : State} :
    commitPoint s = .ok t ↔
      (¬(s.errorLatched = false ∧ 1 ≤ s.rxIndex.toNat) ∧ t = s) ∨
      (s.errorLatched = false ∧ 1 ≤ s.rxIndex.toNat ∧
        ((s.activeDesc = none ∧ t = s) ∨
        ∃ d, s.activeDesc = some d ∧
          ((d.sendByte = true ∧ sendByteEnqueue d s = .ok t) ∨
          (d.sendByte = false ∧ s.writeLength.toNat ≤ s.rxIndex.toNat - 1 ∧ commit d s = .ok t) ∨
          (d.sendByte = false ∧ s.rxIndex.toNat - 1 < s.writeLength.toNat ∧ t = s)))) := by
  unfold commitPoint
  by_cases h : s.errorLatched = false ∧ 1 ≤ s.rxIndex.toNat
  · rw [if_pos h]
    simp only [h.1, h.2, and_self, not_true_eq_false, false_and, false_or, true_and]
    cases ha : s.activeDesc with
    | none => simp only [Except.ok.injEq, true_and, reduceCtorEq, false_and, exists_false, or_false]; exact eq_comm
    | some d =>
      simp only [reduceCtorEq, false_and, false_or, Option.some.injEq, exists_eq_left']
      cases hs : d.sendByte with
      | true => simp
      | false =>
        simp only [Bool.false_eq_true, if_false, false_and, true_and, false_or]
        split
        · rename_i hle; simp only [hle, true_and, Nat.not_lt.2 hle, false_and, or_false]
        · rename_i hle
          simp only [hle, false_and, Nat.not_le.1 hle, true_and, false_or, Except.ok.injEq]; exact eq_comm
  · rw [if_neg h]; simp only [h, not_false_eq_true, true_and, Except.ok.injEq]
    constructor
    · rintro rfl; exact .inl rfl
    · rintro (rfl | ⟨h1, h2, -⟩)
      · rfl
      · exact absurd ⟨h1, h2⟩ h

/-- `STOP_RESTART` (R150): the commit point, then the write phase is left. -/
theorem closeWritePhase_eq_ok {s t : State} :
    closeWritePhase s = .ok t ↔ ∃ u, commitPoint s = .ok u ∧ t = respond .ack 0x00 (u.setMode .writeEnded) := by
  unfold closeWritePhase
  simp only [bind_eq_ok, ok_eq_ok]

end Sys2Proof.Machine
end

