-- ==== Sys2Proof/Laws/Events.lean ====
section
/-!
SUPPORT. What an event can do, once for all ten (spec/44 R190): the rule it runs, what the rules of the write and the
read phase leave unchanged, and the only way they change the error flag and `newStatus`. The statements about all
events follow from these without unfolding a meaning.
-/

namespace Sys2Proof.Machine

/-- The rule an event runs in state `s`, the catch-all where it is not enabled (R98, R190); `none` for an operation that
is no event. -/
def eventRule (i : Instr) (s : State) : Option (State → Except Stop State) :=
  match i with
  | .busError _ => some fun s => .ok (respond .release 0x00 (s.setMode .idle))
  | .addrW a => some fun s => .ok (openWritePhase a s)
  | .addrGc a => some (runEnabled s.cfg.gcEnable fun s => .ok (openWritePhase a s))
  | .dataRx b => some (runEnabled s.inWritePhase (dataReceived b))
  | .dataRxGc b => some (runEnabled s.inWritePhase (dataReceived b))
  | .stopRestart _ => some (runEnabled s.inWritePhase closeWritePhase)
  | .addrR a => some fun s => transmitNext (openReadPhase a s)
  | .dataTxAck _ => some (runEnabled s.inReadPhase transmitNext)
  | .dataTxNack _ => some (runEnabled s.inReadPhase fun s => .ok (respond .ack 0x00 (s.setMode .idle)))
  | .unrecognized _ _ => some fun s => .ok (catchAll s)
  | .qDepth | .qPop | .crcReset | .crcUpdate _ | .crcValue | .qPush _ => none

/-- Every event has a rule. -/
theorem eventRule_isSome {i : Instr} (h : isEvent i = true) (s : State) : ∃ f, eventRule i s = some f := by
  cases i <;> first | exact ⟨_, rfl⟩ | simp [isEvent] at h

/-- An event runs its rule with `newStatus` cleared, and then the merge (R190). -/
theorem exec_of_eventRule {i : Instr} {s : State} {f : State → Except Stop State} (h : eventRule i s = some f) :
    exec i s = toOutcome (f (s.setNewStatus 0) >>= postEventMerge) := by
  cases i <;> simp only [eventRule, Option.some.injEq, reduceCtorEq] at h <;> subst h <;> rfl

/-- An event answers a next state exactly when its rule and the merge succeed. -/
theorem exec_event_eq_next {i : Instr} {s t : State} {f : State → Except Stop State} (h : eventRule i s = some f) :
    exec i s = .next t ↔ ∃ u, f (s.setNewStatus 0) = .ok u ∧ postEventMerge u = .ok t := by
  rw [exec_of_eventRule h, toOutcome_eq_next, bind_eq_ok]

/-- The merge changes backing storage and nothing else. -/
theorem postEventMerge_frame {s t : State} (h : postEventMerge s = .ok t) : t = s.setStore t.store := by
  rcases postEventMerge_eq_ok.1 h with ⟨-, rfl⟩ | ⟨-, -, rfl⟩ <;> rfl

/-- In a configuration that passes R63 (e) the merge succeeds. -/
theorem postEventMerge_total {s : State} (h : s.cfg.statusValid = true) : ∃ t, postEventMerge s = .ok t := by
  by_cases hn : s.newStatus = 0
  · exact ⟨s, postEventMerge_of_quiet hn⟩
  · exact ⟨_, postEventMerge_eq_ok.2 (.inr ⟨hn, eventMerges_valid h _, rfl⟩)⟩

/-! ### What `Latch` can do -/

/-- One of the four status bits (R37). -/
def IsStatusBit (status : Byte) : Prop := status = 0x80 ∨ status = 0x40 ∨ status = 0x20 ∨ status = 0x02

/-- Between `s` and `u` at most one `Latch` has acted on the error flag and `newStatus` (R205). -/
def LatchedAtMostOnce (s u : State) : Prop :=
  (u.errorLatched = s.errorLatched ∧ u.newStatus = s.newStatus) ∨
  (s.errorLatched = false ∧ u.errorLatched = true ∧
    ∃ status, IsStatusBit status ∧ u.newStatus = s.newStatus ||| status)

theorem LatchedAtMostOnce.of_eq {s u : State} (h : u.errorLatched = s.errorLatched)
    (hn : u.newStatus = s.newStatus) : LatchedAtMostOnce s u := .inl ⟨h, hn⟩

theorem latchedAtMostOnce_latch {status : Byte} (h : IsStatusBit status) (s : State) :
    LatchedAtMostOnce s (latch status s) := by
  cases he : s.errorLatched with
  | true => rw [latch_of_latched _ he]; exact .of_eq rfl rfl
  | false => rw [latch_of_clear _ he]; exact .inr ⟨he, rfl, status, h, rfl⟩

/-- A latched error stays, and nothing is recorded over it. -/
theorem LatchedAtMostOnce.of_latched {s u : State} (h : LatchedAtMostOnce s u) (he : s.errorLatched = true) :
    u.errorLatched = true ∧ u.newStatus = s.newStatus := by
  rcases h with ⟨h, hn⟩ | ⟨h, -⟩
  · exact ⟨h.trans he, hn⟩
  · rw [he] at h; simp at h

/-- After an event that began with `newStatus` 0 it holds 0 or one status bit, and then the error flag is set. -/
theorem LatchedAtMostOnce.newStatus_cases {s u : State} (h : LatchedAtMostOnce s u) (hn : s.newStatus = 0) :
    (u.newStatus = 0 ∧ u.errorLatched = s.errorLatched) ∨
      (IsStatusBit u.newStatus ∧ u.errorLatched = true ∧ s.errorLatched = false) := by
  rcases h with ⟨h, hu⟩ | ⟨h, he, st, hst, hu⟩
  · exact .inl ⟨hu.trans hn, h⟩
  · refine .inr ⟨?_, he, h⟩
    have h0 : (0 : Byte) ||| st = st := BitVec.zero_or
    rw [hn, h0] at hu
    rwa [hu]

/-! ### What the write phase can do -/

/-- A received byte writes the transaction registers `pec`, `activeDesc`, `activeCode`, `writeLength`, `scratch` and
what `Latch` writes, and nothing else. -/
theorem receiveCase_frame {b : Byte} {s u : State} (h : receiveCase b s = .ok u) :
    LatchedAtMostOnce s u ∧
    u = { s with
      errorLatched := u.errorLatched, newStatus := u.newStatus, pec := u.pec, activeDesc := u.activeDesc,
      activeCode := u.activeCode, writeLength := u.writeLength, scratch := u.scratch } := by
  by_cases h0 : s.rxIndex = 0
  · rw [receiveCase_command b h0, ok_eq_ok] at h
    subst h
    unfold receiveCommand
    split
    · refine ⟨latchedAtMostOnce_latch (.inl rfl) _, ?_⟩
      rw [latch_frame]; rfl
    · exact ⟨.of_eq rfl rfl, rfl⟩
  · cases ha : s.activeDesc with
    | none =>
      rw [receiveCase_swallow b h0 ha, ok_eq_ok] at h
      subst h
      exact ⟨.of_eq rfl rfl, rfl⟩
    | some d =>
      have h1 : 1 ≤ s.rxIndex.toNat := by
        rcases Nat.eq_zero_or_pos s.rxIndex.toNat with h | h
        · exact absurd (BitVec.eq_of_toNat_eq (by simpa using h)) h0
        · exact h
      rw [receiveCase_supported b h1 ha] at h
      split at h
      · rw [ok_eq_ok] at h
        subst h
        unfold receiveBlockLength
        split
        · refine ⟨?_, by rw [latch_frame]; rfl⟩
          exact latchedAtMostOnce_latch (status := stData) (.inr (.inl rfl)) s
        · exact ⟨.of_eq rfl rfl, rfl⟩
      · split at h
        · obtain ⟨legal, -, h⟩ := receiveData_eq_ok.1 h
          split at h
          · obtain ⟨-, rfl⟩ := h
            exact ⟨.of_eq rfl rfl, rfl⟩
          · subst h
            refine ⟨?_, by rw [latch_frame]; rfl⟩
            exact latchedAtMostOnce_latch (status := stData) (.inr (.inl rfl)) s
        · split at h
          · rw [ok_eq_ok] at h
            subst h
            unfold receivePec
            split
            · split
              · exact ⟨latchedAtMostOnce_latch (.inr (.inr (.inl rfl))) _, by rw [latch_frame]; rfl⟩
              · exact ⟨.of_eq rfl rfl, rfl⟩
            · exact ⟨latchedAtMostOnce_latch (.inr (.inl rfl)) _, by rw [latch_frame]; rfl⟩
          · rw [ok_eq_ok] at h
            subst h
            exact ⟨latchedAtMostOnce_latch (.inr (.inl rfl)) _, by rw [latch_frame]; rfl⟩

/-- The commit point writes backing storage or the queue's tail, and nothing else. -/
theorem commitPoint_frame {s u : State} (h : commitPoint s = .ok u) :
    u = { s with store := u.store, qRing := u.qRing, qTail := u.qTail, qFull := u.qFull } := by
  rcases commitPoint_eq_ok.1 h with ⟨-, rfl⟩ | ⟨-, -, ⟨-, rfl⟩ | ⟨d, -, ⟨-, hs⟩ | ⟨-, -, hc⟩ | ⟨-, -, rfl⟩⟩⟩
  · rfl
  · rfl
  · obtain ⟨p, -, taken, hq⟩ := sendByteEnqueue_eq_ok.1 hs
    rcases queuePush_eq_ok.1 hq with ⟨-, h⟩ | ⟨-, -, h⟩ <;> simp only [Prod.mk.injEq] at h <;> obtain ⟨-, rfl⟩ := h <;> rfl
  · obtain ⟨cells, -, ⟨-, rfl⟩ | ⟨-, -, rfl⟩ | ⟨-, -, base, -, -, rfl⟩⟩ := commit_eq_ok.1 hc <;> rfl
  · rfl

/-! ### What the read phase can do -/

/-- Producing a byte writes `pec` and what `Latch` writes, and nothing else. -/
theorem produceCase_frame {s u : State} {b : Byte} (h : produceCase s = .ok (b, u)) :
    LatchedAtMostOnce s u ∧
    u = { s with errorLatched := u.errorLatched, newStatus := u.newStatus, pec := u.pec } := by
  have hlegal : ∀ (d : Descriptor) (source : Except Stop Byte), produceIfLegal d source s = .ok (b, u) →
      LatchedAtMostOnce s u ∧
      u = { s with errorLatched := u.errorLatched, newStatus := u.newStatus, pec := u.pec } := by
    intro d source h
    rcases produceIfLegal_eq_ok.1 h with ⟨-, out, -, h⟩ | ⟨-, h⟩ <;> simp only [Prod.mk.injEq] at h <;>
      obtain ⟨-, rfl⟩ := h
    · exact ⟨.of_eq rfl rfl, rfl⟩
    · exact ⟨latchedAtMostOnce_latch (.inr (.inl rfl)) _, by rw [latch_frame]; rfl⟩
  obtain ha | ⟨d, ha⟩ : s.activeDesc = none ∨ ∃ d, s.activeDesc = some d := by
    cases s.activeDesc <;> simp
  · rw [produceCase_none ha, ok_eq_ok] at h
    simp only [Prod.mk.injEq] at h
    obtain ⟨-, rfl⟩ := h
    exact ⟨.of_eq rfl rfl, rfl⟩
  · have hi2c : LatchedAtMostOnce s (latch stI2c s) ∧
        latch stI2c s = { s with
          errorLatched := (latch stI2c s).errorLatched, newStatus := (latch stI2c s).newStatus,
          pec := (latch stI2c s).pec } :=
      ⟨latchedAtMostOnce_latch (.inr (.inr (.inr rfl))) _, by rw [latch_frame]; rfl⟩
    rw [produceCase_some ha] at h
    repeat' split at h
    all_goals first
      | exact hlegal _ _ h
      | (rw [ok_eq_ok] at h
         simp only [Prod.mk.injEq] at h
         obtain ⟨-, rfl⟩ := h
         first | exact hi2c | exact ⟨.of_eq rfl rfl, rfl⟩)

/-! ### What every event can do -/

/-- What an event's rule leaves, before the merge: the mode of R195, one response, and what it may not touch. -/
structure RuleFacts (i : Instr) (s u : State) : Prop where
  /-- no event writes the configuration, the input queue, the queue's head or whether the bus is active -/
  kept : u.cfg = s.cfg ∧ u.input = s.input ∧ u.qHead = s.qHead ∧ u.busActive = s.busActive
  /-- the mode follows R195 -/
  mode : u.mode = modeAfter s.cfg.gcEnable i s.mode
  /-- nothing is newly latched, or one status bit is, with the error flag set (R205) -/
  status : u.newStatus = 0 ∨ (IsStatusBit u.newStatus ∧ u.errorLatched = true)
  /-- a latched error stays, and suppresses later ones, unless the event opens a phase (R205, R211) -/
  sticky : opensPhase s.cfg.gcEnable i = false → s.errorLatched = true → u.errorLatched = true ∧ u.newStatus = 0
  /-- only a commit point writes backing storage or the queue's tail, and only without a latched error (R65, R150) -/
  stored : (∃ x, i = .stopRestart x ∧ s.mode = .addrWrite ∧ s.errorLatched = false) ∨
    (u.store = s.store ∧ u.qRing = s.qRing ∧ u.qTail = s.qTail ∧ u.qFull = s.qFull)
  /-- one response, `RELEASE` exactly for `BUS_ERROR`, with a byte only where one is produced (R94, R95, R140) -/
  answer : ∃ r : Response, u.out = .response r ∧ r.action ≠ .hold ∧
    (r.action = .release ↔ ∃ x, i = .busError x) ∧ (readStart i s = none → r.txdata = 0x00)

/-- The catch-all has these properties for every event it stands in for. -/
theorem ruleFacts_catchAll {i : Instr} {s : State} (hm : modeAfter s.cfg.gcEnable i s.mode = .idle)
    (hb : ¬∃ x, i = .busError x) : RuleFacts i s (catchAll (s.setNewStatus 0)) where
  kept := ⟨rfl, rfl, rfl, rfl⟩
  mode := hm.symm
  status := .inl rfl
  sticky := fun _ h => ⟨h, rfl⟩
  stored := .inr ⟨rfl, rfl, rfl, rfl⟩
  answer := ⟨_, rfl, by simp, by simpa using hb, fun _ => rfl⟩

theorem ruleFacts_dataReceived {i : Instr} {b : Byte} {s u : State} (hi : i = .dataRx b ∨ i = .dataRxGc b)
    (h : runEnabled s.inWritePhase (dataReceived b) (s.setNewStatus 0) = .ok u) : RuleFacts i s u := by
  by_cases hm : s.mode = .addrWrite
  · rw [inWritePhase_of_mode hm, runEnabled_true] at h
    obtain ⟨v, hv, rfl⟩ := dataReceived_eq_ok.1 h
    obtain ⟨hl, hf⟩ := receiveCase_frame hv
    have hs := hl.newStatus_cases rfl
    have hmode : v.mode = s.mode := by rw [hf]; rfl
    exact
      { kept := by rw [hf]; exact ⟨rfl, rfl, rfl, rfl⟩
        mode := by rcases hi with rfl | rfl <;> exact hmode.trans (by rw [hm]; rfl)
        status := hs.imp (·.1) fun h => ⟨h.1, h.2.1⟩
        sticky := fun _ he => hl.of_latched he
        stored := .inr (by rw [hf]; exact ⟨rfl, rfl, rfl, rfl⟩)
        answer := ⟨_, rfl, by simp, by rcases hi with rfl | rfl <;> simp, fun _ => rfl⟩ }
  · have hn : s.inWritePhase = false := by simp [State.inWritePhase, hm]
    rw [hn, runEnabled_false, ok_eq_ok] at h
    subst h
    refine ruleFacts_catchAll ?_ (by rcases hi with rfl | rfl <;> simp)
    rcases hi with rfl | rfl <;> cases hc : s.mode <;> simp_all [modeAfter]

theorem ruleFacts_closeWritePhase {x : Byte} {s u : State}
    (h : runEnabled s.inWritePhase closeWritePhase (s.setNewStatus 0) = .ok u) : RuleFacts (.stopRestart x) s u := by
  by_cases hm : s.mode = .addrWrite
  · rw [inWritePhase_of_mode hm, runEnabled_true] at h
    obtain ⟨v, hv, rfl⟩ := closeWritePhase_eq_ok.1 h
    have hf := commitPoint_frame hv
    have he : v.errorLatched = s.errorLatched := by rw [hf]; rfl
    have hn : v.newStatus = 0 := by rw [hf]; rfl
    exact
      { kept := by rw [hf]; exact ⟨rfl, rfl, rfl, rfl⟩
        mode := by rw [hm]; rfl
        status := .inl hn
        sticky := fun _ h => ⟨he.trans h, hn⟩
        stored := by
          cases hl : s.errorLatched with
          | false => exact .inl ⟨x, rfl, hm, rfl⟩
          | true =>
            rcases commitPoint_eq_ok.1 hv with ⟨-, rfl⟩ | ⟨h, -⟩
            · exact .inr ⟨rfl, rfl, rfl, rfl⟩
            · exact absurd (hl.symm.trans h) (by simp)
        answer := ⟨_, rfl, by simp, by simp, fun _ => rfl⟩ }
  · have hn : s.inWritePhase = false := by simp [State.inWritePhase, hm]
    rw [hn, runEnabled_false, ok_eq_ok] at h
    subst h
    refine ruleFacts_catchAll ?_ (by simp)
    cases hc : s.mode <;> simp_all [modeAfter]

/-- The two events that produce a byte (R171, R178). -/
theorem ruleFacts_transmitNext {i : Instr} {s r u : State} (hr : readStart i s = some r)
    (hk : opensPhase s.cfg.gcEnable i = false → r.errorLatched = s.errorLatched)
    (ha : r.busActive = s.busActive) (hq : r.input = s.input ∧ r.qRing = s.qRing ∧ r.qHead = s.qHead ∧ r.qTail = s.qTail ∧ r.qFull = s.qFull)
    (hm : modeAfter s.cfg.gcEnable i s.mode = .addrRead) (hb : ¬∃ x, i = .busError x)
    (h : transmitNext r = .ok u) : RuleFacts i s u := by
  obtain ⟨hn, hc, hst, hmode, -⟩ := exec_of_readStart hr
  obtain ⟨b, v, hv, rfl⟩ := transmitNext_eq_ok.1 h
  obtain ⟨hl, hf⟩ := produceCase_frame hv
  have hs := hl.newStatus_cases hn
  exact
    { kept := by rw [hf]; exact ⟨hc, hq.1, hq.2.2.1, ha⟩
      mode := by rw [hf, hm]; exact hmode
      status := hs.imp (·.1) fun h => ⟨h.1, h.2.1⟩
      sticky := fun ho he =>
        have := hl.of_latched ((hk ho).trans he)
        ⟨this.1, this.2.trans hn⟩
      stored := .inr (by rw [hf]; exact ⟨hst, hq.2.1, hq.2.2.2.1, hq.2.2.2.2⟩)
      answer := ⟨_, rfl, by simp, by simpa using hb, fun h => by rw [hr] at h; simp at h⟩ }

theorem ruleFacts_openWritePhase {i : Instr} {a : Byte} {s : State}
    (hm : modeAfter s.cfg.gcEnable i s.mode = .addrWrite) (ho : opensPhase s.cfg.gcEnable i = true)
    (hb : ¬∃ x, i = .busError x) : RuleFacts i s (openWritePhase a (s.setNewStatus 0)) where
  kept := ⟨rfl, rfl, rfl, rfl⟩
  mode := hm.symm
  status := .inl rfl
  sticky := fun h => by rw [ho] at h; simp at h
  stored := .inr ⟨rfl, rfl, rfl, rfl⟩
  answer := ⟨_, rfl, by simp, by simpa using hb, fun _ => rfl⟩

/-- Every event's rule has these properties. -/
theorem ruleFacts_of_eventRule {i : Instr} {s u : State} {f : State → Except Stop State} (hf : eventRule i s = some f)
    (h : f (s.setNewStatus 0) = .ok u) : RuleFacts i s u := by
  cases i with
  | busError x =>
    simp only [eventRule, Option.some.injEq] at hf
    subst hf
    rw [ok_eq_ok] at h
    subst h
    exact
      { kept := ⟨rfl, rfl, rfl, rfl⟩
        mode := rfl
        status := .inl rfl
        sticky := fun _ h => ⟨h, rfl⟩
        stored := .inr ⟨rfl, rfl, rfl, rfl⟩
        answer := ⟨_, rfl, by simp, by simp, fun _ => rfl⟩ }
  | addrW a =>
    simp only [eventRule, Option.some.injEq] at hf
    subst hf
    rw [ok_eq_ok] at h
    subst h
    exact ruleFacts_openWritePhase rfl rfl (by simp)
  | addrGc a =>
    simp only [eventRule, Option.some.injEq] at hf
    subst hf
    cases hg : s.cfg.gcEnable with
    | true =>
      rw [hg, runEnabled_true, ok_eq_ok] at h
      subst h
      exact ruleFacts_openWritePhase (by simp [modeAfter, hg]) hg (by simp)
    | false =>
      rw [hg, runEnabled_false, ok_eq_ok] at h
      subst h
      exact ruleFacts_catchAll (by simp [modeAfter, hg]) (by simp)
  | dataRx b =>
    simp only [eventRule, Option.some.injEq] at hf
    subst hf
    exact ruleFacts_dataReceived (.inl rfl) h
  | dataRxGc b =>
    simp only [eventRule, Option.some.injEq] at hf
    subst hf
    exact ruleFacts_dataReceived (.inr rfl) h
  | stopRestart x =>
    simp only [eventRule, Option.some.injEq] at hf
    subst hf
    exact ruleFacts_closeWritePhase h
  | addrR a =>
    simp only [eventRule, Option.some.injEq] at hf
    subst hf
    refine ruleFacts_transmitNext (readStart_addrR a s) (fun h => by simp [opensPhase] at h) ?_ ?_ rfl (by simp) h <;>
      rw [openReadPhase_eq]
    exact ⟨rfl, rfl, rfl, rfl, rfl⟩
  | dataTxAck x =>
    simp only [eventRule, Option.some.injEq] at hf
    subst hf
    by_cases hm : s.mode = .addrRead
    · rw [inReadPhase_of_mode hm, runEnabled_true] at h
      exact ruleFacts_transmitNext (r := s.setNewStatus 0) (if_pos hm) (fun _ => rfl) rfl ⟨rfl, rfl, rfl, rfl, rfl⟩
        (by rw [hm]; rfl) (by simp) h
    · have hn : s.inReadPhase = false := by simp [State.inReadPhase, hm]
      rw [hn, runEnabled_false, ok_eq_ok] at h
      subst h
      refine ruleFacts_catchAll ?_ (by simp)
      cases hc : s.mode <;> simp_all [modeAfter]
  | dataTxNack x =>
    simp only [eventRule, Option.some.injEq] at hf
    subst hf
    have : u = catchAll (s.setNewStatus 0) := by
      cases hp : s.inReadPhase with
      | true => rw [hp, runEnabled_true, ok_eq_ok] at h; exact h
      | false => rw [hp, runEnabled_false, ok_eq_ok] at h; exact h
    subst this
    exact ruleFacts_catchAll rfl (by simp)
  | unrecognized c x =>
    simp only [eventRule, Option.some.injEq] at hf
    subst hf
    rw [ok_eq_ok] at h
    subst h
    exact ruleFacts_catchAll rfl (by simp)
  | _ => simp [eventRule] at hf

end Sys2Proof.Machine
end

