-- ==== Sys2Proof/Laws/PerInstr.lean ====
section
/-!
SUPPORT. Per operation: the encoding of an operation is a word of the interface whose context may issue it
(spec/60_exceptions.md R215), so that placing it makes a move of the right context.
-/

namespace Sys2Proof.Laws.EncodedForItsContext

open Sys2Proof.Machine

/-- The move that places the encoding of `i` comes from the context that may issue `i`. -/
def Statement (i : Instr) : Prop := requestOf (encode i) = .op i.context (encode i)

theorem busError (data : Byte) : Statement (.busError data) := rfl
theorem addrW (a : Byte) : Statement (.addrW a) := rfl
theorem addrGc (a : Byte) : Statement (.addrGc a) := rfl
theorem dataRx (b : Byte) : Statement (.dataRx b) := rfl
theorem dataRxGc (b : Byte) : Statement (.dataRxGc b) := rfl
theorem stopRestart (data : Byte) : Statement (.stopRestart data) := rfl
theorem addrR (a : Byte) : Statement (.addrR a) := rfl
theorem dataTxAck (data : Byte) : Statement (.dataTxAck data) := rfl
theorem dataTxNack (data : Byte) : Statement (.dataTxNack data) := rfl
theorem unrecognized (code data : Byte) : Statement (.unrecognized code data) := rfl
theorem qDepth : Statement .qDepth := rfl
theorem qPop : Statement .qPop := rfl
theorem crcReset : Statement .crcReset := rfl
theorem crcUpdate (b : Byte) : Statement (.crcUpdate b) := rfl
theorem crcValue : Statement .crcValue := rfl
theorem qPush (e : QEntry) : Statement (.qPush e) := rfl

end Sys2Proof.Laws.EncodedForItsContext
end

