-- ==== Sys2Proof/Laws/Step.lean ====
section
/-!
SUPPORT. What one operation and one step of the machine can do: the operations that are no event (spec/40, spec/41), and
the moves of the input queue (spec/20 R80, spec/60 R215).
-/

namespace Sys2Proof.Machine

/-- The operations that are no event write `pec` and the queue registers, and keep the ring. -/
theorem exec_of_not_event {i : Instr} {s t : State} (hi : isEvent i = false) (h : exec i s = .next t) :
    t = { s with
      pec := t.pec, qRing := t.qRing, qHead := t.qHead, qTail := t.qTail, qFull := t.qFull, out := t.out } ∧
    (s.QueueSound → t.QueueSound) := by
  have keep : ∀ {u v : State}, u.QueueSound → v.cfg = u.cfg → v.qRing = u.qRing → v.qHead = u.qHead →
      v.qTail = u.qTail → v.qFull = u.qFull → v.QueueSound := fun hu h1 h2 h3 h4 h5 =>
    ⟨by rw [h1, h2]; exact hu.1, by rw [h1, h3]; exact hu.2, by rw [h1, h4]; exact hu.3, by rw [h3, h4, h5]; exact hu.4⟩
  cases i with
  | qDepth => injection h with h; subst h; exact ⟨rfl, fun h => keep h rfl rfl rfl rfl rfl⟩
  | qPop =>
    obtain ⟨⟨e, u⟩, hu, h⟩ := bind_eq_ok.1 (toOutcome_eq_next.1 (h : execQPop s = _))
    rw [ok_eq_ok] at h
    subst h
    rcases queuePop_eq_ok.1 hu with ⟨-, h⟩ | ⟨-, e, -, h⟩ <;> simp only [Prod.mk.injEq] at h <;> obtain ⟨-, rfl⟩ := h
    · exact ⟨rfl, fun h => keep h rfl rfl rfl rfl rfl⟩
    · exact ⟨rfl, fun h => keep (queueSound_setPopped h) rfl rfl rfl rfl rfl⟩
  | crcReset => injection h with h; subst h; exact ⟨rfl, fun h => keep h rfl rfl rfl rfl rfl⟩
  | crcUpdate b => injection h with h; subst h; exact ⟨rfl, fun h => keep h rfl rfl rfl rfl rfl⟩
  | crcValue => injection h with h; subst h; exact ⟨rfl, fun h => keep h rfl rfl rfl rfl rfl⟩
  | qPush e =>
    obtain ⟨⟨e, u⟩, hu, h⟩ := bind_eq_ok.1 (toOutcome_eq_next.1 (h : execQPush _ s = _))
    rw [ok_eq_ok] at h
    subst h
    rcases queuePush_eq_ok.1 hu with ⟨-, h⟩ | ⟨-, -, h⟩ <;> simp only [Prod.mk.injEq] at h <;> obtain ⟨-, rfl⟩ := h
    · exact ⟨rfl, fun h => keep h rfl rfl rfl rfl rfl⟩
    · exact ⟨rfl, fun h => keep (queueSound_setPushed h _) rfl rfl rfl rfl rfl⟩
  | _ => simp [isEvent] at hi

/-- An event's next state, through its rule and the merge. -/
theorem exec_of_event {i : Instr} {s t : State} (hi : isEvent i = true) (h : exec i s = .next t) :
    ∃ u, RuleFacts i s u ∧ postEventMerge u = .ok t ∧ t = u.setStore t.store := by
  obtain ⟨f, hf⟩ := eventRule_isSome hi s
  obtain ⟨u, hu, hm⟩ := (exec_event_eq_next hf).1 h
  exact ⟨u, ruleFacts_of_eventRule hf hu, hm, postEventMerge_frame hm⟩

/-- No operation writes the configuration, the input queue or whether the bus is active. -/
theorem exec_kept {i : Instr} {s t : State} (h : exec i s = .next t) :
    t.cfg = s.cfg ∧ t.input = s.input ∧ t.busActive = s.busActive := by
  cases hi : isEvent i with
  | true =>
    obtain ⟨u, hu, -, ht⟩ := exec_of_event hi h
    rw [ht]; exact ⟨hu.kept.1, hu.kept.2.1, hu.kept.2.2.2⟩
  | false => rw [(exec_of_not_event hi h).1]; exact ⟨rfl, rfl, rfl⟩

/-- `PAGE` holds a legal value exactly if the byte read there passes the range check (R36). -/
theorem pageLegalNow_iff {s : State} {p : Byte} (h : pageValue s = .ok p) :
    PageLegalNow s ↔ pageByteLegal s.cfg p = true := by
  unfold PageLegalNow PageByteOk pageByteLegal pageNone
  rw [Bool.or_eq_true, decide_eq_true_iff, decide_eq_true_iff]
  exact ⟨fun ⟨q, hq, hl⟩ => by rw [h] at hq; injection hq with hq; rwa [hq], fun hl => ⟨p, h, hl⟩⟩

/-- The dispatcher is entered while the bus is active, or for the first time with a legal page, which makes it active. -/
theorem enterDispatcher_eq_ok {s t : State} :
    enterDispatcher s = .ok t ↔ (s.busActive = true ∨ PageLegalNow s) ∧ t = s.setBusActive true := by
  unfold enterDispatcher
  cases ha : s.busActive with
  | true =>
    have hs : s.setBusActive true = s := by rw [← ha]; rfl
    simp [hs, eq_comm]
  | false =>
    cases hp : pageValue s with
    | error e => simp [PageLegalNow, hp, bind, Except.bind]
    | ok p =>
      rw [pageLegalNow_iff hp]
      by_cases hl : pageByteLegal s.cfg p = true <;> simp [hl, bind, Except.bind, eq_comm]

/-- Only the dispatcher's context is checked. -/
theorem enterContext_eq_ok {c : Context} {s t : State} :
    enterContext c s = .ok t ↔
      (c = .application ∧ t = s) ∨
        (c = .interrupt ∧ (s.busActive = true ∨ PageLegalNow s) ∧ t = s.setBusActive true) := by
  cases c with
  | application => simp only [enterContext, ok_eq_ok, true_and, reduceCtorEq, false_and, or_false, eq_comm]
  | interrupt => simp only [enterContext, enterDispatcher_eq_ok, true_and, reduceCtorEq, false_and, false_or]

/-- An operation that answers a next state was run in its context. -/
theorem runInContext_eq_next {i : Instr} {s t : State} :
    runInContext i s = .next t ↔ ∃ u, enterContext i.context s = .ok u ∧ exec i u = .next t := by
  unfold runInContext
  cases enterContext i.context s with
  | ok u => simp
  | error e => cases e <;> simp [toOutcome]

/-- A step that answers a next state found no move, or took the oldest one; that one answered without an operation, was a
write of the application, reset the block, or ran an operation in its context. -/
theorem step_eq_next {s t : State} (h : step s = .next t) :
    s.cfg.wf = true ∧
    ((s.input = [] ∧ t = s) ∨
      ∃ r rest, s.input = r :: rest ∧
        ((∃ o, t = { s with input := rest, out := o }) ∨
          (∃ a v, r = .appWrite a v ∧ storeValid s.cfg a.toNat = true ∧
            t = { s with input := rest, store := Memory.write s.store a.toNat v, out := .nothing }) ∨
          (r = .reset ∧ t = resetBlock (s.setInput rest)) ∨
          ∃ i u, enterContext i.context (s.setInput rest) = .ok u ∧ exec i u = .next t)) := by
  unfold step stepLaunched at h
  split at h
  · rename_i hw
    refine ⟨hw, ?_⟩
    unfold runNext at h
    split at h
    · rename_i hin
      injection h with h
      exact .inl ⟨hin, h.symm⟩
    · rename_i r rest hin
      refine .inr ⟨r, rest, hin, ?_⟩
      unfold runRequest at h
      split at h
      · unfold runWord at h
        split at h
        · split at h
          · exact .inr (.inr (.inr ⟨_, runInContext_eq_next.1 h⟩))
          · simp at h
        · split at h
          · injection h with h; exact .inl ⟨_, h.symm⟩
          · simp at h
        · simp at h
        · simp at h
      · obtain ⟨b, -, h⟩ := bind_eq_ok.1 (toOutcome_eq_next.1 h)
        rw [ok_eq_ok] at h
        exact .inl ⟨_, h⟩
      · obtain ⟨u, hu, h⟩ := bind_eq_ok.1 (toOutcome_eq_next.1 h)
        obtain ⟨hv, rfl⟩ := storeWrite_eq_ok.1 hu
        rw [ok_eq_ok] at h
        exact .inr (.inl ⟨_, _, rfl, hv, h⟩)
      · injection h with h
        exact .inr (.inr (.inl ⟨rfl, h.symm⟩))
  · simp at h

end Sys2Proof.Machine
end

