-- ==== Sys2Proof/Tests/Slice0.lean ====
section
/-!
SUPPORT. The model's own tests: ill-formed terms refused, one decoded word per operation, single steps with the results
that spec/95_test_vectors.md lists (each test names its vector), and for every statement of
Certificates/Slice0/Obligations.lean that has hypotheses one state and operands that meet them, for each of its
clauses.
-/

namespace Sys2Proof.Tests

open Sys2Proof Sys2Proof.Machine

/-! ### The test configuration of spec/95_test_vectors.md section 2 -/

def desc00 : Descriptor := Descriptor.pageSelect 0x0100
def desc10 : Descriptor := ⟨0x10, 0, 2, 2, 0x0110⟩
def desc20 : Descriptor := ⟨0x20, 1, 2, 2, 0x0120⟩
def desc21 : Descriptor := ⟨0x21, 7, 4, 4, 0x0190⟩
def desc30 : Descriptor := ⟨0x30, 6, 4, 4, 0x0130⟩
def desc31 : Descriptor := ⟨0x31, 2, 3, 3, 0x0138⟩
def desc40 : Descriptor := ⟨0x40, 0, 0, 0, 0x0000⟩
def desc50 : Descriptor := ⟨0x50, 0, 1, 0, 0x0150⟩
def desc60 : Descriptor := ⟨0x60, 0, 0, 1, 0x0160⟩
def desc79 : Descriptor := ⟨0x79, 1, 2, 0, 0x0180⟩
def desc7E : Descriptor := ⟨0x7E, 0, 1, 1, 0x017E⟩

/-- The test configuration, with one command more (21, a paged block command) for the clauses about paged blocks. -/
def config : Config :=
  { Config.launch with
    table := [desc00, desc10, desc20, desc21, desc30, desc31, desc40, desc50, desc60, desc79, desc7E]
    index := [(0x00, 0), (0x10, 1), (0x20, 2), (0x21, 3), (0x30, 4), (0x31, 5), (0x40, 6), (0x50, 7), (0x60, 8),
      (0x79, 9), (0x7E, 10)] }

/-- The start state of the vectors, with these bytes in backing storage. -/
def start (m : Memory) : State := State.launch config m

/-- A write phase of command `d` with `rxIndex`, `writeLength`, `pec` and the staged bytes. -/
def writing (d : Descriptor) (rx : Counter) (len : Length) (pec : Byte) (staged : Memory) : State :=
  { start [] with
    mode := .addrWrite, activeDesc := some d, activeCode := d.code, rxIndex := rx, writeLength := len, pec := pec,
    scratch := staged }

/-- A read phase of command `d` with `txIndex` and `pec`. -/
def reading (d : Descriptor) (tx : Counter) (pec : Byte) : State :=
  { start [] with mode := .addrRead, activeDesc := some d, activeCode := d.code, txIndex := tx, pec := pec }

/-- A ring of three with two entries, the oldest at its end. -/
def ring (head tail : Nat) (full : Bool) : State :=
  { State.launch { config with qCapacity := 3 } [] with
    qRing := [⟨0x05, 0x01⟩, ⟨0x02, 0x00⟩, ⟨0x03, 0x01⟩], qHead := head, qTail := tail, qFull := full }

/-- Does the operation answer a next state with this property? -/
def gives (i : Instr) (s : State) (p : State → Bool) : Bool :=
  match exec i s with
  | .next t => p t
  | .fault _ => false
  | .refused _ => false

/-- Does the step on this event word answer with this response word and a state with this property? -/
def stepGives (w : Nat) (s : State) (response : BitVec 10) (p : State → Bool) : Bool :=
  match step (s.withFetchWord 16 w) with
  | .next t => (match t.out with | .response r => decide (r.word = response) | _ => false) && p t
  | .fault _ => false
  | .refused _ => false

/-! ### Well-formedness -/

theorem test_wf_unnamed_code : (Instr.unrecognized 0xF8 0x00).wf = true := by decide
/-- 60 is the code of `ADDR_W`, so no `UNRECOGNIZED` has it. -/
theorem test_wf_refuses_named_code : (Instr.unrecognized 0x60 0x00).wf = false := by decide
theorem test_wf_configuration : config.wf = true := by decide
/-- R63 (e): a fault byte outside the allocated storage. -/
theorem test_wf_refuses_configuration : { config with cmlAddr := 0x0200 }.wf = false := by decide

/-! ### Decoding: one word per operation, written from R92, R96, R97 and the notation of R109 -/

theorem test_decode_busError : decode (.event 0b0000000011111111) = .ok (.busError 0xFF) := by decide
theorem test_decode_addrW : decode (.event 0b0110000001000000) = .ok (.addrW 0x40) := by decide
theorem test_decode_addrGc : decode (.event 0b0111000000000001) = .ok (.addrGc 0x01) := by decide
theorem test_decode_dataRx : decode (.event 0b1000000000010000) = .ok (.dataRx 0x10) := by decide
theorem test_decode_dataRxGc : decode (.event 0b1001000000010001) = .ok (.dataRxGc 0x11) := by decide
theorem test_decode_stopRestart : decode (.event 0b1010000000000000) = .ok (.stopRestart 0x00) := by decide
theorem test_decode_addrR : decode (.event 0b1010100001000001) = .ok (.addrR 0x41) := by decide
theorem test_decode_dataTxAck : decode (.event 0b1011100000000000) = .ok (.dataTxAck 0x00) := by decide
theorem test_decode_dataTxNack : decode (.event 0b1100000000000000) = .ok (.dataTxNack 0x00) := by decide
theorem test_decode_unrecognized : decode (.event 0b1111100000000001) = .ok (.unrecognized 0xF8 0x01) := by decide
theorem test_decode_qDepth : decode (.app 0b01) = .ok .qDepth := by decide
theorem test_decode_qPop : decode (.app 0b10) = .ok .qPop := by decide
theorem test_decode_crcReset : decode (.internal 0b000 []) = .ok .crcReset := by decide
theorem test_decode_crcUpdate : decode (.internal 0b001 [0xAA]) = .ok (.crcUpdate 0xAA) := by decide
theorem test_decode_crcValue : decode (.internal 0b010 []) = .ok .crcValue := by decide
theorem test_decode_qPush : decode (.internal 0b011 [0x40, 0x01]) = .ok (.qPush ⟨0x40, 0x01⟩) := by decide
theorem test_decode_reserved : decode (.app 0) = .error .reservedAppOp ∧ decode (.app 3) = .error .reservedAppOp ∧
    decode (.internal 4 []) = .error .unnamedInternal := by decide

/-- The numbering of spec/opcode_table.json. -/
theorem test_table_words : decodeTableWord 16 0x6040 = some (.addrW 0x40) ∧
    decodeTableWord 2 1 = some .qDepth ∧ decodeTableWord 8 2 = some .qPop ∧ decodeTableWord 3 1 = some (.crcUpdate 0) ∧
    decodeTableWord 3 2 = some .crcValue ∧ decodeTableWord 8 0 = some .crcReset ∧
    decodeTableWord 8 3 = some (.qPush ⟨0, 0⟩) ∧ decodeTableWord 8 4 = none := by decide

/-! ### Single steps -/

/-- M1. -/
theorem test_busError : stepGives 0x0000 (writing desc10 2 2 0x8E [(0, 0xAA)]) 0x200 (fun t =>
    decide (t.mode = .idle ∧ t.pec = 0x8E ∧ t.rxIndex = 2 ∧ t.activeDesc = some desc10 ∧ t.store = [])) = true := by
  decide

/-- W1. -/
theorem test_addrW : stepGives 0x6040 (start []) 0x000 (fun t =>
    decide (t.mode = .addrWrite ∧ t.pec = 0xC7 ∧ t.rxIndex = 0 ∧ t.errorLatched = false)) = true := by decide

/-- M5: a write match in the middle of a read starts over and leaves `txIndex`. -/
theorem test_addrW_in_read : stepGives 0x6040 (reading desc10 2 0x28) 0x000 (fun t =>
    decide (t.mode = .addrWrite ∧ t.pec = 0xC7 ∧ t.rxIndex = 0 ∧ t.txIndex = 2)) = true := by decide

/-- W23, first event. -/
theorem test_addrGc : stepGives 0x7000 (start []) 0x000 (fun t =>
    decide (t.mode = .addrWrite ∧ t.pec = 0x00)) = true := by decide

/-- W24, first event: general calls are not delivered. -/
theorem test_addrGc_disabled : stepGives 0x7000 (State.launch { config with gcEnable := false } []) 0x000
    (fun t => decide (t.mode = .idle)) = true := by decide

/-- W3. -/
theorem test_dataRx : stepGives 0x80AA (writing desc10 1 2 0x2B []) 0x000 (fun t =>
    decide (t.scratch = [(0, 0xAA)] ∧ t.pec = 0x8E ∧ t.rxIndex = 2 ∧ t.store = [])) = true := by decide

/-- W6: a wrong PEC. -/
theorem test_dataRx_wrong_pec : stepGives 0x8000 (writing desc10 3 2 0x8B [(0, 0xAA), (1, 0xBB)]) 0x000 (fun t =>
    decide (t.errorLatched = true ∧ t.store = [(0x17E, 0x20), (0x180, 0x02), (0x182, 0x02)] ∧ t.pec = 0x8B ∧
      t.rxIndex = 4)) = true := by decide

/-- W23, second event. -/
theorem test_dataRxGc : stepGives 0x9010 { start [] with mode := .addrWrite } 0x000 (fun t =>
    decide (t.pec = 0x70 ∧ t.activeDesc = some desc10 ∧ t.writeLength = 2 ∧ t.rxIndex = 1)) = true := by
  decide

/-- W24, second event: a data byte is not enabled in `IDLE`. -/
theorem test_dataRxGc_idle : stepGives 0x9010 (start []) 0x000 (fun t =>
    decide (t.mode = .idle ∧ t.rxIndex = 0 ∧ t.activeDesc = none)) = true := by decide

/-- W7. -/
theorem test_stopRestart : stepGives 0xA000 (writing desc10 3 2 0x8B [(0, 0xAA), (1, 0xBB)]) 0x000 (fun t =>
    decide (t.mode = .writeEnded ∧ t.store = [(0x110, 0xAA), (0x111, 0xBB)] ∧ t.pec = 0x8B ∧ t.rxIndex = 3)) = true := by
  decide

/-- W18: a send-byte command takes the page with it. -/
theorem test_stopRestart_sendByte :
    stepGives 0xA000 { writing desc40 1 0 0x9C [] with store := [(0x100, 0x01)] } 0x000 (fun t =>
      decide (t.qRing = [⟨0x40, 0x01⟩, ⟨0x00, 0x00⟩] ∧ t.qTail = 1 ∧ t.mode = .writeEnded)) = true := by
  decide

/-- RD1. -/
theorem test_addrR : stepGives 0xA841
    { start [(0x110, 0xAA), (0x111, 0xBB)] with
      mode := .writeEnded, pec := 0x2B, activeDesc := some desc10, activeCode := 0x10 } 0x0AA (fun t =>
    decide (t.pec = 0x28 ∧ t.txIndex = 2 ∧ t.mode = .addrRead ∧ t.errorLatched = false)) = true := by decide +kernel

/-- RD13: the first byte of a paged read while no page is selected. -/
theorem test_addrR_illegal_page : stepGives 0xA841
    { start [(0x100, 0xFF)] with
      mode := .writeEnded, pec := 0xBB, activeDesc := some desc20, activeCode := 0x20 } 0x000 (fun t =>
    decide (t.pec = 0xE8 ∧ t.errorLatched = true ∧ Memory.read t.store 0x17E = 0x40)) = true := by decide

/-- RD3. -/
theorem test_dataTxAck : stepGives 0xB800 (reading desc10 3 0xF0) 0x0F0 (fun t =>
    decide (t.pec = 0xF0 ∧ t.txIndex = 4 ∧ t.errorLatched = false)) = true := by decide

/-- RD4. -/
theorem test_dataTxAck_over : stepGives 0xB800 (reading desc10 4 0xF0) 0x0FF (fun t =>
    decide (t.errorLatched = true ∧ t.store = [(0x17E, 0x02), (0x180, 0x02), (0x182, 0x02)] ∧ t.txIndex = 5)) = true := by
  decide

/-- RD6. -/
theorem test_dataTxNack : stepGives 0xC000 (reading desc10 4 0xF0) 0x000 (fun t =>
    decide (t.mode = .idle ∧ t.pec = 0xF0 ∧ t.txIndex = 4 ∧ t.activeDesc = some desc10)) = true := by decide

/-- M3. -/
theorem test_unrecognized : stepGives 0xF800 (writing desc10 1 2 0x2B []) 0x000 (fun t =>
    decide (t.mode = .idle ∧ t.pec = 0x2B ∧ t.rxIndex = 1)) = true := by decide

/-- Q7 and the depth formula after it. -/
theorem test_qPop : gives .qPop (ring 1 1 true) (fun t =>
    decide (t.out = .popped true 0x02 0x00 ∧ t.qHead = 2 ∧ t.qFull = false)) = true := by decide
theorem test_qDepth : gives .qDepth (ring 2 1 false) (fun t => decide (t.out = .depth 2)) = true := by decide
/-- Q10. -/
theorem test_qPop_empty : gives .qPop (ring 1 1 false) (fun t =>
    decide (t.out = .popped false 0x00 0x00 ∧ t.qHead = 1 ∧ t.qTail = 1 ∧ t.qFull = false)) = true := by decide
/-- Q6. -/
theorem test_qPush : gives (.qPush ⟨0x07, 0x01⟩) (ring 1 0 false) (fun t =>
    decide (t.out = .pushed true ∧ t.qRing = [⟨0x07, 0x01⟩, ⟨0x02, 0x00⟩, ⟨0x03, 0x01⟩] ∧ t.qTail = 1 ∧
      t.qFull = true)) = true := by decide
/-- Q4. -/
theorem test_qPush_full : gives (.qPush ⟨0x04, 0x00⟩) (ring 0 0 true) (fun t =>
    decide (t.out = .pushed false ∧ t.qRing = (ring 0 0 true).qRing ∧ t.qTail = 0 ∧ t.qFull = true)) = true := by
  decide
/-- K4. -/
theorem test_crcUpdate : gives (.crcUpdate 0x10) { start [] with pec := 0xC7 } (fun t => decide (t.pec = 0x2B)) = true := by
  decide
theorem test_crcReset : gives .crcReset { start [] with pec := 0xC7 } (fun t => decide (t.pec = 0x00)) = true := by
  decide
theorem test_crcValue : gives .crcValue { start [] with pec := 0xC7 } (fun t =>
    decide (t.pec = 0xC7 ∧ t.out = .crc 0xC7)) = true := by decide

/-- K16: the check value, over "123456789". -/
theorem test_crc_check_value : crcOver crcInit [0x31, 0x32, 0x33, 0x34, 0x35, 0x36, 0x37, 0x38, 0x39] = 0xF4 := by
  decide +kernel

/-- The listing of `T` in R121, one number per row of 16 bytes. -/
def crcRows : List Nat :=
  [0x00070E091C1B1215383F363124232A2D, 0x70777E796C6B6265484F464154535A5D,
    0xE0E7EEE9FCFBF2F5D8DFD6D1C4C3CACD, 0x90979E998C8B8285A8AFA6A1B4B3BABD,
    0xC7C0C9CEDBDCD5D2FFF8F1F6E3E4EDEA, 0xB7B0B9BEABACA5A28F88818693949D9A,
    0x2720292E3B3C35321F18111603040D0A, 0x5750595E4B4C45426F68616673747D7A,
    0x898E878095929B9CB1B6BFB8ADAAA3A4, 0xF9FEF7F0E5E2EBECC1C6CFC8DDDAD3D4,
    0x696E676075727B7C51565F584D4A4344, 0x191E171005020B0C21262F283D3A3334,
    0x4E49404752555C5B7671787F6A6D6463, 0x3E39303722252C2B0601080F1A1D1413,
    0xAEA9A0A7B2B5BCBB9691989F8A8D8483, 0xDED9D0D7C2C5CCCBE6E1E8EFFAFDF4F3]

/-- Row `r` of the table as one number. -/
def crcRow (r : Nat) : Nat := ((crcTable.drop (16 * r)).take 16).foldl (fun n b => 256 * n + b.toNat) 0

/-- The generated table is the listing of R121. -/
theorem test_crc_table : (List.range 16).map crcRow = crcRows := by decide

/-! ### Witnesses: a state and operands that meet the hypotheses of each statement -/

theorem gives_next {i : Instr} {s : State} {p : State → Bool} (h : gives i s p = true) :
    ∃ t, exec i s = .next t ∧ p t = true := by
  unfold gives at h
  split at h
  · exact ⟨_, by assumption, h⟩
  · simp at h
  · simp at h

/-- Does the step answer a next state with this property? -/
def steps (s : State) (p : State → Bool) : Bool :=
  match step s with
  | .next t => p t
  | .fault _ => false
  | .refused _ => false

theorem steps_next {s : State} {p : State → Bool} (h : steps s p = true) : ∃ t, step s = .next t ∧ p t = true := by
  unfold steps at h
  split at h
  · exact ⟨_, by assumption, h⟩
  · simp at h
  · simp at h

/-- W4 and W6: both payload bytes received. -/
def received : State := writing desc10 3 2 0x8B [(0, 0xAA), (1, 0xBB)]

/-- The same with a latched error. -/
def latched : State := { received with errorLatched := true }

/-- A state with one move pending. -/
def pending (s : State) (r : Request) : State := { s with input := [r] }

theorem witness_DecodeOfEncodeIsIdentity : (Instr.unrecognized 0xFF 0xFF).wf = true := by decide

/-- Page 1, the highest, and the sentinel are legal pages. -/
theorem pages_legal : PageLegalNow (start [(0x0100, 0x01)]) ∧ PageLegalNow (start [(0x0100, 0xFF)]) :=
  ⟨⟨0x01, by decide, .inl (by decide)⟩, ⟨0xFF, by decide, .inr rfl⟩⟩

/-- An operation of each context; the first event with a legal page, and one while the bus is active. -/
theorem witness_StepRunsTheDecodedOperation :
    ((pending received (.op .interrupt (.event 0xA000))).cfg.wf = true ∧
      (pending received (.op .interrupt (.event 0xA000))).input = .op .interrupt (.event 0xA000) :: [] ∧
      decode (.event 0xA000) = .ok (.stopRestart 0x00) ∧ Context.interrupt = (Instr.stopRestart 0x00).context ∧
      { received with busActive := true }.busActive = true) ∧
    PageLegalNow (start [(0x0100, 0x01)]) ∧ PageLegalNow (start [(0x0100, 0xFF)]) ∧
    ((pending received (.op .application (.app 2))).input = .op .application (.app 2) :: [] ∧
      decode (.app 2) = .ok .qPop ∧ Context.application = Instr.qPop.context) :=
  ⟨by decide, pages_legal.1, pages_legal.2, by decide⟩

/-- The application's `Q_POP` from the interrupt context, and the dispatcher's `Q_PUSH` from the application. -/
theorem witness_WrongContextIsRefused :
    ((pending received (.op .interrupt (.app 2))).cfg.wf = true ∧
      (pending received (.op .interrupt (.app 2))).input = .op .interrupt (.app 2) :: [] ∧
      decode (.app 2) = .ok .qPop ∧ Context.interrupt ≠ Instr.qPop.context) ∧
    ((pending received (.op .application (.internal 3 [0x40, 0x01]))).cfg.wf = true ∧
      (pending received (.op .application (.internal 3 [0x40, 0x01]))).input =
        .op .application (.internal 3 [0x40, 0x01]) :: [] ∧
      decode (.internal 3 [0x40, 0x01]) = .ok (.qPush ⟨0x40, 0x01⟩) ∧
      Context.application ≠ (Instr.qPush ⟨0x40, 0x01⟩).context) := by decide

theorem witness_ReservedApplicationOps :
    ((pending received (.op .application (.app 0))).cfg.wf = true ∧
      (pending received (.op .application (.app 0))).input = .op .application (.app 0) :: []) ∧
    ((pending received (.op .application (.app 3))).cfg.wf = true ∧
      (pending received (.op .application (.app 3))).input = .op .application (.app 3) :: []) := by decide

/-- The lowest and the highest allocated address, and their neighbours outside. -/
theorem witness_ApplicationAccess :
    (pending received (.appRead 0x0100)).cfg.wf = true ∧
    (pending received (.appRead 0x0100)).input = .appRead 0x0100 :: [] ∧
    (pending received (.appWrite 0x0100 0x01)).cfg.wf = true ∧
    (pending received (.appWrite 0x0100 0x01)).input = .appWrite 0x0100 0x01 :: [] ∧
    storeValid received.cfg (0x0100 : Address).toNat = true ∧ storeValid received.cfg (0x01FF : Address).toNat = true ∧
    storeValid received.cfg (0x00FF : Address).toNat = false ∧
    storeValid received.cfg (0x0200 : Address).toNat = false := by decide

/-- R216: an application write of `CML` clears it. -/
theorem test_application_write :
    (match step (pending { received with store := [(0x017E, 0x40)] } (.appWrite 0x017E 0x00)) with
      | .next t => decide (t.store = [] ∧ t.input = [] ∧ t.mode = .addrWrite)
      | .fault _ => false
      | .refused _ => false) = true := by decide

/-- R236: a first event with page 2, the lowest that is not legal, is refused; the application can still set the page,
and then the event runs. -/
theorem test_first_event_needs_legal_page :
    (match step (pending (start [(0x0100, 0x02)]) (.op .interrupt (.event 0x6040))) with
      | .refused r => decide (r = .pageNotInitialised 0x02)
      | .next _ => false
      | .fault _ => false) = true ∧
    (match step { start [(0x0100, 0x02)] with
        input := [.appWrite 0x0100 0xFF, .op .interrupt (.event 0x6040)] } with
      | .next t => steps t fun u => decide (u.mode = .addrWrite ∧ u.busActive = true)
      | .refused _ => false
      | .fault _ => false) = true := by decide

/-- R230: a reset in the middle of a write phase; storage stays. -/
theorem test_reset_move : steps (pending { latched with store := [(0x0110, 0xAA)], busActive := true } .reset)
    (fun t => decide (t.mode = .idle ∧ t.errorLatched = false ∧ t.pec = 0x00 ∧ t.rxIndex = 0 ∧ t.activeDesc = none ∧
      t.scratch = [] ∧ t.busActive = false ∧ t.store = [(0x0110, 0xAA)] ∧ t.cfg = config)) = true := by decide

/-- Each clause: an ill-formed configuration, a first event with page 2 and with page FE, no move, and a reset. -/
theorem witness_StepWithoutAnOperation :
    { config with numPages := 0 }.wf = false ∧ (start []).cfg.wf = true ∧ (start []).input = [] ∧
    (pending received .reset).cfg.wf = true ∧ (pending received .reset).input = .reset :: [] ∧
    ((start []).busActive = false ∧ decode (.event 0x6040) = .ok (.addrW 0x40) ∧
      (Instr.addrW 0x40).context = .interrupt ∧
      (pending (start []) (.op .interrupt (.event 0x6040))).input = .op .interrupt (.event 0x6040) :: []) ∧
    (pageValue (start [(0x0100, 0x02)]) = .ok 0x02 ∧ ¬(0x02 : Byte).toNat < config.numPages ∧ (0x02 : Byte) ≠ 0xFF) ∧
    (pageValue (start [(0x0100, 0xFE)]) = .ok 0xFE ∧ ¬(0xFE : Byte).toNat < config.numPages ∧ (0xFE : Byte) ≠ 0xFF) := by
  decide

theorem witness_ConfigurationNeverChanges : ∃ t,
    step (pending received (.op .interrupt (.event 0xA000))) = .next t ∧ decide (t.store ≠ []) = true :=
  steps_next (by decide)

theorem witness_LaunchIsSound : config.wf = true ∧ Memory.wf [(0x0100, 0x01), (0x01FF, 0xFF)] = true := by
  decide

/-- The state in the middle of a write meets the invariant. -/
theorem received_sound (m : Memory) (hm : Memory.wf m = true) (r : List Request) :
    { received with store := m, input := r }.Sound where
  configWf := test_wf_configuration
  storeWf := hm
  scratchRising := rfl
  scratchBelow := by
    intro j b h
    have h : Memory.get [(0, 0xAA), (1, 0xBB)] j = some b := h
    simp only [Memory.get] at h
    unfold scratchSize
    split at h
    · omega
    · split at h
      · omega
      · simp at h
  queue := ⟨rfl, Nat.zero_lt_two, Nat.zero_lt_two, fun _ => rfl⟩
  lengthBelow := show (2 : Length).toNat ≤ 256 by decide
  active := fun d h => Option.some.inj (h : some desc10 = some d) ▸ ⟨rfl, rfl⟩
  staged := fun _ _ _ d h => Option.some.inj (h : some desc10 = some d) ▸
    ⟨rfl, fun j hj =>
      match j, (hj : j < 2) with
      | 0, _ => ⟨0xAA, rfl⟩
      | 1, _ => ⟨0xBB, rfl⟩⟩

/-- The pending `STOP_RESTART` commits two bytes. -/
theorem witness_StepKeepsSound : ∃ s : State, s.Sound ∧ ∃ t, step s = .next t ∧ decide (t.store ≠ s.store) = true :=
  ⟨_, received_sound [] rfl [.op .interrupt (.event 0xA000)], steps_next (by decide)⟩

/-- In the test configuration no other command's storage holds the page register. -/
theorem config_pageIsolated : PageIsolated config := by
  intro d0 h0
  have h0 : some desc00 = some d0 := h0
  injection h0 with h0
  subst h0
  constructor
  · intro status w hw he
    have hk : (eventMerges config status).map (·.1) = [0x017E, 0x0180, 0x0181, 0x0182, 0x0183] := by
      have h1 : (eventMerges config 0).map (·.1) = [0x017E, 0x0180, 0x0181, 0x0182, 0x0183] := by decide
      rw [← h1]; simp [eventMerges]
    have hm : w.1 ∈ (eventMerges config status).map (·.1) := List.mem_map_of_mem hw
    rw [hk, he] at hm
    revert hm
    decide
  · intro code d hc hl j hj
    have hall : ∀ d ∈ config.table, d.code ≠ pageCommand → ∀ j, j < d.copies config.numPages * d.stride →
        d.storageAddress.toNat + j ≠ desc00.storageAddress.toNat := by decide
    refine hall d (Config.mem_table_of_lookup hl) ?_ j hj
    rw [Config.code_of_lookup test_wf_configuration hl]
    exact hc

/-- `PAGE` 1, the highest page, while command 10 is written. -/
theorem witness_StepKeepsPageLegal : ∃ s : State,
    s.Sound ∧ PageIsolated s.cfg ∧ PageLegalNow s ∧ (s.busActive = true → PageLegalNow s) ∧ StagedPageLegal s ∧
      LegalPageWrites s ∧ ∃ t, step s = .next t ∧ decide (t.busActive = true) = true :=
  ⟨_, received_sound [(0x0100, 0x01)] (by decide) [.op .interrupt (.event 0xA000)], config_pageIsolated,
    pages_legal.1, fun _ => pages_legal.1, fun _ _ _ h => absurd h (by decide),
    fun _ _ _ _ h => by simp at h, steps_next (p := fun t => decide (t.busActive = true)) (by decide)⟩

/-- An application write of the sentinel to the page register is a legal one. -/
theorem witness_LegalPageWrites : LegalPageWrites (pending received (.appWrite 0x0100 0xFF)) := by
  intro a v rest d0 h _ _
  simp only [pending, List.cons.injEq, Request.appWrite.injEq] at h
  exact .inr h.1.2.symm

/-- The page-select command with the sentinel staged meets the hypothesis about staged pages. -/
theorem witness_StagedPageLegal : StagedPageLegal (writing desc00 2 1 0x75 [(0, 0xFF)]) := by
  intro _ _ _ _ _ b h
  have h : some 0xFF = some b := h
  injection h with h
  exact .inr h.symm

/-- A sound state, and one whose page register holds 2, which R36 leaves to the application. -/
theorem witness_EveryEventCompletes :
    (∃ s : State, s.Sound ∧ isEvent (.stopRestart 0x00) = true) ∧
    (∃ s : State, s.Sound ∧ pageValue s = .ok 0x02 ∧ s.cfg.numPages ≤ (0x02 : Byte).toNat ∧ (0x02 : Byte) ≠ 0xFF) :=
  ⟨⟨_, received_sound [] rfl [], rfl⟩, ⟨_, received_sound [(0x0100, 0x02)] (by decide) [], rfl, by decide,
    by decide⟩⟩

theorem witness_ModeTransitionTable : ∃ t, exec (.stopRestart 0x00) received = .next t ∧
    decide (t.mode = .writeEnded) = true := gives_next (by decide)

theorem witness_OnlyAddressMatchClearsError : (∃ t, exec (.dataTxNack 0x00) latched = .next t ∧ true = true) ∧
    opensPhase latched.cfg.gcEnable (.dataTxNack 0x00) = false ∧ latched.errorLatched = true :=
  ⟨gives_next (by decide), by decide⟩

/-- A wrong PEC after an error. -/
theorem witness_LatchedErrorSuppresses : isEvent (.dataRx 0x00) = true ∧
    (∃ t, exec (.dataRx 0x00) latched = .next t ∧ true = true) ∧
    opensPhase latched.cfg.gcEnable (.dataRx 0x00) = false ∧ latched.errorLatched = true :=
  ⟨rfl, gives_next (by decide), by decide⟩

theorem witness_AtMostOneFaultPerEvent : isEvent (.dataRx 0x00) = true ∧
    ∃ t, exec (.dataRx 0x00) received = .next t ∧ decide (t.newStatus = 0x20) = true :=
  ⟨rfl, gives_next (by decide)⟩

/-- The first and the last byte a commit stores, and the fault byte after a merge. -/
theorem witness_StorageChangesOnlyAtCommitOrMerge :
    (∃ t, exec (.stopRestart 0x00) received = .next t ∧
      decide (Memory.read t.store 0x110 ≠ Memory.read received.store 0x110 ∧
        Memory.read t.store 0x111 ≠ Memory.read received.store 0x111) = true) ∧
    (∃ t, exec (.dataRx 0x00) received = .next t ∧
      decide (Memory.read t.store 0x17E ≠ Memory.read received.store 0x17E) = true) :=
  ⟨gives_next (by decide), gives_next (by decide)⟩

theorem witness_StorageBitsOnlySet : ∃ t, exec (.dataRx 0x00) { received with store := [(0x17E, 0x42)] } = .next t ∧
    decide (Memory.read t.store 0x17E = 0x62) = true := gives_next (by decide)

theorem witness_EveryEventAnswers : isEvent (.busError 0xFF) = true ∧
    (∃ t, exec (.busError 0xFF) received = .next t ∧ true = true) ∧ readStart (.busError 0xFF) received = none :=
  ⟨rfl, gives_next (by decide), rfl⟩

theorem witness_WriteAddressMatch : (Instr.addrGc 0x00 = .addrGc 0x00 ∧ received.cfg.gcEnable = true) ∧
    Instr.addrW 0x40 = .addrW 0x40 := by decide

theorem witness_CatchAllRecovers :
    { received with cfg := { config with gcEnable := false } }.cfg.gcEnable = false ∧
    (start []).mode ≠ .addrWrite ∧ received.mode ≠ .addrRead := by decide

theorem witness_SupportedCommandByte : (writing desc40 0 0 0xC7 []).mode = .addrWrite ∧
    (writing desc40 0 0 0xC7 []).rxIndex = 0 ∧ (writing desc40 0 0 0xC7 []).cfg.lookup 0x10 = some desc10 := by decide

/-- Without and with an error latched. -/
theorem witness_UnsupportedCommandByte : (writing desc10 0 2 0xC7 []).mode = .addrWrite ∧
    (writing desc10 0 2 0xC7 []).rxIndex = 0 ∧ config.lookup 0x99 = none ∧ config.statusValid = true ∧
    (writing desc10 0 2 0xC7 []).errorLatched = false ∧ { latched with rxIndex := 0 }.errorLatched = true := by
  decide

/-- After W9's first byte, and at the highest counter value. -/
theorem witness_SwallowedByte : { received with activeDesc := none, rxIndex := 1 }.rxIndex ≠ 0 ∧
    { received with activeDesc := none, rxIndex := 0xFFFF }.rxIndex ≠ 0 ∧
    { received with activeDesc := none }.activeDesc = none ∧ received.mode = .addrWrite := by decide

/-- W10: lengths 4 and 5, the highest allowed and the lowest that is not; and 255. -/
theorem witness_BlockLengthByte : (writing desc30 1 4 0xCB []).mode = .addrWrite ∧
    (writing desc30 1 4 0xCB []).rxIndex = 1 ∧ (writing desc30 1 4 0xCB []).activeDesc = some desc30 ∧
    desc30.block = true ∧ config.statusValid = true ∧ (0x04 : Byte).toNat ≤ desc30.writeLength.toNat ∧
    desc30.writeLength.toNat < (0x05 : Byte).toNat ∧ desc30.writeLength.toNat < (0xFF : Byte).toNat := by
  decide

/-- What `DataByteIsStaged` assumes of a state and its descriptor, but for the byte. -/
def stages (d : Descriptor) (s : State) : Bool :=
  decide (s.mode = .addrWrite ∧ s.activeDesc = some d ∧ 1 ≤ s.rxIndex.toNat ∧ ¬(d.block = true ∧ s.rxIndex = 1) ∧
    s.rxIndex.toNat ≤ s.writeLength.toNat ∧ s.writeLength.toNat ≤ 256 ∧ pageLegal d s = .ok true)

/-- The first and the last byte of command 10, the first byte of a block's payload, and the page values 01 and FF. -/
theorem witness_DataByteIsStaged :
    stages desc10 (writing desc10 1 2 0x2B []) = true ∧ stages desc10 (writing desc10 2 2 0x8E [(0, 0xAA)]) = true ∧
    stages desc30 (writing desc30 2 4 0x76 []) = true ∧ desc10.code ≠ 0x00 ∧ desc30.code ≠ 0x00 ∧
    stages desc00 (writing desc00 1 1 0x5B []) = true ∧
    (0x01 : Byte).toNat < (writing desc00 1 1 0x5B []).cfg.numPages ∧ (0xFF : Byte) = 0xFF := by decide

/-- What `DataByteIsRefused` assumes of a state and its descriptor, but for the reason. -/
def refuses (d : Descriptor) (s : State) : Bool :=
  decide (s.mode = .addrWrite ∧ s.activeDesc = some d ∧ 1 ≤ s.rxIndex.toNat ∧ ¬(d.block = true ∧ s.rxIndex = 1) ∧
    s.rxIndex.toNat ≤ s.writeLength.toNat ∧ s.cfg.statusValid = true)

/-- W15 and W16: no page selected; and the page values 02 and FE, the lowest and the highest forbidden. -/
theorem witness_DataByteIsRefused :
    (refuses desc20 { writing desc20 1 2 0xBB [] with store := [(0x100, 0xFF)] } = true ∧
      pageLegal desc20 { writing desc20 1 2 0xBB [] with store := [(0x100, 0xFF)] } = .ok false) ∧
    (refuses desc00 (writing desc00 1 1 0x5B []) = true ∧
      pageLegal desc00 (writing desc00 1 1 0x5B []) = .ok true ∧ desc00.code = 0x00 ∧
      (writing desc00 1 1 0x5B []).cfg.numPages ≤ (0x02 : Byte).toNat ∧ (0x02 : Byte) ≠ 0xFF ∧
      (writing desc00 1 1 0x5B []).cfg.numPages ≤ (0xFE : Byte).toNat ∧ (0xFE : Byte) ≠ 0xFF) := by decide

/-- What `PecPositionByte` assumes of a state and its descriptor. -/
def atPec (d : Descriptor) (s : State) : Bool :=
  decide (s.mode = .addrWrite ∧ s.activeDesc = some d ∧ ¬(d.block = true ∧ s.rxIndex = 1) ∧
    s.rxIndex.toNat = s.writeLength.toNat + 1 ∧ s.cfg.statusValid = true)

/-- W6 and the right PEC beside it; W14; and a send-byte command, which has neither length. -/
theorem witness_PecPositionByte :
    (atPec desc10 received = true ∧ desc10.writeLength ≠ 0 ∧ (0x8B : Byte) = received.pec ∧
      (0x00 : Byte) ≠ received.pec) ∧
    (atPec desc50 (writing desc50 1 0 0xEC []) = true ∧ desc50.writeLength = 0 ∧ desc50.readLength ≠ 0) ∧
    (atPec desc40 (writing desc40 1 0 0x9C []) = true ∧ desc40.readLength = 0) := by decide

/-- W8: the first excess byte, and one at the highest counter value. -/
theorem witness_ExcessByte : (writing desc10 4 2 0x8B []).mode = .addrWrite ∧
    (writing desc10 4 2 0x8B []).activeDesc = some desc10 ∧ (writing desc10 4 2 0x8B []).cfg.statusValid = true ∧
    (writing desc10 4 2 0x8B []).writeLength.toNat + 2 ≤ (writing desc10 4 2 0x8B []).rxIndex.toNat ∧
    (writing desc10 0xFFFF 2 0x8B []).writeLength.toNat + 2 ≤ (writing desc10 0xFFFF 2 0x8B []).rxIndex.toNat := by
  decide

/-- The test configuration with most-significant-byte-first storage. -/
def msbConfig : Config := { config with storageMsbFirst := true }

/-- W7, in either storage order. -/
theorem witness_PlainCommitStores : (msbConfig.storageMsbFirst = true ∧
      (∀ k, k < desc10.writeLength.toNat → storeValid msbConfig (0x110 + k) = true) ∧
      pageLegal desc10 { received with cfg := msbConfig } = .ok true ∧
      baseAddress desc10 { received with cfg := msbConfig } = .ok 0x110) ∧
    received.mode = .addrWrite ∧ received.errorLatched = false ∧
    1 ≤ received.rxIndex.toNat ∧ received.activeDesc = some desc10 ∧ desc10.block = false ∧
    desc10.writeLength ≠ 0 ∧ received.writeLength.toNat ≤ received.rxIndex.toNat - 1 ∧
    pageLegal desc10 received = .ok true ∧ baseAddress desc10 received = .ok 0x110 ∧
    (∀ k, k < desc10.writeLength.toNat → storeValid received.cfg (0x110 + k) = true) ∧
    (∀ k, k < desc10.writeLength.toNat → Memory.get received.scratch k = some (if k = 0 then 0xAA else 0xBB)) := by
  decide

/-- W11 and P3 row 8: a block of length 0 and one of length 3, with a stored length; and one without. -/
theorem witness_BlockCommitStores :
    (∀ w ∈ [(desc30, writing desc30 2 1 0x7F [], 0, 0x130),
        (desc30, writing desc30 5 4 0xDB [(0, 0xDE), (1, 0xAD), (2, 0xBE)], 3, 0x130),
        (desc31, writing desc31 5 4 0x00 [(0, 0xDE), (1, 0xAD), (2, 0xBE)], 3, 0x138)],
      w.2.1.mode = .addrWrite ∧ w.2.1.errorLatched = false ∧ 2 ≤ w.2.1.rxIndex.toNat ∧ w.2.1.activeDesc = some w.1 ∧
      w.1.block = true ∧ w.1.writeLength ≠ 0 ∧
      w.2.1.writeLength.toNat = w.2.2.1 + 1 ∧ w.2.1.writeLength.toNat ≤ w.2.1.rxIndex.toNat - 1 ∧
      pageLegal w.1 w.2.1 = .ok true ∧ baseAddress w.1 w.2.1 = .ok w.2.2.2 ∧
      (∀ k, k < w.1.lenRes + w.2.2.1 → storeValid w.2.1.cfg (w.2.2.2 + k) = true) ∧
      (∀ k, k < w.2.2.1 → Memory.get w.2.1.scratch k = some ([0xDE, 0xAD, 0xBE].getD k 0x00))) ∧
    desc30.lenByteFirst = true ∧ desc31.lenByteFirst = false := by decide

/-- Each of the clauses: latched, W21, W9, W5, and a read-only command. -/
theorem witness_NothingToCommit : received.mode = .addrWrite ∧ latched.errorLatched = true ∧
    (writing desc40 0 0 0xC7 []).rxIndex = 0 ∧ { received with activeDesc := none }.activeDesc = none ∧
    (writing desc10 2 2 0x8E [(0, 0xAA)]).rxIndex.toNat - 1 < (writing desc10 2 2 0x8E [(0, 0xAA)]).writeLength.toNat ∧
    desc10.readLength ≠ 0 ∧ desc50.readLength ≠ 0 ∧ desc50.writeLength = 0 := by decide

/-- While no page is selected: a zero-length paged block, one with a byte staged, and a plain command with its two. -/
theorem witness_IllegalPageCommitsNothing :
    ∀ w ∈ [(desc21, writing desc21 2 1 0x00 []), (desc21, writing desc21 3 2 0x00 [(0, 0xAA)]),
        (desc20, writing desc20 3 2 0x00 [(0, 0xAA), (1, 0xBB)])],
      w.2.mode = .addrWrite ∧ w.2.activeDesc = some w.1 ∧ w.1.writeLength ≠ 0 ∧
      pageLegal w.1 { w.2 with store := [(0x100, 0xFF)] } = .ok false ∧
      ∀ k, k < (if w.1.block = true then w.2.writeLength.toNat - 1 else w.1.writeLength.toNat) →
        Memory.get w.2.scratch k = some ([0xAA, 0xBB].getD k 0x00) := by decide

/-- A ring that meets the queue's invariant. -/
theorem ring_sound (head tail : Nat) (full : Bool) (h : head < 3) (ht : tail < 3) (hf : full = true → head = tail) :
    (ring head tail full).QueueSound := ⟨rfl, h, ht, hf⟩

/-- W18 with room for one entry, and with a full queue. -/
theorem witness_SendByteIsEnqueued :
    (writing desc40 1 0 0x9C []).mode = .addrWrite ∧ (writing desc40 1 0 0x9C []).errorLatched = false ∧
    1 ≤ (writing desc40 1 0 0x9C []).rxIndex.toNat ∧ (writing desc40 1 0 0x9C []).activeDesc = some desc40 ∧
    desc40.readLength = 0 ∧ desc40.writeLength = 0 ∧ pageValue (writing desc40 1 0 0x9C []) = .ok 0x00 ∧
    (writing desc40 1 0 0x9C []).QueueSound ∧ { writing desc40 1 0 0x9C [] with qFull := true }.QueueSound :=
  ⟨rfl, rfl, by decide, rfl, rfl, rfl, rfl, ⟨rfl, by decide, by decide, fun _ => rfl⟩,
    ⟨rfl, by decide, by decide, fun _ => rfl⟩⟩

/-- What the statements about the read phase assume of a state, its descriptor and `DATA_TX_ACK`. -/
def readsAt (d : Option Descriptor) (s : State) : Bool :=
  decide (readStart (.dataTxAck 0x00) s = some s ∧ s.activeDesc = d ∧ s.cfg.statusValid = true)

/-- RD8: through `ADDR_R`, and through `DATA_TX_ACK`. -/
theorem witness_UnsupportedReadIsSilent :
    ((readStart (.addrR 0x41) (start [])).bind (·.activeDesc) = none ∧
      (readStart (.addrR 0x41) (start [])).isSome = true) ∧
    readsAt none { reading desc10 2 0xC0 with activeDesc := none } = true := by decide

/-- RD10. -/
theorem witness_WriteOnlyReadIsFlagged : readsAt (some desc60) (reading desc60 1 0x7C) = true ∧
    desc60.readLength = 0 := by decide

/-- RD15, RD16, and a paged block while no page is selected. -/
theorem witness_BlockReadLengthByte :
    (readsAt (some desc30) (reading desc30 1 0xBF) = true ∧ desc30.readLength ≠ 0 ∧ desc30.block = true ∧
      (reading desc30 1 0xBF).txIndex = 1 ∧ pageLegal desc30 (reading desc30 1 0xBF) = .ok true ∧
      desc30.lenByteFirst = true ∧ baseAddress desc30 (reading desc30 1 0xBF) = .ok 0x130 ∧
      storeValid (reading desc30 1 0xBF).cfg 0x130 = true) ∧
    (readsAt (some desc31) (reading desc31 1 0xBF) = true ∧ desc31.readLength ≠ 0 ∧ desc31.block = true ∧
      (reading desc31 1 0xBF).txIndex = 1 ∧ pageLegal desc31 (reading desc31 1 0xBF) = .ok true ∧
      desc31.lenByteFirst = false) ∧
    (readsAt (some desc21) { reading desc21 1 0xBF with store := [(0x100, 0xFF)] } = true ∧
      desc21.readLength ≠ 0 ∧ desc21.block = true ∧
      pageLegal desc21 { reading desc21 1 0xBF with store := [(0x100, 0xFF)] } = .ok false) := by decide

/-- RD2, the last payload byte; the first of a block's; and RD13. -/
theorem witness_PayloadByteIsRead :
    (readsAt (some desc10) (reading desc10 2 0x28) = true ∧ 1 < desc10.readLength.toNat ∧ desc10.block = false ∧
      (reading desc10 2 0x28).txIndex.toNat = 1 + 1 ∧ pageLegal desc10 (reading desc10 2 0x28) = .ok true ∧
      baseAddress desc10 (reading desc10 2 0x28) = .ok 0x110 ∧
      storeRead (reading desc10 2 0x28) (0x110 + 1) = .ok 0x00) ∧
    (readsAt (some desc30) (reading desc30 2 0x3D) = true ∧ 0 < desc30.readLength.toNat ∧ desc30.block = true ∧
      (reading desc30 2 0x3D).txIndex.toNat = 0 + 2 ∧ pageLegal desc30 (reading desc30 2 0x3D) = .ok true ∧
      baseAddress desc30 (reading desc30 2 0x3D) = .ok 0x130 ∧
      storeRead (reading desc30 2 0x3D) (0x130 + (desc30.lenRes + 0)) = .ok 0x00) ∧
    (readsAt (some desc20) { reading desc20 1 0xE8 with store := [(0x100, 0xFF)] } = true ∧
      0 < desc20.readLength.toNat ∧ desc20.block = false ∧ (reading desc20 1 0xE8).txIndex.toNat = 0 + 1 ∧
      pageLegal desc20 { reading desc20 1 0xE8 with store := [(0x100, 0xFF)] } = .ok false) := by decide

/-- RD3, and the PEC of a block read. -/
theorem witness_PecByteIsTransmitted :
    (readsAt (some desc10) (reading desc10 3 0xF0) = true ∧ desc10.readLength ≠ 0 ∧ desc10.block = false ∧
      (reading desc10 3 0xF0).txIndex.toNat = desc10.readLength.toNat + 1) ∧
    (readsAt (some desc30) (reading desc30 6 0xD8) = true ∧ desc30.readLength ≠ 0 ∧ desc30.block = true ∧
      (reading desc30 6 0xD8).txIndex.toNat = desc30.readLength.toNat + 2) := by decide

/-- RD4: the first byte beyond the PEC; and one of a block read at the highest counter value. -/
theorem witness_OverReadIsFlagged :
    (readsAt (some desc10) (reading desc10 4 0xF0) = true ∧ desc10.block = false ∧
      desc10.readLength.toNat + 2 ≤ (reading desc10 4 0xF0).txIndex.toNat) ∧
    (readsAt (some desc30) (reading desc30 0xFFFF 0xD8) = true ∧ desc30.block = true ∧
      desc30.readLength.toNat + 3 ≤ (reading desc30 0xFFFF 0xD8).txIndex.toNat) := by decide

theorem witness_DepthIsOccupancy : (ring 2 1 false).QueueSound ∧ (ring 0 0 true).QueueSound ∧
    (ring 2 2 false).QueueSound :=
  ⟨ring_sound 2 1 false (by decide) (by decide) (by decide), ring_sound 0 0 true (by decide) (by decide) (by decide),
    ring_sound 2 2 false (by decide) (by decide) (by decide)⟩

/-- Empty, and with entries, one of them at the end of the ring. -/
theorem witness_PopReturnsOldest : (ring 2 2 false).QueueSound ∧ queueContents (ring 2 2 false) = [] ∧
    (ring 2 1 false).QueueSound ∧ queueContents (ring 2 1 false) = [⟨0x03, 0x01⟩, ⟨0x05, 0x01⟩] :=
  ⟨ring_sound 2 2 false (by decide) (by decide) (by decide), by decide,
    ring_sound 2 1 false (by decide) (by decide) (by decide), by decide⟩

/-- Full, and with room for one entry. -/
theorem witness_PushAppends : (ring 0 0 true).QueueSound ∧
    (queueContents (ring 0 0 true)).length = (ring 0 0 true).cfg.qCapacity ∧
    (ring 2 1 false).QueueSound ∧ (queueContents (ring 2 1 false)).length + 1 = (ring 2 1 false).cfg.qCapacity :=
  ⟨ring_sound 0 0 true (by decide) (by decide) (by decide), by decide,
    ring_sound 2 1 false (by decide) (by decide) (by decide), by decide⟩

theorem witness_QueueIsFifo : (ring 2 2 false).QueueSound ∧ queueContents (ring 2 2 false) = [] ∧
    [QEntry.mk 1 0, ⟨2, 0⟩, ⟨3, 1⟩].length = (ring 2 2 false).cfg.qCapacity :=
  ⟨ring_sound 2 2 false (by decide) (by decide) (by decide), by decide, rfl⟩

/-- Page 1, the highest; page 2, the lowest with no meaning; FE, the highest; and FF. -/
theorem witness_PageTranslation : desc10.paged = false ∧ desc20.paged = true ∧
    pageValue (start [(0x100, 0x01)]) = .ok 0x01 ∧ (0x01 : Byte).toNat < config.numPages ∧
    pageValue (start [(0x100, 0x02)]) = .ok 0x02 ∧ config.numPages ≤ (0x02 : Byte).toNat ∧
    pageValue (start [(0x100, 0xFE)]) = .ok 0xFE ∧ (0xFE : Byte) ≠ 0xFF ∧
    pageValue (start [(0x100, 0xFF)]) = .ok 0xFF := by decide

theorem witness_StorageAccess : storeValid config 0x0100 = true ∧ storeValid config 0x01FF = true ∧
    storeValid config 0x00FF = false ∧ storeValid config 0x0200 = false ∧ Memory.wf (start []).store = true := by
  decide

theorem witness_CounterSaturates : (0xFFFE : Counter).toNat < 65535 ∧ (0xFFFF : Counter).toNat = 65535 := by decide

theorem witness_FaultEntry : received.errorLatched = false ∧ latched.errorLatched = true ∧ received.newStatus = 0 ∧
    { latched with newStatus := 0x20 }.newStatus ≠ 0 ∧ latched.cfg.statusValid = true := by decide

/-- The highest page, in both storage orders. -/
theorem witness_SummaryBitIsBroadcast : ∀ f ∈ [false, true],
    config.statusWordEnable = true ∧ { latched with newStatus := 0x20 }.newStatus ≠ 0 ∧ 1 < config.numPages ∧
    (∀ q, q < 2 * config.numPages → config.cmlAddr.toNat ≠ config.statusWordAddr.toNat + q) ∧
    statusWord { latched with newStatus := 0x20, cfg := { config with storageMsbFirst := f } } 1 = .ok 0x0000 ∧
    (postEventMerge { latched with newStatus := 0x20, cfg := { config with storageMsbFirst := f } }).toBool = true := by
  decide

theorem witness_UnsupportedWriteIsAbsorbed : (start []).cfg.lookup 0x99 = none ∧ (start []).cfg.statusValid = true := by
  decide

/-- In either storage order. -/
theorem witness_WriteWithPec : msbConfig.wf = true ∧ msbConfig.lookup 0x10 = some desc10 ∧
    (State.launch msbConfig []).cfg = msbConfig ∧ (start []).cfg.wf = true ∧ (start []).cfg.lookup 0x10 = some desc10 ∧
    desc10.block = false ∧ desc10.paged = false ∧ desc10.writeLength ≠ 0 ∧
    [(0xAA : Byte), 0xBB].length = desc10.writeLength.toNat ∧
    (0x8B : Byte) = crcOver 0 ([addressWrite (start []).cfg, 0x10] ++ [0xAA, 0xBB]) ∧
    (0x00 : Byte) ≠ crcOver 0 ([addressWrite (start []).cfg, 0x10] ++ [0xAA, 0xBB]) := by decide +kernel

/-- In either storage order. -/
theorem witness_ReadReturnsStorage : (msbConfig.wf = true ∧ msbConfig.lookup 0x10 = some desc10 ∧
      ∀ k (h : k < [(0xAA : Byte), 0xBB].length),
        Memory.read (State.launch msbConfig [(0x110, 0xBB), (0x111, 0xAA)]).store
          (desc10.storageAddress.toNat + if msbConfig.storageMsbFirst = true then 2 - 1 - k else k) =
            [(0xAA : Byte), 0xBB][k]) ∧
    (start [(0x110, 0xAA), (0x111, 0xBB)]).cfg.wf = true ∧
    (start []).cfg.lookup 0x10 = some desc10 ∧ desc10.block = false ∧ desc10.paged = false ∧ desc10.readLength ≠ 0 ∧
    [(0xAA : Byte), 0xBB].length = desc10.readLength.toNat ∧
    Memory.read (start [(0x110, 0xAA), (0x111, 0xBB)]).store 0x110 = 0xAA ∧
    Memory.read (start [(0x110, 0xAA), (0x111, 0xBB)]).store 0x111 = 0xBB := by decide

end Sys2Proof.Tests
end

section
/-!
PROOFS. The launch configuration is a constant of the machine (spec/00_scope.md R7, spec/10_state.md R39,
spec/20_memory.md R84).
-/

namespace Sys2Proof.Machine

/-- Entering a context marks the bus active at most. -/
theorem enterContext_cfg {c : Context} {s t : State} (h : enterContext c s = .ok t) : t.cfg = s.cfg := by
  obtain ⟨-, rfl⟩ | ⟨-, -, rfl⟩ := enterContext_eq_ok.1 h
  · rfl
  · exact State.setBusActive_cfg s true

/-- A reset launches the block again with the configuration it already has (R230). -/
@[simp] theorem resetBlock_cfg (s : State) : (resetBlock s).cfg = s.cfg := rfl

/-- Settles O9, move by move: only an operation runs code that could write the configuration, and none does
(`exec_kept`). -/
theorem configurationNeverChanges : Obligations.ConfigurationNeverChanges := by
  intro s t h
  obtain ⟨-, ⟨-, rfl⟩ | ⟨r, rest, -, hmove⟩⟩ := step_eq_next h
  · rfl
  · obtain ⟨o, rfl⟩ | ⟨a, v, -, -, rfl⟩ | ⟨-, rfl⟩ | ⟨i, u, henter, hexec⟩ := hmove
    · rfl
    · rfl
    · exact resetBlock_cfg (s.setInput rest)
    · calc t.cfg = u.cfg := (exec_kept hexec).1
        _ = (s.setInput rest).cfg := enterContext_cfg henter
        _ = s.cfg := State.setInput_cfg s rest

end Sys2Proof.Machine
end

section
/-!
PROOFS. What an operation can do to backing storage, once for all operations: leave it, commit the staged bytes of the
active command (spec/42_dispatch_write.md R150 to R153), or merge a newly latched fault (spec/60_exceptions.md R206). The
statements about storage follow from these three cases.
-/

namespace Sys2Proof.Machine

/-! ### Merges -/

/-- An address that no merge names reads as before. -/
theorem read_applyOrs_other {ws : List Host.Cell} {m : Memory} {a : Nat} (h : ∀ w ∈ ws, w.1 ≠ a) :
    Memory.read (applyOrs ws m) a = Memory.read m a := by
  have hbits : orBits ws a = 0 := by
    induction ws with
    | nil => rfl
    | cons w ws ih =>
      rw [orBits, if_neg (h w List.mem_cons_self), ih fun x hx => h x (List.mem_cons_of_mem _ hx)]; rfl
  rw [read_applyOrs, hbits]; exact BitVec.or_zero

/-- The low bytes of the status words gain the summary bit, where the fault byte is elsewhere (R206). -/
theorem mergeBits_statusLow {c : Config} {p : Nat} (he : c.statusWordEnable = true) (hp : p < c.numPages)
    (hcml : c.cmlAddr.toNat ≠ statusLowAddress c p) (status : Byte) :
    mergeBits c status (statusLowAddress c p) = 0x02 := by
  have hany : ((List.range c.numPages).any fun q => decide (statusLowAddress c p = statusLowAddress c q)) = true :=
    List.any_eq_true.2 ⟨p, List.mem_range.2 hp, decide_eq_true rfl⟩
  simp [mergeBits, hcml.symm, he, hany]

/-- No page's low byte lies where a page has its high byte: the two differ in parity (R38). -/
theorem statusHighAddress_ne_low (c : Config) (p q : Nat) : statusHighAddress c p ≠ statusLowAddress c q := by
  unfold statusHighAddress statusLowAddress
  split <;> omega

/-- The high bytes of the status words gain nothing, where the fault byte is elsewhere (R206). -/
theorem mergeBits_statusHigh {c : Config} {p : Nat} (hcml : c.cmlAddr.toNat ≠ statusHighAddress c p) (status : Byte) :
    mergeBits c status (statusHighAddress c p) = 0 := by
  simp [mergeBits, hcml.symm, statusHighAddress_ne_low]

/-- A status word is its two bytes, both allocated (R38). -/
theorem statusWord_eq_ok {s : State} {p : Nat} {w : BitVec 16} :
    statusWord s p = .ok w ↔
      storeValid s.cfg (statusLowAddress s.cfg p) = true ∧ storeValid s.cfg (statusHighAddress s.cfg p) = true ∧
        w = Memory.read s.store (statusHighAddress s.cfg p) ++ Memory.read s.store (statusLowAddress s.cfg p) := by
  unfold statusWord
  simp only [bind_eq_ok, storeRead_eq_ok, ok_eq_ok]
  constructor
  · rintro ⟨_, ⟨hlow, rfl⟩, _, ⟨hhigh, rfl⟩, rfl⟩; exact ⟨hlow, hhigh, rfl⟩
  · rintro ⟨hlow, hhigh, rfl⟩; exact ⟨_, ⟨hlow, rfl⟩, _, ⟨hhigh, rfl⟩, rfl⟩

/-- The summary bit 0x0002 is in the low byte (R38). -/
theorem append_or_summaryBit (hi lo : Byte) : (hi ||| 0) ++ (lo ||| 0x02) = (hi ++ lo) ||| (0x0002 : BitVec 16) := by
  have hsplit : (0x0002 : BitVec 16) = (0 : Byte) ++ (0x02 : Byte) := rfl
  rw [hsplit, BitVec.or_append]

/-- Settles O57: the merge ORs the summary bit into the low byte of the page's word and nothing into its high byte. -/
theorem summaryBitIsBroadcast : Obligations.SummaryBitIsBroadcast := by
  intro s t p w he hn hp hcml hw ht
  obtain ⟨hn0, -⟩ | ⟨-, -, rfl⟩ := postEventMerge_eq_ok.1 ht
  · exact absurd hn0 hn
  · obtain ⟨hvlow, hvhigh, rfl⟩ := statusWord_eq_ok.1 hw
    have hlow : s.cfg.cmlAddr.toNat ≠ statusLowAddress s.cfg p := by
      have := hcml (2 * p + if s.cfg.storageMsbFirst then 1 else 0) (by split <;> omega)
      rwa [← Nat.add_assoc] at this
    have hhigh : s.cfg.cmlAddr.toNat ≠ statusHighAddress s.cfg p := by
      have := hcml (2 * p + if s.cfg.storageMsbFirst then 0 else 1) (by split <;> omega)
      rwa [← Nat.add_assoc] at this
    refine statusWord_eq_ok.2 ⟨hvlow, hvhigh, ?_⟩
    rw [State.setStore_cfg, State.setStore_store, read_merged, read_merged, mergeBits_statusHigh hhigh,
      mergeBits_statusLow he hp hlow, append_or_summaryBit]

/-! ### The commit point -/

/-- The commit point of `s` stores `cells` at `base` and leaves storage `m`: the write phase has no latched error, carried
the declared length, and belongs to a command with bytes to store (R150 to R153). -/
structure CommitStored (d : Descriptor) (base : Nat) (cells : List Host.Cell) (s : State) (m : Memory) : Prop where
  /-- no error is latched (R150) -/
  clear : s.errorLatched = false
  /-- the command code was received (R150) -/
  counted : 1 ≤ s.rxIndex.toNat
  /-- the command is supported (R150) -/
  active : s.activeDesc = some d
  /-- at least the declared length was received (R150) -/
  complete : s.writeLength.toNat ≤ s.rxIndex.toNat - 1
  /-- the bytes and their offsets (R151 to R153) -/
  bytes : commitCells d s = .ok cells
  /-- there is a byte to store -/
  nonempty : cells ≠ []
  /-- the storage base (R69) -/
  based : baseAddress d s = .ok base
  /-- every address is allocated (R64) -/
  valid : ∀ c ∈ cells, storeValid s.cfg (base + c.1) = true
  /-- storage afterwards -/
  stored : m = applyWrites (cells.map fun c => (base + c.1, c.2)) s.store

/-- A command without a declared write length stores nothing (R151). -/
theorem CommitStored.writeLength_ne_zero {d : Descriptor} {base : Nat} {cells : List Host.Cell} {s : State} {m : Memory}
    (h : CommitStored d base cells s m) : d.writeLength ≠ 0 := by
  intro hw
  have hnil := h.bytes
  rw [commitCells, if_pos hw, ok_eq_ok] at hnil
  exact h.nonempty hnil

/-- The commit point changes nothing, pushes one entry, or stores bytes (R150). -/
theorem commitPoint_cases {s u : State} (h : commitPoint s = .ok u) :
    u = s ∨
    (∃ e, u = s.setPushed (s.qRing.set s.qTail e) (ringNext s.cfg s.qTail)
      (decide (ringNext s.cfg s.qTail = s.qHead))) ∨
    ∃ d base cells m, CommitStored d base cells s m ∧ u = s.setStore m := by
  obtain ⟨-, rfl⟩ | ⟨hclear, hcounted, ⟨-, rfl⟩ | ⟨d, hactive, ⟨-, hsend⟩ | ⟨-, hcomplete, hcommit⟩ | ⟨-, -, rfl⟩⟩⟩ :=
    commitPoint_eq_ok.1 h
  · exact .inl rfl
  · exact .inl rfl
  · obtain ⟨p, -, taken, hpush⟩ := sendByteEnqueue_eq_ok.1 hsend
    obtain ⟨-, hu⟩ | ⟨-, -, hu⟩ := queuePush_eq_ok.1 hpush
    · exact .inl (Prod.mk.inj hu).2
    · exact .inr (.inl ⟨_, (Prod.mk.inj hu).2⟩)
  · obtain ⟨cells, hcells, ⟨-, rfl⟩ | ⟨-, -, rfl⟩ | ⟨hne, -, base, hbase, hvalid, rfl⟩⟩ := commit_eq_ok.1 hcommit
    · exact .inl rfl
    · exact .inl rfl
    · exact .inr (.inr ⟨d, base, cells, _,
        ⟨hclear, hcounted, hactive, hcomplete, hcells, hne, hbase, hvalid, rfl⟩, rfl⟩)
  · exact .inl rfl

/-- `STOP_RESTART` goes to the catch-all outside a write phase; in one it runs the commit point, and there is nothing to
merge (R98, R150). -/
theorem exec_stopRestart_cases {x : Byte} {s t : State} (h : exec (.stopRestart x) s = .next t) :
    t = catchAll (s.setNewStatus 0) ∨
      (s.mode = .addrWrite ∧ ∃ u, commitPoint (s.setNewStatus 0) = .ok u ∧
        t = respond .ack 0x00 (u.setMode .writeEnded)) := by
  obtain ⟨v, hv, hmerge⟩ := dispatcherStep_eq_next.1 (h : execStopRestart s = .next t)
  by_cases hm : s.mode = .addrWrite
  · rw [inWritePhase_of_mode hm, runEnabled_true] at hv
    obtain ⟨u, hu, rfl⟩ := closeWritePhase_eq_ok.1 hv
    have hquiet : (respond .ack 0x00 (u.setMode .writeEnded)).newStatus = 0 := by rw [commitPoint_frame hu]; rfl
    rw [postEventMerge_of_quiet hquiet, ok_eq_ok] at hmerge
    exact .inr ⟨hm, u, hu, hmerge⟩
  · have hoff : s.inWritePhase = false := decide_eq_false hm
    rw [hoff, runEnabled_false, ok_eq_ok] at hv
    subst hv
    rw [postEventMerge_of_quiet rfl, ok_eq_ok] at hmerge
    exact .inl hmerge

/-! ### Every operation -/

/-- What an operation that answers `t` did to backing storage. The commit point runs with `newStatus` cleared (R190). -/
inductive StoreChange (i : Instr) (s t : State) : Prop where
  /-- nothing -/
  | kept (h : t.store = s.store)
  /-- the staged bytes of the active command were stored (R150) -/
  | committed (x : Byte) (d : Descriptor) (base : Nat) (cells : List Host.Cell) (hi : i = .stopRestart x)
    (hm : s.mode = .addrWrite) (hc : CommitStored d base cells (s.setNewStatus 0) t.store)
  /-- a newly latched fault was merged (R206) -/
  | merged (hi : ∀ x, i ≠ .stopRestart x) (he : isEvent i = true) (hn : t.newStatus ≠ 0)
    (hv : ∀ w ∈ eventMerges s.cfg t.newStatus, storeValid s.cfg w.1 = true)
    (ht : t.store = applyOrs (eventMerges s.cfg t.newStatus) s.store)

/-- An event other than the commit point changes storage by its merge only (R65). -/
theorem storeChange_of_event {i : Instr} {s t : State} (he : isEvent i = true) (hi : ∀ x, i ≠ .stopRestart x)
    (h : exec i s = .next t) : StoreChange i s t := by
  obtain ⟨u, hu, hmerge, -⟩ := exec_of_event he h
  have hstore : u.store = s.store := by
    obtain ⟨x, hx, -⟩ | ⟨hstore, -⟩ := hu.stored
    · exact absurd hx (hi x)
    · exact hstore
  have hcfg : u.cfg = s.cfg := hu.kept.1
  obtain ⟨-, rfl⟩ | ⟨hn, hv, rfl⟩ := postEventMerge_eq_ok.1 hmerge
  · exact .kept hstore
  · rw [hcfg] at hv
    exact .merged hi he hn hv (by rw [State.setStore_store, State.setStore_newStatus, hcfg, hstore])

/-- `STOP_RESTART` changes storage by its commit only (R150). -/
theorem storeChange_of_stopRestart {x : Byte} {s t : State} (h : exec (.stopRestart x) s = .next t) :
    StoreChange (.stopRestart x) s t := by
  obtain rfl | ⟨hm, u, hu, rfl⟩ := exec_stopRestart_cases h
  · exact .kept rfl
  · obtain rfl | ⟨e, rfl⟩ | ⟨d, base, cells, m, hc, rfl⟩ := commitPoint_cases hu
    · exact .kept rfl
    · exact .kept rfl
    · exact .committed x d base cells rfl hm hc

theorem exec_storeChange {i : Instr} {s t : State} (h : exec i s = .next t) : StoreChange i s t := by
  cases he : isEvent i with
  | false => exact .kept (by rw [(exec_of_not_event he h).1])
  | true =>
    by_cases hi : ∃ x, i = .stopRestart x
    · obtain ⟨x, rfl⟩ := hi
      exact storeChange_of_stopRestart h
    · exact storeChange_of_event he (fun x hx => hi ⟨x, hx⟩) h

/-- Settles O20: of the three changes, a commit has the conditions of R150 and a merge reaches only its addresses. -/
theorem storageChangesOnlyAtCommitOrMerge : Obligations.StorageChangesOnlyAtCommitOrMerge := by
  intro i s t a h hne
  cases exec_storeChange h with
  | kept hkept => rw [hkept] at hne; exact absurd rfl hne
  | committed x d base cells hi hm hc =>
    exact .inl ⟨x, d, hi, hm, hc.clear, hc.counted, hc.active, hc.writeLength_ne_zero, hc.complete⟩
  | merged hi he hn hv ht =>
    refine .inr ⟨he, hn, ?_⟩
    by_contra hnone
    rw [ht, read_applyOrs_other fun w hw ha => hnone ⟨w, hw, ha⟩] at hne
    exact hne rfl

/-- ORing bits in clears none. -/
theorem or_and_keeps (old bits : Byte) : (old ||| bits) &&& old = old := by
  ext k hk
  simp only [BitVec.getElem_and, BitVec.getElem_or, Bool.and_eq_right_iff_imp, Bool.or_eq_true]
  exact .inl

/-- Settles O21: without a commit a byte is kept, or bits are ORed into it. -/
theorem storageBitsOnlySet : Obligations.StorageBitsOnlySet := by
  intro i s t a h hstop
  cases exec_storeChange h with
  | kept hkept => rw [hkept, BitVec.and_self]
  | committed x d base cells hi hm hc => exact absurd hi (hstop x)
  | merged hi he hn hv ht =>
    rw [ht, read_merged, or_and_keeps]

end Sys2Proof.Machine
end

section
/-!
PROOFS. The invariant of every reached state (spec/10_state.md R46, R28), part by part: what an operation can do to the
registers of the write phase, once for all operations, and that each such change keeps what is staged; then the queue and
backing storage; then the moves.
-/

namespace Sys2Proof.Machine

/-! ### Changes of the write phase's registers -/

/-- `s` and `t` have the same active command, effective length and staged bytes (R26 to R28). -/
structure SameCommand (s t : State) : Prop where
  /-- the launch configuration -/
  cfg : t.cfg = s.cfg
  /-- `activeDesc` -/
  activeDesc : t.activeDesc = s.activeDesc
  /-- `activeCode` -/
  activeCode : t.activeCode = s.activeCode
  /-- `writeLength` -/
  writeLength : t.writeLength = s.writeLength
  /-- `scratch` -/
  scratch : t.scratch = s.scratch

/-- `s` and `t` are at the same point of the same phase: the registers in which they differ are read by no rule that
stages bytes. -/
structure SamePhase (s t : State) : Prop extends SameCommand s t where
  /-- `MODE` -/
  mode : t.mode = s.mode
  /-- `errorLatched` -/
  errorLatched : t.errorLatched = s.errorLatched
  /-- `rxIndex` -/
  rxIndex : t.rxIndex = s.rxIndex

theorem samePhase_setNewStatus (s : State) (x : Byte) : SamePhase s (s.setNewStatus x) :=
  ⟨⟨rfl, rfl, rfl, rfl, rfl⟩, rfl, rfl, rfl⟩

theorem samePhase_setBusActive (s : State) (x : Bool) : SamePhase s (s.setBusActive x) :=
  ⟨⟨rfl, rfl, rfl, rfl, rfl⟩, rfl, rfl, rfl⟩

/-- What a move without an operation may write is no register of the phase. -/
theorem samePhase_move (s : State) (moves : List Request) (m : Memory) (o : Output) :
    SamePhase s { s with input := moves, store := m, out := o } :=
  ⟨⟨rfl, rfl, rfl, rfl, rfl⟩, rfl, rfl, rfl⟩

/-- What an operation that leads to `t` did to the registers of the write phase. -/
inductive PhaseChange (s t : State) : Prop where
  /-- nothing -/
  | same (h : SamePhase s t)
  /-- it left the write phase or opened a new one, and kept the command's registers -/
  | turned (h : SameCommand s t) (hm : t.mode = .addrWrite → t.rxIndex = 0)
  /-- it received a byte (R149) -/
  | received (b : Byte) (u : State) (hm : s.mode = .addrWrite) (hb : receiveCase b (s.setNewStatus 0) = .ok u)
      (ht : SamePhase (u.setRxIndex (satInc u.rxIndex)) t)

theorem SameCommand.setStore {s u : State} (h : SameCommand s u) (m : Memory) : SameCommand s (u.setStore m) :=
  ⟨h.cfg, h.activeDesc, h.activeCode, h.writeLength, h.scratch⟩

theorem SamePhase.setStore {s u : State} (h : SamePhase s u) (m : Memory) : SamePhase s (u.setStore m) :=
  ⟨h.toSameCommand.setStore m, h.mode, h.errorLatched, h.rxIndex⟩

/-- The merge does not touch the write phase. -/
theorem PhaseChange.setStore {s u : State} (h : PhaseChange s u) (m : Memory) : PhaseChange s (u.setStore m) := by
  cases h with
  | same h => exact .same (h.setStore m)
  | turned h hm => exact .turned (h.setStore m) hm
  | received b v hm hb h => exact .received b v hm hb (h.setStore m)

/-- An operation that ends in another mode than `ADDR_WRITE` leaves the write phase. -/
theorem PhaseChange.left {s t : State} {m : Mode} (h : SameCommand s t) (hm : t.mode = m) (hne : m ≠ .addrWrite) :
    PhaseChange s t :=
  .turned h fun hw => absurd (hm.symm.trans hw) hne

theorem phaseChange_catchAll (s : State) : PhaseChange s (catchAll (s.setNewStatus 0)) :=
  .left (m := .idle) ⟨rfl, rfl, rfl, rfl, rfl⟩ rfl (by decide)

theorem phaseChange_openWritePhase (a : Byte) (s : State) : PhaseChange s (openWritePhase a (s.setNewStatus 0)) :=
  .turned ⟨rfl, rfl, rfl, rfl, rfl⟩ fun _ => rfl

/-- A data event stages nothing outside a write phase (R98, R149). -/
theorem phaseChange_dataReceived {b : Byte} {s u : State}
    (h : runEnabled s.inWritePhase (dataReceived b) (s.setNewStatus 0) = .ok u) : PhaseChange s u := by
  by_cases hm : s.mode = .addrWrite
  · rw [inWritePhase_of_mode hm, runEnabled_true] at h
    obtain ⟨v, hv, rfl⟩ := dataReceived_eq_ok.1 h
    exact .received b v hm hv ⟨⟨rfl, rfl, rfl, rfl, rfl⟩, rfl, rfl, rfl⟩
  · have hoff : s.inWritePhase = false := decide_eq_false hm
    rw [hoff, runEnabled_false, ok_eq_ok] at h
    exact h ▸ phaseChange_catchAll s

theorem phaseChange_closeWritePhase {s u : State}
    (h : runEnabled s.inWritePhase closeWritePhase (s.setNewStatus 0) = .ok u) : PhaseChange s u := by
  cases hp : s.inWritePhase with
  | true =>
    rw [hp, runEnabled_true] at h
    obtain ⟨v, hv, rfl⟩ := closeWritePhase_eq_ok.1 h
    refine .left (m := .writeEnded) ?_ rfl (by decide)
    rw [commitPoint_frame hv]
    exact ⟨rfl, rfl, rfl, rfl, rfl⟩
  | false =>
    rw [hp, runEnabled_false, ok_eq_ok] at h
    exact h ▸ phaseChange_catchAll s

/-- Producing a byte in a read phase stages nothing (R172). -/
theorem phaseChange_transmitNext {s r u : State} (hr : SameCommand s r) (hm : r.mode = .addrRead)
    (h : transmitNext r = .ok u) : PhaseChange s u := by
  obtain ⟨b, v, hv, rfl⟩ := transmitNext_eq_ok.1 h
  obtain ⟨-, hf⟩ := produceCase_frame hv
  have hmode : v.mode = .addrRead := by rw [hf]; exact hm
  refine .left ?_ hmode (by decide)
  rw [hf]
  exact ⟨hr.cfg, hr.activeDesc, hr.activeCode, hr.writeLength, hr.scratch⟩

theorem sameCommand_openReadPhase (a : Byte) (s : State) : SameCommand s (openReadPhase a (s.setNewStatus 0)) := by
  rw [openReadPhase_eq]; exact ⟨rfl, rfl, rfl, rfl, rfl⟩

/-- Every event's rule makes one of the three changes. -/
theorem phaseChange_of_eventRule {i : Instr} {s u : State} {f : State → Except Stop State}
    (hf : eventRule i s = some f) (h : f (s.setNewStatus 0) = .ok u) : PhaseChange s u := by
  cases i <;> simp only [eventRule, Option.some.injEq, reduceCtorEq] at hf <;> subst hf
  case busError x =>
    rw [ok_eq_ok] at h
    subst h
    exact .left (m := .idle) ⟨rfl, rfl, rfl, rfl, rfl⟩ rfl (by decide)
  case addrW a => rw [ok_eq_ok] at h; exact h ▸ phaseChange_openWritePhase a s
  case addrGc a =>
    cases hg : s.cfg.gcEnable with
    | true => rw [hg, runEnabled_true, ok_eq_ok] at h; exact h ▸ phaseChange_openWritePhase a s
    | false => rw [hg, runEnabled_false, ok_eq_ok] at h; exact h ▸ phaseChange_catchAll s
  case dataRx b => exact phaseChange_dataReceived h
  case dataRxGc b => exact phaseChange_dataReceived h
  case stopRestart x => exact phaseChange_closeWritePhase h
  case addrR a =>
    exact phaseChange_transmitNext (sameCommand_openReadPhase a s) (by rw [openReadPhase_eq]) h
  case dataTxAck x =>
    by_cases hm : s.mode = .addrRead
    · rw [inReadPhase_of_mode hm, runEnabled_true] at h
      exact phaseChange_transmitNext (r := s.setNewStatus 0) ⟨rfl, rfl, rfl, rfl, rfl⟩ hm h
    · have hoff : s.inReadPhase = false := decide_eq_false hm
      rw [hoff, runEnabled_false, ok_eq_ok] at h
      exact h ▸ phaseChange_catchAll s
  case dataTxNack x =>
    cases hp : s.inReadPhase with
    | true => rw [hp, runEnabled_true, ok_eq_ok] at h; exact h ▸ phaseChange_catchAll s
    | false => rw [hp, runEnabled_false, ok_eq_ok] at h; exact h ▸ phaseChange_catchAll s
  case unrecognized c x => rw [ok_eq_ok] at h; exact h ▸ phaseChange_catchAll s

/-- Every operation makes one of the three changes. -/
theorem exec_phaseChange {i : Instr} {s t : State} (h : exec i s = .next t) : PhaseChange s t := by
  cases he : isEvent i with
  | false =>
    refine .same ?_
    rw [(exec_of_not_event he h).1]
    exact ⟨⟨rfl, rfl, rfl, rfl, rfl⟩, rfl, rfl, rfl⟩
  | true =>
    obtain ⟨f, hf⟩ := eventRule_isSome he s
    obtain ⟨u, hu, hmerge⟩ := (exec_event_eq_next hf).1 h
    rw [postEventMerge_frame hmerge]
    exact (phaseChange_of_eventRule hf hu).setStore t.store

/-! ### The cases of a received byte -/

/-- What a received byte `b` does to the registers of the write phase (R143 to R148). -/
inductive Received (b : Byte) (s u : State) : Prop where
  /-- the code of a supported command (R143) -/
  | command (d : Descriptor) (h0 : s.rxIndex = 0) (hl : s.cfg.lookup b = some d)
      (hu : u = crcUpdate b ((s.setActive (some d) b).setWriteLength (d.writeLength.zeroExtend 9)))
  /-- a block length byte within the declared maximum (R145) -/
  | length (d : Descriptor) (h1 : s.rxIndex = 1) (ha : s.activeDesc = some d) (hb : d.block = true)
      (hle : b.toNat ≤ d.writeLength.toNat) (hu : u = crcUpdate b (s.setWriteLength (blockLength b)))
  /-- a valid payload byte (R146) -/
  | staged (d : Descriptor) (h1 : 1 ≤ s.rxIndex.toNat) (ha : s.activeDesc = some d)
      (h2 : d.block = true → 2 ≤ s.rxIndex.toNat) (hw : s.rxIndex.toNat ≤ s.writeLength.toNat)
      (hv : d.code ≠ pageCommand ∨ pageByteLegal s.cfg b = true) (hj : stagingOffset d s < scratchSize)
      (hu : u = crcUpdate b (s.setScratch (Memory.set s.scratch (stagingOffset d s) b)))
  /-- a byte of an unsupported command, or a matching PEC byte (R144, R147) -/
  | passed (h1 : 1 ≤ s.rxIndex.toNat)
      (hd : ∀ d, s.activeDesc = some d →
        (d.block = true → 2 ≤ s.rxIndex.toNat) ∧ s.writeLength.toNat < s.rxIndex.toNat)
      (hu : u = s)
  /-- a byte that leaves an error latched: nothing of this phase will be committed (R150) -/
  | faulted (he : u.errorLatched = true) (hc : u.cfg = s.cfg) (hs : u.scratch = s.scratch)
      (ha : u.activeDesc = none ∨ u.activeDesc = s.activeDesc ∧ u.activeCode = s.activeCode)
      (hw : u.writeLength = s.writeLength ∨ u.writeLength = blockLength b)

/-- `Latch` leaves the command's registers alone. -/
theorem sameCommand_latch (status : Byte) (s : State) : SameCommand s (latch status s) := by
  rw [latch_frame]; exact ⟨rfl, rfl, rfl, rfl, rfl⟩

theorem received_latch (b status : Byte) (s : State) : Received b s (latch status s) :=
  have h := sameCommand_latch status s
  .faulted (latch_errorLatched status s) h.cfg h.scratch (.inr ⟨h.activeDesc, h.activeCode⟩) (.inl h.writeLength)

theorem received_receiveCommand {b : Byte} {s : State} (h0 : s.rxIndex = 0) : Received b s (receiveCommand b s) := by
  unfold receiveCommand
  split
  · have h := sameCommand_latch stCmd (s.setActive none b)
    exact .faulted (latch_errorLatched _ _) h.cfg h.scratch (.inl h.activeDesc) (.inl h.writeLength)
  · rename_i d hl
    exact .command d h0 hl rfl

theorem received_receiveBlockLength {b : Byte} {s : State} {d : Descriptor} (h1 : s.rxIndex = 1)
    (ha : s.activeDesc = some d) (hb : d.block = true) : Received b s (receiveBlockLength d b s) := by
  unfold receiveBlockLength
  split
  · have h := sameCommand_latch stData s
    exact .faulted (latch_errorLatched stData s) h.cfg h.scratch (.inr ⟨h.activeDesc, h.activeCode⟩) (.inr rfl)
  · rename_i hle
    exact .length d h1 ha hb (Nat.le_of_not_lt hle) rfl

theorem received_receiveData {b : Byte} {s u : State} {d : Descriptor} (h1 : 1 ≤ s.rxIndex.toNat)
    (ha : s.activeDesc = some d) (h2 : d.block = true → 2 ≤ s.rxIndex.toNat)
    (hw : s.rxIndex.toNat ≤ s.writeLength.toNat) (h : receiveData d b s = .ok u) : Received b s u := by
  obtain ⟨legal, -, h⟩ := receiveData_eq_ok.1 h
  split at h
  · rename_i hv
    simp only [Bool.and_eq_true, Bool.or_eq_true, decide_eq_true_eq] at hv
    exact .staged d h1 ha h2 hw hv.2 h.1 h.2
  · subst h
    have h := sameCommand_latch stData s
    exact .faulted (latch_errorLatched stData s) h.cfg h.scratch (.inr ⟨h.activeDesc, h.activeCode⟩)
      (.inl h.writeLength)

theorem received_receivePec {b : Byte} {s : State} {d : Descriptor} (h1 : 1 ≤ s.rxIndex.toNat)
    (ha : s.activeDesc = some d) (h2 : d.block = true → 2 ≤ s.rxIndex.toNat)
    (hlt : s.writeLength.toNat < s.rxIndex.toNat) : Received b s (receivePec d b s) := by
  unfold receivePec
  split
  · split
    · exact received_latch b stPec s
    · exact .passed h1 (fun d' hd => Option.some.inj (ha.symm.trans hd) ▸ ⟨h2, hlt⟩) rfl
  · exact received_latch b stData s

/-- The counter is at 2 or later where it is neither 0 nor 1. -/
theorem two_le_of_ne_one {x : Counter} (h : 1 ≤ x.toNat) (h1 : x ≠ 1) : 2 ≤ x.toNat := by
  have : x.toNat ≠ 1 := fun he => h1 (BitVec.eq_of_toNat_eq he)
  omega

theorem one_le_of_ne_zero {x : Counter} (h0 : x ≠ 0) : 1 ≤ x.toNat := by
  have : x.toNat ≠ 0 := fun he => h0 (BitVec.eq_of_toNat_eq he)
  omega

/-- The cases of a byte for a supported command (R145 to R148). -/
theorem received_of_supported {b : Byte} {s u : State} {d : Descriptor} (h1 : 1 ≤ s.rxIndex.toNat)
    (ha : s.activeDesc = some d) (h : receiveCase b s = .ok u) : Received b s u := by
  rw [receiveCase_supported b h1 ha] at h
  split at h
  · rename_i hlen
    rw [ok_eq_ok] at h
    exact h ▸ received_receiveBlockLength hlen.2 ha hlen.1
  · rename_i hlen
    have h2 : d.block = true → 2 ≤ s.rxIndex.toNat := fun hb => two_le_of_ne_one h1 fun h1 => hlen ⟨hb, h1⟩
    split at h
    · rename_i hw
      exact received_receiveData h1 ha h2 hw h
    · rename_i hw
      split at h <;> rw [ok_eq_ok] at h <;> subst h
      · exact received_receivePec h1 ha h2 (Nat.lt_of_not_le hw)
      · exact received_latch b stData s

theorem received_of_receiveCase {b : Byte} {s u : State} (h : receiveCase b s = .ok u) : Received b s u := by
  by_cases h0 : s.rxIndex = 0
  · rw [receiveCase_command b h0, ok_eq_ok] at h
    exact h ▸ received_receiveCommand h0
  · cases ha : s.activeDesc with
    | none =>
      rw [receiveCase_swallow b h0 ha, ok_eq_ok] at h
      exact .passed (one_le_of_ne_zero h0) (fun d hd => by simp [ha] at hd) h
    | some d => exact received_of_supported (one_le_of_ne_zero h0) ha h

/-! ### What the write phase has staged -/

/-- The part of the invariant about the registers of the write phase (R26 to R28, R46). -/
structure State.TransactionSound (s : State) : Prop where
  /-- scratch offsets are listed in rising order -/
  scratchRising : Memory.rising s.scratch = true
  /-- scratch offsets are in `0..255` (R28) -/
  scratchBelow : ∀ j b, Memory.get s.scratch j = some b → j < scratchSize
  /-- "`writeLength <= 256`" (R46) -/
  lengthBelow : s.writeLength.toNat ≤ 256
  /-- the active descriptor is the command table's (R46) -/
  active : ∀ d, s.activeDesc = some d → s.cfg.lookup s.activeCode = some d ∧ d.code = s.activeCode
  /-- every byte a commit would copy has been staged (R28) -/
  staged : PhaseStaged s

theorem State.sound_iff (s : State) :
    s.Sound ↔ s.cfg.wf = true ∧ Memory.wf s.store = true ∧ s.QueueSound ∧ s.TransactionSound :=
  ⟨fun h => ⟨h.configWf, h.storeWf, h.queue, h.scratchRising, h.scratchBelow, h.lengthBelow, h.active, h.staged⟩,
    fun ⟨hc, hm, hq, h⟩ =>
      ⟨hc, hm, h.scratchRising, h.scratchBelow, hq, h.lengthBelow, h.active, h.staged⟩⟩

/-- Where the command's registers are kept, only the staging property is left to show. -/
theorem SameCommand.transactionSound {s t : State} (h : SameCommand s t) (hs : s.TransactionSound)
    (hp : PhaseStaged t) : t.TransactionSound where
  scratchRising := h.scratch ▸ hs.scratchRising
  scratchBelow := h.scratch ▸ hs.scratchBelow
  lengthBelow := h.writeLength ▸ hs.lengthBelow
  active := by rw [h.cfg, h.activeDesc, h.activeCode]; exact hs.active
  staged := hp

theorem SamePhase.transactionSound {s t : State} (h : SamePhase s t) (hs : s.TransactionSound) :
    t.TransactionSound := by
  refine h.toSameCommand.transactionSound hs ?_
  have hp := hs.staged
  unfold PhaseStaged LengthMatches stagedCount at hp ⊢
  rwa [h.mode, h.errorLatched, h.rxIndex, h.activeDesc, h.writeLength, h.scratch]

/-- Outside a write phase, and right after its address match, nothing needs to be staged. -/
theorem phaseStaged_of_turned {t : State} (h : t.mode = .addrWrite → t.rxIndex = 0) : PhaseStaged t := by
  intro hm _ h1
  rw [h hm] at h1
  exact absurd h1 (by decide)

/-- A state with a latched error commits nothing. -/
theorem phaseStaged_of_latched {t : State} (h : t.errorLatched = true) : PhaseStaged t :=
  fun _ he => absurd (h.symm.trans he) (by decide)

/-- Counting a byte after the code, and for a block after the length byte, keeps the meaning of `writeLength` (R27). -/
theorem lengthMatches_counted {d : Descriptor} {s t : State} (h : LengthMatches d s) (h1 : 1 ≤ s.rxIndex.toNat)
    (h2 : d.block = true → 2 ≤ s.rxIndex.toNat) (hx : t.rxIndex = satInc s.rxIndex)
    (hw : t.writeLength = s.writeLength) : LengthMatches d t := by
  have hcount : t.rxIndex.toNat = min (s.rxIndex.toNat + 1) 65535 := by rw [hx, satInc_toNat]
  unfold LengthMatches at h ⊢
  rw [hw]
  cases hb : d.block with
  | false => simpa only [hb, Bool.false_eq_true, false_and, if_false] using h
  | true =>
    have hrx := h2 hb
    rw [if_pos ⟨hb, hrx⟩] at h
    rwa [if_pos ⟨rfl, by omega⟩]

/-- The staged byte is the one payload byte that the count gains (R77, R105). -/
theorem stagedCount_counted {d : Descriptor} {s t : State} {j : Nat} (hj : j < stagedCount d t)
    (h1 : 1 ≤ s.rxIndex.toNat) (h2 : d.block = true → 2 ≤ s.rxIndex.toNat) (hx : t.rxIndex = satInc s.rxIndex)
    (hw : t.writeLength = s.writeLength) : j = stagingOffset d s ∨ j < stagedCount d s := by
  have hcount : t.rxIndex.toNat = min (s.rxIndex.toNat + 1) 65535 := by rw [hx, satInc_toNat]
  unfold stagedCount stagingOffset at *
  rw [hw, hcount] at hj
  split at hj
  · rename_i hb
    have := h2 hb
    simp only [hb, if_true]; omega
  · rename_i hb
    simp only [hb, if_false, Bool.false_eq_true]; omega

/-- Past the declared length the count gains nothing (R147). -/
theorem stagedCount_past {d : Descriptor} {s t : State} (hlt : s.writeLength.toNat < s.rxIndex.toNat)
    (hw : t.writeLength = s.writeLength) : stagedCount d t ≤ stagedCount d s := by
  unfold stagedCount
  rw [hw]
  split <;> omega

/-- The code byte of a supported command starts with nothing to stage (R143). -/
theorem phaseStaged_of_command {d : Descriptor} {t : State} (h1 : t.rxIndex.toNat = 1) (ha : t.activeDesc = some d)
    (hw : t.writeLength.toNat = d.writeLength.toNat) : PhaseStaged t := by
  intro _ _ _ d' hd
  obtain rfl : d = d' := Option.some.inj (ha.symm.trans hd)
  unfold LengthMatches stagedCount
  rw [h1, if_neg (by omega)]
  refine ⟨hw, fun j hj => absurd hj ?_⟩
  split <;> omega

/-- A legal block length byte leaves the whole payload to stage (R145). -/
theorem phaseStaged_of_length {d : Descriptor} {b : Byte} {t : State} (h2 : t.rxIndex.toNat = 2)
    (ha : t.activeDesc = some d) (hb : d.block = true) (hw : t.writeLength.toNat = b.toNat + 1)
    (hle : b.toNat ≤ d.writeLength.toNat) : PhaseStaged t := by
  intro _ _ _ d' hd
  obtain rfl : d = d' := Option.some.inj (ha.symm.trans hd)
  unfold LengthMatches stagedCount
  rw [h2, hw, if_pos ⟨hb, Nat.le_refl 2⟩, if_pos hb]
  exact ⟨⟨by omega, by omega⟩, fun j hj => absurd hj (by omega)⟩

/-- The state after a received byte of any kind meets the invariant of the write phase. -/
theorem Received.transactionSound {b : Byte} {s u : State} (h : Received b s u) (hwf : s.cfg.wf = true)
    (hs : s.TransactionSound) (hm : s.mode = .addrWrite) : (u.setRxIndex (satInc u.rxIndex)).TransactionSound := by
  cases h with
  | command d h0 hl hu =>
    subst hu
    have hlen : (d.writeLength.zeroExtend 9).toNat = d.writeLength.toNat := by simp; omega
    exact
      { scratchRising := hs.scratchRising
        scratchBelow := hs.scratchBelow
        lengthBelow := hlen.trans_le (by omega)
        active := fun d' hd => Option.some.inj (hd : some d = some d') ▸ ⟨hl, Config.code_of_lookup hwf hl⟩
        staged := phaseStaged_of_command (by show (satInc s.rxIndex).toNat = 1; rw [h0]; rfl) rfl hlen }
  | length d h1 ha hb hle hu =>
    subst hu
    exact
      { scratchRising := hs.scratchRising
        scratchBelow := hs.scratchBelow
        lengthBelow := (blockLength_toNat b).trans_le (by omega)
        active := hs.active
        staged := phaseStaged_of_length (by show (satInc s.rxIndex).toNat = 2; rw [h1]; rfl) ha hb
          (blockLength_toNat b) hle }
  | staged d h1 ha h2 hw hv hj hu =>
    subst hu
    refine ⟨Memory.rising_set _ _ hs.scratchRising, fun j c hc => ?_, hs.lengthBelow, hs.active, ?_⟩
    · rw [State.setRxIndex_scratch, crcUpdate, State.setPec_scratch, State.setScratch_scratch, Memory.get_set] at hc
      split at hc
      · rename_i hoff; exact hoff ▸ hj
      · exact hs.scratchBelow j c hc
    · intro _ he _ d' hd
      obtain rfl : d = d' := Option.some.inj (ha.symm.trans hd)
      obtain ⟨hlen, hold⟩ := hs.staged hm he h1 d ha
      refine ⟨lengthMatches_counted hlen h1 h2 rfl rfl, fun j hj => ?_⟩
      rw [State.setRxIndex_scratch, crcUpdate, State.setPec_scratch, State.setScratch_scratch, Memory.get_set]
      obtain rfl | hlt := stagedCount_counted hj h1 h2 rfl rfl
      · exact ⟨b, if_pos rfl⟩
      · split
        · exact ⟨b, rfl⟩
        · exact hold j hlt
  | passed h1 hd hu =>
    subst hu
    refine SameCommand.transactionSound (s := u) ⟨rfl, rfl, rfl, rfl, rfl⟩ hs ?_
    intro _ he _ d ha
    obtain ⟨h2, hlt⟩ := hd d ha
    obtain ⟨hlen, hold⟩ := hs.staged hm he h1 d ha
    exact ⟨lengthMatches_counted hlen h1 h2 rfl rfl, fun j hj => hold j (hj.trans_le (stagedCount_past hlt rfl))⟩
  | faulted he hc hscr ha hw =>
    exact
      { scratchRising := (congrArg Memory.rising hscr).trans hs.scratchRising
        scratchBelow := fun j c hj => hs.scratchBelow j c ((congrArg (Memory.get · j) hscr.symm).trans hj)
        lengthBelow := by
          obtain hw | hw := hw <;> rw [State.setRxIndex_writeLength, hw]
          · exact hs.lengthBelow
          · rw [blockLength_toNat]; omega
        active := fun d hd => by
          obtain ha | ⟨ha, hcode⟩ := ha
          · exact absurd (ha.symm.trans hd) (by simp)
          · rw [State.setRxIndex_cfg, State.setRxIndex_activeCode, hc, hcode]
            exact hs.active d (ha.symm.trans hd)
        staged := phaseStaged_of_latched he }

/-- No operation breaks the invariant of the write phase. -/
theorem exec_transactionSound {i : Instr} {s t : State} (h : exec i s = .next t) (hwf : s.cfg.wf = true)
    (hs : s.TransactionSound) : t.TransactionSound := by
  cases exec_phaseChange h with
  | same hp => exact hp.transactionSound hs
  | turned hp hm => exact hp.transactionSound hs (phaseStaged_of_turned hm)
  | received b u hm hb ht =>
    have hstart := (samePhase_setNewStatus s 0).transactionSound hs
    exact ht.transactionSound ((received_of_receiveCase hb).transactionSound hwf hstart hm)

/-! ### The queue -/

/-- The ring invariant speaks of the queue registers and the capacity only. -/
theorem State.QueueSound.congr {s t : State} (h : s.QueueSound) (hc : t.cfg = s.cfg) (hr : t.qRing = s.qRing)
    (hh : t.qHead = s.qHead) (ht : t.qTail = s.qTail) (hf : t.qFull = s.qFull) : t.QueueSound where
  ringLength := by rw [hr, hc]; exact h.ringLength
  headBelow := by rw [hh, hc]; exact h.headBelow
  tailBelow := by rw [ht, hc]; exact h.tailBelow
  fullMeans := by rw [hh, ht, hf]; exact h.fullMeans

theorem commitPoint_queueSound {s u : State} (h : commitPoint s = .ok u) (hq : s.QueueSound) : u.QueueSound := by
  obtain rfl | ⟨e, rfl⟩ | ⟨d, base, cells, m, -, rfl⟩ := commitPoint_cases h
  · exact hq
  · exact queueSound_setPushed hq e
  · exact hq.congr rfl rfl rfl rfl rfl

/-- No operation breaks the ring: only the application's and the internal operations and the commit point write it. -/
theorem exec_queueSound {i : Instr} {s t : State} (h : exec i s = .next t) (hq : s.QueueSound) : t.QueueSound := by
  cases he : isEvent i with
  | false => exact (exec_of_not_event he h).2 hq
  | true =>
    obtain ⟨u, hu, -, ht⟩ := exec_of_event he h
    obtain ⟨hcfg, -, hhead, -⟩ := hu.kept
    obtain ⟨x, rfl, -⟩ | ⟨-, hring, htail, hfull⟩ := hu.stored
    · obtain rfl | ⟨-, v, hv, rfl⟩ := exec_stopRestart_cases h
      · exact hq.congr rfl rfl rfl rfl rfl
      · exact (commitPoint_queueSound hv (hq.congr rfl rfl rfl rfl rfl)).congr rfl rfl rfl rfl rfl
    · rw [ht]
      exact hq.congr hcfg hring hhead htail hfull

/-! ### Backing storage -/

/-- No operation breaks the canonical form: commits and merges write allocated addresses only (R64). -/
theorem exec_storeWf {i : Instr} {s t : State} (h : exec i s = .next t) (hm : Memory.wf s.store = true) :
    Memory.wf t.store = true := by
  cases exec_storeChange h with
  | kept hkept => rwa [hkept]
  | committed x d base cells hi hmode hc =>
    rw [hc.stored]
    refine wf_applyWrites hm fun w hw => ?_
    obtain ⟨c, hmem, rfl⟩ := List.mem_map.1 hw
    exact storeValid_lt (hc.valid c hmem)
  | merged hi he hn hv ht =>
    rw [ht]
    exact wf_applyOrs hm fun w hw => storeValid_lt (hv w hw)

/-! ### Operations, launch and moves -/

theorem exec_sound {i : Instr} {s t : State} (h : exec i s = .next t) (hs : s.Sound) : t.Sound := by
  obtain ⟨hwf, hm, hq, htr⟩ := (State.sound_iff s).1 hs
  refine (State.sound_iff t).2 ⟨?_, exec_storeWf h hm, exec_queueSound h hq, exec_transactionSound h hwf htr⟩
  rw [(exec_kept h).1]; exact hwf

/-- A move without an operation keeps the phase and the queue, and writes storage at most. -/
theorem State.Sound.of_samePhase {s t : State} (hs : s.Sound) (h : SamePhase s t) (hm : Memory.wf t.store = true)
    (hq : t.QueueSound) : t.Sound :=
  (State.sound_iff t).2 ⟨h.cfg ▸ hs.configWf, hm, hq, h.transactionSound ((State.sound_iff s).1 hs).2.2.2⟩

/-- Every well-formed launch meets the invariant: the ring is empty and nothing is staged (R42). -/
theorem launch_sound {c : Config} {m : Memory} (hc : c.wf = true) (hm : Memory.wf m = true) :
    (State.launch c m).Sound := by
  obtain ⟨-, -, -, -, -, -, -, hcap⟩ := (Config.wf_iff c).1 hc
  exact
    { configWf := hc
      storeWf := hm
      scratchRising := rfl
      scratchBelow := fun j b h => nomatch h
      queue := ⟨List.length_replicate, hcap, hcap, fun h => nomatch h⟩
      lengthBelow := Nat.zero_le 256
      active := fun d h => nomatch h
      staged := fun h => nomatch h }

/-- Settles O11: the block is idle after reset, so no page is staged either. -/
theorem launchIsSound : Obligations.LaunchIsSound := by
  intro c m hc hm
  refine ⟨launch_sound hc hm, ?_, rfl⟩
  intro hmode
  exact nomatch hmode

/-- A reset of the running block is a launch over storage in canonical form (R230). -/
theorem resetBlock_sound {s : State} (hs : s.Sound) : (resetBlock s).Sound :=
  (launch_sound hs.configWf hs.storeWf).of_samePhase (samePhase_move _ s.input s.store .nothing) hs.storeWf
    ((launch_sound hs.configWf hs.storeWf).queue.congr rfl rfl rfl rfl rfl)

theorem setInput_sound {s : State} (hs : s.Sound) (rest : List Request) : (s.setInput rest).Sound :=
  hs.of_samePhase (samePhase_move s rest s.store s.out) hs.storeWf (hs.queue.congr rfl rfl rfl rfl rfl)

theorem enterContext_sound {c : Context} {s t : State} (h : enterContext c s = .ok t) (hs : s.Sound) : t.Sound := by
  obtain ⟨-, rfl⟩ | ⟨-, -, rfl⟩ := enterContext_eq_ok.1 h
  · exact hs
  · exact hs.of_samePhase (samePhase_setBusActive s true) hs.storeWf (hs.queue.congr rfl rfl rfl rfl rfl)

/-- Settles O13, move by move. -/
theorem stepKeepsSound : Obligations.StepKeepsSound := by
  intro s t hs h
  obtain ⟨-, ⟨-, rfl⟩ | ⟨r, rest, -, hmove⟩⟩ := step_eq_next h
  · exact hs
  · obtain ⟨o, rfl⟩ | ⟨a, v, -, hv, rfl⟩ | ⟨-, rfl⟩ | ⟨i, u, henter, hexec⟩ := hmove
    · exact hs.of_samePhase (samePhase_move s _ _ _) hs.storeWf (hs.queue.congr rfl rfl rfl rfl rfl)
    · exact hs.of_samePhase (samePhase_move s _ _ _)
        (Memory.wf_write v hs.storeWf (storeValid_lt hv)) (hs.queue.congr rfl rfl rfl rfl rfl)
    · exact resetBlock_sound (setInput_sound hs rest)
    · exact exec_sound hexec (enterContext_sound henter (setInput_sound hs rest))

end Sys2Proof.Machine
end

section
/-!
PROOFS. The page register (spec/10_state.md R36): where only the page-select command's storage holds it, it changes only by
a commit of that command, whose one byte the receiving rule has checked (spec/42_dispatch_write.md R146), and by a write of
the application.
-/

namespace Sys2Proof.Machine

/-! ### The page-select command -/

/-- R63 (b), for the descriptor that the command index answers with. -/
theorem pageSelect_shape {c : Config} {d : Descriptor} (hwf : c.wf = true) (hl : c.lookup pageCommand = some d) :
    d.code = pageCommand ∧ d.block = false ∧ d.paged = false ∧ d.writeLength = 1 := by
  obtain ⟨d', hl', hattr, -, hwrite⟩ := Config.pageSelect_of_wf hwf
  obtain rfl : d' = d := Option.some.inj (hl'.symm.trans hl)
  exact ⟨Config.code_of_lookup hwf hl, by simp [Descriptor.block, hattr], by simp [Descriptor.paged, hattr], hwrite⟩

/-- While page select is being written without an error, its effective length is its one byte (R27). -/
theorem pageSelect_writeLength {s : State} {d : Descriptor} (hwf : s.cfg.wf = true) (hs : s.TransactionSound)
    (hm : s.mode = .addrWrite) (he : s.errorLatched = false) (h1 : 1 ≤ s.rxIndex.toNat) (ha : s.activeDesc = some d)
    (hl : s.cfg.lookup pageCommand = some d) : s.writeLength.toNat = 1 := by
  obtain ⟨-, hblock, -, hwrite⟩ := pageSelect_shape hwf hl
  obtain ⟨hlen, -⟩ := hs.staged hm he h1 d ha
  rw [LengthMatches, if_neg (by simp [hblock]), hwrite] at hlen
  exact hlen

/-- The active descriptor is the one the command index gives for the active code (R46). -/
theorem lookup_of_activeCode {s : State} {d : Descriptor} {code : Byte} (hs : s.TransactionSound)
    (ha : s.activeDesc = some d) (hcode : s.activeCode = code) : s.cfg.lookup code = some d :=
  hcode ▸ (hs.active d ha).1

/-- The range check of R146 admits the legal page values only. -/
theorem pageByteOk_of_pageByteLegal {c : Config} {b : Byte} (h : pageByteLegal c b = true) : PageByteOk c b := by
  rwa [pageByteLegal, Bool.or_eq_true, decide_eq_true_iff, decide_eq_true_iff] at h

/-! ### The staged page -/

/-- The hypothesis about the staged byte reads the registers of the write phase only. -/
theorem SamePhase.stagedPageLegal {s t : State} (h : SamePhase s t) (hp : StagedPageLegal s) : StagedPageLegal t := by
  unfold StagedPageLegal at hp ⊢
  rwa [h.mode, h.errorLatched, h.rxIndex, h.activeCode, h.activeDesc, h.scratch, h.cfg]

theorem stagedPageLegal_of_turned {t : State} (h : t.mode = .addrWrite → t.rxIndex = 0) : StagedPageLegal t := by
  intro hm _ h2
  rw [h hm] at h2
  exact absurd h2 (by decide)

/-- The byte staged for page select is legal after a received byte of any kind: the first payload byte passed the range
check, and no later byte is staged (R146). -/
theorem Received.stagedPageLegal {b : Byte} {s u : State} (h : Received b s u) (hwf : s.cfg.wf = true)
    (hs : s.TransactionSound) (hm : s.mode = .addrWrite) (hp : StagedPageLegal s) :
    StagedPageLegal (u.setRxIndex (satInc u.rxIndex)) := by
  intro _ he h2 hcode hne c hc
  cases h with
  | command d h0 hl hu =>
    subst hu
    have h2 : 2 ≤ (satInc s.rxIndex).toNat := h2
    rw [h0] at h2
    exact absurd h2 (by decide)
  | length d h1 ha hb hle hu =>
    subst hu
    obtain ⟨-, hblock, -⟩ := pageSelect_shape hwf (lookup_of_activeCode hs ha hcode)
    exact absurd (hb.symm.trans hblock) (by decide)
  | staged d h1 ha _ hw hv hj hu =>
    subst hu
    have hl := lookup_of_activeCode hs ha hcode
    obtain ⟨hdcode, hblock, -⟩ := pageSelect_shape hwf hl
    have hlen := pageSelect_writeLength hwf hs hm he h1 ha hl
    have hoff : stagingOffset d s = 0 := by
      rw [stagingOffset, if_neg (by simp [hblock])]; omega
    rw [State.setRxIndex_scratch, crcUpdate, State.setPec_scratch, State.setScratch_scratch, Memory.get_set,
      if_pos hoff] at hc
    obtain rfl : b = c := Option.some.inj hc
    exact pageByteOk_of_pageByteLegal (hv.resolve_left fun hv => hv hdcode)
  | passed h1 hd hu =>
    subst hu
    obtain ⟨d, ha⟩ := Option.ne_none_iff_exists'.1 hne
    have hlen := pageSelect_writeLength hwf hs hm he h1 ha (lookup_of_activeCode hs ha hcode)
    have hlt := (hd d ha).2
    exact hp hm he (by omega) hcode hne c hc
  | faulted hlatched => exact absurd (hlatched.symm.trans he) (by decide)

/-- No operation stages an illegal page. -/
theorem exec_stagedPageLegal {i : Instr} {s t : State} (h : exec i s = .next t) (hwf : s.cfg.wf = true)
    (hs : s.TransactionSound) (hp : StagedPageLegal s) : StagedPageLegal t := by
  cases exec_phaseChange h with
  | same hph => exact hph.stagedPageLegal hp
  | turned hph hm => exact stagedPageLegal_of_turned hm
  | received b u hm hb ht =>
    have hstart := samePhase_setNewStatus s 0
    exact ht.stagedPageLegal ((received_of_receiveCase hb).stagedPageLegal hwf (hstart.transactionSound hs) hm
      (hstart.stagedPageLegal hp))

/-! ### Where a commit writes -/

/-- The bytes of a commit lie inside the command's copy of its storage (R70, R71). -/
theorem commitCells_offset_lt {d : Descriptor} {s : State} {cells : List Host.Cell} (h : commitCells d s = .ok cells)
    (hd : d.block = true ∨ d.lenByteFirst = false) (hlen : LengthMatches d s) : ∀ c ∈ cells, c.1 < d.stride := by
  intro c hc
  obtain ⟨-, rfl⟩ | ⟨-, -, bs, hbs, rfl⟩ | ⟨-, -, -, rfl⟩ | ⟨-, hblock, h2, bs, hbs, rfl⟩ := commitCells_eq_ok.1 h
  · simp at hc
  · obtain ⟨j, hj, rfl⟩ := mem_payloadCells.1 hc
    have hcount := (scratchBytes_eq_ok.1 hbs).1
    exact byteOff_lt (by omega) (Nat.le_refl _) hd
  · simp at hc
  · rw [LengthMatches, if_pos ⟨hblock, h2⟩] at hlen
    obtain hc | hc := List.mem_append.1 hc
    · split at hc
      · rename_i hfirst
        obtain rfl := List.mem_singleton.1 hc
        simp [Descriptor.stride, Descriptor.lenRes, hfirst]
      · simp at hc
    · obtain ⟨j, hj, rfl⟩ := mem_payloadCells.1 hc
      have hcount := (scratchBytes_eq_ok.1 hbs).1
      exact byteOff_lt (by omega) (by omega) hd

/-- An offset inside the page's copy is an offset inside the footprint of all copies (R66, R69). -/
theorem base_add_in_footprint {d : Descriptor} {s : State} {base j : Nat} (h : baseAddress d s = .ok base)
    (hj : j < d.stride) :
    ∃ k, k < d.copies s.cfg.numPages * d.stride ∧ base + j = d.storageAddress.toNat + k := by
  obtain ⟨p, hp, rfl⟩ := baseAddress_eq_ok h
  refine ⟨p * d.stride + j, ?_, Nat.add_assoc _ _ _⟩
  calc p * d.stride + j < (p + 1) * d.stride := by rw [Nat.add_mul, Nat.one_mul]; omega
    _ ≤ d.copies s.cfg.numPages * d.stride := Nat.mul_le_mul_right _ hp

/-- A commit of another command does not reach an isolated page register. -/
theorem CommitStored.page_kept {d d0 : Descriptor} {base : Nat} {cells : List Host.Cell} {s : State} {m : Memory}
    (h : CommitStored d base cells s m) (hwf : s.cfg.wf = true) (hs : s.TransactionSound) (hm : s.mode = .addrWrite)
    (hiso : PageIsolated s.cfg) (hl : s.cfg.lookup pageCommand = some d0) (hcode : s.activeCode ≠ pageCommand) :
    Memory.read m d0.storageAddress.toNat = Memory.read s.store d0.storageAddress.toNat := by
  rw [h.stored]
  refine read_applyWrites_other fun w hw => ?_
  obtain ⟨c, hc, rfl⟩ := List.mem_map.1 hw
  have hlookup := (hs.active d h.active).1
  obtain ⟨hlen, -⟩ := hs.staged hm h.clear h.counted d h.active
  have hblock := Config.block_of_wf hwf (Config.mem_table_of_lookup hlookup)
  obtain ⟨k, hk, haddr⟩ := base_add_in_footprint h.based (commitCells_offset_lt h.bytes hblock hlen c hc)
  show base + c.1 ≠ _
  rw [haddr]
  exact (hiso d0 hl).2 s.activeCode d hcode hlookup k hk

/-- A commit of page select stores the staged byte in the page register (R152). -/
theorem CommitStored.page_staged {d : Descriptor} {base : Nat} {cells : List Host.Cell} {s : State} {m : Memory}
    (h : CommitStored d base cells s m) (hwf : s.cfg.wf = true) (hl : s.cfg.lookup pageCommand = some d) :
    Memory.get s.scratch 0 = some (Memory.read m d.storageAddress.toNat) := by
  obtain ⟨-, hblock, hpaged, hwrite⟩ := pageSelect_shape hwf hl
  have hbase : d.storageAddress.toNat = base :=
    Except.ok.inj ((baseAddress_of_not_paged hpaged s).symm.trans h.based)
  obtain ⟨hzero, -⟩ | ⟨-, -, bs, hbs, hcells⟩ | ⟨-, hb, -⟩ | ⟨-, hb, -⟩ := commitCells_eq_ok.1 h.bytes
  · exact absurd (hwrite.symm.trans hzero) (by decide)
  · rw [hwrite] at hbs hcells
    obtain ⟨hcount, hget⟩ := scratchBytes_eq_ok.1 hbs
    obtain ⟨b, rfl⟩ := List.length_eq_one_iff.1 (hcount : bs.length = 1)
    have hoff : byteOff s.cfg.storageMsbFirst 0 (1 : Byte).toNat d = 0 := by
      rw [byteOff, if_neg (by simp [hblock])]; split <;> rfl
    have hread : Memory.read m base = b := by
      rw [h.stored, hcells]
      simp only [payloadCells, hoff, List.map_cons, List.map_nil]
      exact Memory.read_write_same s.store base b
    rw [hbase, hread]
    exact hget 0 Nat.zero_lt_one
  · exact absurd (hblock.symm.trans hb) (by decide)
  · exact absurd (hblock.symm.trans hb) (by decide)

/-! ### The page register -/

/-- In a well-formed configuration the page register is the byte at page select's storage address. -/
theorem pageLegalNow_iff_read {s : State} {d0 : Descriptor} (hwf : s.cfg.wf = true)
    (hl : s.cfg.lookup pageCommand = some d0) :
    PageLegalNow s ↔ PageByteOk s.cfg (Memory.read s.store d0.storageAddress.toNat) := by
  obtain ⟨p, hp⟩ := pageValue_total hwf
  obtain ⟨d, hd, -, rfl⟩ := pageValue_eq_ok.1 hp
  obtain rfl : d = d0 := Option.some.inj (hd.symm.trans hl)
  exact ⟨fun ⟨q, hq, hok⟩ => Except.ok.inj (hp.symm.trans hq) ▸ hok, fun hok => ⟨_, hp, hok⟩⟩

theorem pageLegalNow_congr {s t : State} (hc : t.cfg = s.cfg) (hm : t.store = s.store) :
    PageLegalNow t ↔ PageLegalNow s := by
  unfold PageLegalNow
  rw [pageValue_congr hc hm, hc]

/-- A commit leaves a legal page: it stores the byte that the receiving rule checked, or does not reach the register. -/
theorem CommitStored.pageByteOk {d d0 : Descriptor} {base : Nat} {cells : List Host.Cell} {s : State} {m : Memory}
    (h : CommitStored d base cells s m) (hwf : s.cfg.wf = true) (hs : s.TransactionSound) (hm : s.mode = .addrWrite)
    (hiso : PageIsolated s.cfg) (hp : StagedPageLegal s) (hl : s.cfg.lookup pageCommand = some d0)
    (hok : PageByteOk s.cfg (Memory.read s.store d0.storageAddress.toNat)) :
    PageByteOk s.cfg (Memory.read m d0.storageAddress.toNat) := by
  by_cases hcode : s.activeCode = pageCommand
  · obtain rfl : d = d0 := Option.some.inj ((lookup_of_activeCode hs h.active hcode).symm.trans hl)
    have hlen := pageSelect_writeLength hwf hs hm h.clear h.counted h.active hl
    have hcomplete := h.complete
    exact hp hm h.clear (by omega) hcode (by simp [h.active]) _ (h.page_staged hwf hl)
  · rwa [h.page_kept hwf hs hm hiso hl hcode]

/-- No operation puts an illegal value into an isolated page register. -/
theorem exec_pageLegalNow {i : Instr} {s t : State} (h : exec i s = .next t) (hs : s.Sound) (hiso : PageIsolated s.cfg)
    (hp : StagedPageLegal s) (hl : PageLegalNow s) : PageLegalNow t := by
  obtain ⟨hwf, -, -, htr⟩ := (State.sound_iff s).1 hs
  have hcfg := (exec_kept h).1
  obtain ⟨d0, hd0, -⟩ := Config.pageSelect_of_wf hwf
  have hok := (pageLegalNow_iff_read hwf hd0).1 hl
  rw [pageLegalNow_iff_read (d0 := d0) (by rw [hcfg]; exact hwf) (by rw [hcfg]; exact hd0), hcfg]
  cases exec_storeChange h with
  | kept hkept => rwa [hkept]
  | committed x d base cells hi hm hc =>
    have hstart := samePhase_setNewStatus s 0
    exact hc.pageByteOk hwf (hstart.transactionSound htr) hm hiso (hstart.stagedPageLegal hp) hd0 hok
  | merged hi he hn hv ht =>
    rwa [ht, read_applyOrs_other ((hiso d0 hd0).1 t.newStatus)]

/-- An application write that the environment premise admits leaves a legal page (R69). -/
theorem appWrite_pageLegalNow {s : State} {a : Address} {v : Byte} {rest : List Request} (hwf : s.cfg.wf = true)
    (hin : s.input = .appWrite a v :: rest) (hw : LegalPageWrites s) (hl : PageLegalNow s) :
    PageLegalNow { s with input := rest, store := Memory.write s.store a.toNat v, out := .nothing } := by
  obtain ⟨d0, hd0, -⟩ := Config.pageSelect_of_wf hwf
  have hok := (pageLegalNow_iff_read hwf hd0).1 hl
  refine (pageLegalNow_iff_read (d0 := d0) (by exact hwf) (by exact hd0)).2 ?_
  show PageByteOk s.cfg (Memory.read (Memory.write s.store a.toNat v) d0.storageAddress.toNat)
  rw [Memory.read_write]
  split
  · rename_i haddr; exact hw a v rest d0 hin hd0 haddr
  · exact hok

/-- Entering a context keeps the phase and storage, and enters the dispatcher with a legal page only (R216, R236). -/
theorem enterContext_page {c : Context} {s u : State} (h : enterContext c s = .ok u)
    (hactive : s.busActive = true → PageLegalNow s) :
    SamePhase s u ∧ u.store = s.store ∧ (u.busActive = true → PageLegalNow s) := by
  obtain ⟨-, rfl⟩ | ⟨-, hlegal, rfl⟩ := enterContext_eq_ok.1 h
  · exact ⟨samePhase_setBusActive u u.busActive, rfl, hactive⟩
  · exact ⟨samePhase_setBusActive s true, rfl, fun _ => hlegal.elim hactive id⟩

/-- An operation run in its context keeps a legal page, and leaves none illegal in the register or staged. -/
theorem runInContext_keeps_page {i : Instr} {s u t : State} (henter : enterContext i.context s = .ok u)
    (hexec : exec i u = .next t) (hs : s.Sound) (hiso : PageIsolated s.cfg)
    (hactive : s.busActive = true → PageLegalNow s) (hp : StagedPageLegal s) :
    (PageLegalNow s → PageLegalNow t) ∧ (t.busActive = true → PageLegalNow t) ∧ StagedPageLegal t := by
  obtain ⟨hsame, hstore, hentered⟩ := enterContext_page henter hactive
  have hus := enterContext_sound henter hs
  have hup := hsame.stagedPageLegal hp
  have hkeeps : PageLegalNow s → PageLegalNow t := fun hl =>
    exec_pageLegalNow hexec hus (hsame.cfg ▸ hiso) hup ((pageLegalNow_congr hsame.cfg hstore).2 hl)
  refine ⟨hkeeps, fun ha => hkeeps (hentered ?_), ?_⟩
  · rw [← (exec_kept hexec).2.2]; exact ha
  · exact exec_stagedPageLegal hexec hus.configWf ((State.sound_iff u).1 hus).2.2.2 hup

/-- Settles O14, move by move: a move without an operation reads or resets, or is the application write that the premise
is about; an operation of the dispatcher starts with a legal page (R216, R236) and keeps it. -/
theorem stepKeepsPageLegal : Obligations.StepKeepsPageLegal := by
  intro s t hs hiso hactive hp hw h
  obtain ⟨hwf, ⟨-, rfl⟩ | ⟨r, rest, hin, hmove⟩⟩ := step_eq_next h
  · exact ⟨id, hactive, hp⟩
  · obtain ⟨o, rfl⟩ | ⟨a, v, rfl, -, rfl⟩ | ⟨-, rfl⟩ | ⟨i, u, henter, hexec⟩ := hmove
    · exact ⟨id, hactive, (samePhase_move s _ _ _).stagedPageLegal hp⟩
    · have hkeeps := appWrite_pageLegalNow hwf hin hw
      exact ⟨hkeeps, fun ha => hkeeps (hactive ha), (samePhase_move s _ _ _).stagedPageLegal hp⟩
    · exact ⟨id, fun ha => absurd ha Bool.false_ne_true, stagedPageLegal_of_turned fun _ => rfl⟩
    · have hprest : StagedPageLegal (s.setInput rest) := (samePhase_move s rest s.store s.out).stagedPageLegal hp
      exact runInContext_keeps_page (s := s.setInput rest) henter hexec (setInput_sound hs rest) hiso hactive hprest

end Sys2Proof.Machine
end

section
/-!
PROOFS. Backing storage and the page register (spec/20_memory.md R64, R68 to R70): what one access answers at an address
that is not allocated, and the storage base of a command under a page.
-/

namespace Sys2Proof.Machine

theorem storeRead_of_invalid {s : State} {a : Nat} (h : storeValid s.cfg a = false) :
    storeRead s a = .error (.refusal (.storageNotAllocated a)) := by
  rw [storeRead, if_neg (by simp [h])]

theorem storeWrite_of_invalid {s : State} {a : Nat} (h : storeValid s.cfg a = false) (v : Byte) :
    storeWrite s a v = .error (.refusal (.storageNotAllocated a)) := by
  rw [storeWrite, if_neg (by simp [h])]

/-- Settles O54: an allocated address is read and written as `Memory.read` and `Memory.write` do, any other is refused. -/
theorem storageAccess : Obligations.StorageAccess := by
  intro s a v
  refine ⟨fun hvalid => ?_, fun hinvalid => ⟨storeRead_of_invalid hinvalid, storeWrite_of_invalid hinvalid v⟩⟩
  exact
    ⟨storeRead_eq_ok.2 ⟨hvalid, rfl⟩, Memory.write s.store a v, storeWrite_eq_ok.2 ⟨hvalid, rfl⟩,
      Memory.read_write_same s.store a v, fun b hb => Memory.read_write_other s.store v hb.symm,
      fun hwf => Memory.wf_write v hwf (storeValid_lt hvalid)⟩

/-- Settles O53: without `PAGED` the page is not read; with it the page decides legality and the copy. -/
theorem pageTranslation : Obligations.PageTranslation := by
  intro s d
  refine ⟨fun hpaged => ⟨pageLegal_of_not_paged hpaged s, baseAddress_of_not_paged hpaged s⟩, ?_⟩
  intro p hpaged hp
  refine ⟨pageLegal_of_paged hpaged hp, fun hlt => ?_, fun hle _ => ?_⟩
  · rw [baseAddress_of_paged hpaged hp, if_pos hlt]
    rfl
  · rw [baseAddress_of_paged hpaged hp, if_neg (Nat.not_lt.2 hle)]

end Sys2Proof.Machine
end

section
/-!
PROOFS. What each kind of move makes of a step (spec/20_memory.md R80, spec/60_exceptions.md R215, R216): the step of a
well-formed configuration is the run of its oldest move, and an operation is run in its context.
-/

namespace Sys2Proof.Machine

theorem step_of_not_wf {s : State} (h : s.cfg.wf = false) : step s = .refused .illFormedConfiguration := by
  rw [step, stepLaunched, if_neg (by simp [h])]

theorem step_of_no_input {s : State} (hwf : s.cfg.wf = true) (hin : s.input = []) : step s = .next s := by
  rw [step, stepLaunched, if_pos hwf, runNext, hin]

theorem step_of_input {s : State} {r : Request} {rest : List Request} (hwf : s.cfg.wf = true)
    (hin : s.input = r :: rest) : step s = runRequest r (s.setInput rest) := by
  rw [step, stepLaunched, if_pos hwf, runNext, hin]

/-- A word from the context of its operation runs that operation there. -/
theorem step_of_op {s : State} {issuer : Context} {word : PortWord} {rest : List Request} {i : Instr}
    (hwf : s.cfg.wf = true) (hin : s.input = .op issuer word :: rest) (hdec : decode word = .ok i)
    (hctx : issuer = i.context) : step s = runInContext i (s.setInput rest) := by
  rw [step_of_input hwf hin, runRequest, runWord, hdec]
  exact if_pos hctx

theorem runInContext_of_entered {i : Instr} {s u : State} (h : enterContext i.context s = .ok u) :
    runInContext i s = exec i u := by
  rw [runInContext, h]

/-- Settles O4: the application's context is entered as it is, the dispatcher's with the mark that the bus is active. -/
theorem stepRunsTheDecodedOperation : Obligations.StepRunsTheDecodedOperation := by
  intro s issuer word rest i hwf hin hdec hctx
  rw [step_of_op hwf hin hdec hctx]
  refine ⟨fun happ => ?_, fun hint hlegal => ?_⟩
  · exact runInContext_of_entered (enterContext_eq_ok.2 (.inl ⟨hctx.symm.trans happ, rfl⟩))
  · exact runInContext_of_entered (enterContext_eq_ok.2 (.inr ⟨hctx.symm.trans hint, hlegal, rfl⟩))

theorem runAppRead_of_valid {s : State} {a : Address} (h : storeValid s.cfg a.toNat = true) :
    runAppRead a s = .next (s.setOut (.stored (Memory.read s.store a.toNat))) := by
  rw [runAppRead, storeRead_eq_ok.2 ⟨h, rfl⟩]
  rfl

theorem runAppRead_of_invalid {s : State} {a : Address} (h : storeValid s.cfg a.toNat = false) :
    runAppRead a s = .refused (.storageNotAllocated a.toNat) := by
  rw [runAppRead, storeRead_of_invalid h]
  rfl

theorem runAppWrite_of_valid {s : State} {a : Address} (h : storeValid s.cfg a.toNat = true) (v : Byte) :
    runAppWrite a v s = .next ((s.setStore (Memory.write s.store a.toNat v)).setOut .nothing) := by
  rw [runAppWrite, storeWrite_eq_ok.2 ⟨h, rfl⟩]
  rfl

theorem runAppWrite_of_invalid {s : State} {a : Address} (h : storeValid s.cfg a.toNat = false) (v : Byte) :
    runAppWrite a v s = .refused (.storageNotAllocated a.toNat) := by
  rw [runAppWrite, storeWrite_of_invalid h]
  rfl

/-- Settles O7: the two moves are one storage access each. -/
theorem applicationAccess : Obligations.ApplicationAccess := by
  intro s a v rest hwf
  refine ⟨fun hin hvalid => ?_, fun hin hvalid => ?_, fun hin hinvalid => ?_⟩
  · rw [step_of_input hwf hin]
    exact runAppRead_of_valid (s := s.setInput rest) hvalid
  · refine ⟨Memory.write s.store a.toNat v, ?_, Memory.read_write_same _ _ _,
      fun b hb => Memory.read_write_other _ _ hb.symm⟩
    rw [step_of_input hwf hin]
    exact runAppWrite_of_valid (s := s.setInput rest) hvalid v
  · obtain hin | hin := hin <;> rw [step_of_input hwf hin]
    · exact runAppRead_of_invalid (s := s.setInput rest) hinvalid
    · exact runAppWrite_of_invalid (s := s.setInput rest) hinvalid v

/-- The first event needs a legal page (R216, R236). -/
theorem enterDispatcher_of_illegal {s : State} {p : Byte} (hidle : s.busActive = false) (hp : pageValue s = .ok p)
    (hbad : ¬PageByteOk s.cfg p) : enterDispatcher s = .error (.refusal (.pageNotInitialised p)) := by
  have hcheck : ¬pageByteLegal s.cfg p = true := fun h => hbad (pageByteOk_of_pageByteLegal h)
  rw [enterDispatcher, if_neg (by simp [hidle]), hp, ok_bind, if_neg hcheck]

/-- Settles O8: the refused configuration, the refused first event, the empty queue and the reset, each through the lemma
about its step. -/
theorem stepWithoutAnOperation : Obligations.StepWithoutAnOperation := by
  intro s
  refine ⟨step_of_not_wf, ?_, step_of_no_input, fun rest hwf hin => ?_⟩
  · intro word rest i p hwf hidle hin hdec hctx hp hbad
    have henter : enterContext i.context (s.setInput rest) = .error (.refusal (.pageNotInitialised p)) := by
      rw [hctx]
      exact enterDispatcher_of_illegal (s := s.setInput rest) hidle hp hbad
    rw [step_of_op hwf hin hdec hctx.symm, runInContext, henter]
    rfl
  · rw [step_of_input hwf hin]
    rfl

end Sys2Proof.Machine
end

section
/-!
PROOFS. Totality of the dispatcher step (spec/44_dispatch_misc.md R190): where the invariant holds, what a rule reads has
been staged (R28), is allocated (R63, R64) or lies in the ring (R46), and the one thing left that can stop it is a page
value between `NUM_PAGES` and 0xFF (spec/20_memory.md R69).
-/

namespace Sys2Proof.Machine

/-! ### Computations that only the page register can stop -/

/-- `x` succeeds, or is refused because the page register of `s` holds a value between `NUM_PAGES` and 0xFF (R36, R69). -/
inductive StopsOnlyOnPage (s : State) {α : Type} (x : Except Stop α) : Prop where
  /-- it succeeds -/
  | succeeds (a : α) (h : x = .ok a)
  /-- the storage base has no value on this page -/
  | refused (p : Byte) (hp : pageValue s = .ok p) (hle : s.cfg.numPages ≤ p.toNat) (hne : p ≠ 0xFF)
      (h : x = .error (.refusal (.pageOutsideLegal p)))

theorem stopsOnlyOnPage_ok {s : State} {α : Type} (a : α) : StopsOnlyOnPage s (.ok a) := .succeeds a rfl

theorem StopsOnlyOnPage.bind {s : State} {α β : Type} {x : Except Stop α} {f : α → Except Stop β}
    (hx : StopsOnlyOnPage s x) (hf : ∀ a, x = .ok a → StopsOnlyOnPage s (f a)) : StopsOnlyOnPage s (x >>= f) := by
  cases hx with
  | succeeds a h => have hfa := hf a h; subst h; exact hfa
  | refused p hp hle hne h => subst h; exact .refused p hp hle hne rfl

/-- The page register is read from the configuration and storage alone. -/
theorem StopsOnlyOnPage.congr {s r : State} {α : Type} {x : Except Stop α} (h : StopsOnlyOnPage r x)
    (hc : r.cfg = s.cfg) (hm : r.store = s.store) : StopsOnlyOnPage s x := by
  cases h with
  | succeeds a h => exact .succeeds a h
  | refused p hp hle hne h => exact .refused p ((pageValue_congr hc hm).symm.trans hp) (hc ▸ hle) hne h

theorem stopsOnlyOnPage_runEnabled {s u : State} {en : Bool} {rule : State → Except Stop State}
    (h : en = true → StopsOnlyOnPage s (rule u)) : StopsOnlyOnPage s (runEnabled en rule u) := by
  cases en with
  | true => exact h rfl
  | false => exact stopsOnlyOnPage_ok (catchAll u)

theorem stopsOnlyOnPage_baseAddress {d : Descriptor} {s : State} (hwf : s.cfg.wf = true)
    (hl : pageLegal d s = .ok true) : StopsOnlyOnPage s (baseAddress d s) := by
  obtain ⟨base, hb⟩ | ⟨p, hp, hle, hne, he⟩ := baseAddress_total hwf hl
  · exact .succeeds base hb
  · exact .refused p hp hle hne he

/-! ### The write phase -/

/-- The received byte is staged inside the scratch buffer (R77). -/
theorem receiveData_total {d : Descriptor} {b : Byte} {s : State} (hwf : s.cfg.wf = true)
    (hlen : s.writeLength.toNat ≤ 256) (h1 : 1 ≤ s.rxIndex.toNat) (hw : s.rxIndex.toNat ≤ s.writeLength.toNat) :
    ∃ u, receiveData d b s = .ok u := by
  obtain ⟨legal, hlegal⟩ := pageLegal_total hwf d
  have hoff : stagingOffset d s < scratchSize := by
    unfold stagingOffset scratchSize
    split <;> omega
  by_cases hv : (legal && (decide (d.code ≠ pageCommand) || pageByteLegal s.cfg b)) = true
  · exact ⟨_, receiveData_eq_ok.2 ⟨legal, hlegal, by rw [if_pos hv]; exact ⟨hoff, rfl⟩⟩⟩
  · exact ⟨_, receiveData_eq_ok.2 ⟨legal, hlegal, by rw [if_neg hv]⟩⟩

/-- Of the six cases of a received byte only DATA can stop at all (R149). -/
theorem receiveCase_total {b : Byte} {s : State} (hwf : s.cfg.wf = true) (hlen : s.writeLength.toNat ≤ 256) :
    ∃ u, receiveCase b s = .ok u := by
  by_cases h0 : s.rxIndex = 0
  · exact ⟨_, receiveCase_command b h0⟩
  · cases ha : s.activeDesc with
    | none => exact ⟨_, receiveCase_swallow b h0 ha⟩
    | some d =>
      have h1 := one_le_of_ne_zero h0
      rw [receiveCase_supported b h1 ha]
      split
      · exact ⟨_, rfl⟩
      · split
        · rename_i hw; exact receiveData_total hwf hlen h1 hw
        · split <;> exact ⟨_, rfl⟩

theorem dataReceived_total {b : Byte} {s : State} (hwf : s.cfg.wf = true) (hlen : s.writeLength.toNat ≤ 256) :
    ∃ u, dataReceived b s = .ok u := by
  obtain ⟨v, hv⟩ := receiveCase_total (b := b) hwf hlen
  exact ⟨_, dataReceived_eq_ok.2 ⟨v, hv, rfl⟩⟩

/-! ### The commit point -/

/-- How many payload bytes a commit copies out of scratch (R152, R153). -/
def committedCount (d : Descriptor) (s : State) : Nat :=
  if d.block = true then s.writeLength.toNat - 1 else d.writeLength.toNat

/-- With its payload staged a commit knows what to store. -/
theorem commitCells_total {d : Descriptor} {s : State}
    (h : ∀ k, k < committedCount d s → ∃ b, Memory.get s.scratch k = some b) : ∃ cells, commitCells d s = .ok cells := by
  obtain ⟨bs, hbs⟩ := scratchBytes_total h
  unfold committedCount at hbs
  by_cases hw : d.writeLength = 0
  · exact ⟨_, commitCells_eq_ok.2 (.inl ⟨hw, rfl⟩)⟩
  · cases hb : d.block with
    | false =>
      rw [if_neg (by simp [hb])] at hbs
      exact ⟨_, commitCells_eq_ok.2 (.inr (.inl ⟨hw, hb, bs, hbs, rfl⟩))⟩
    | true =>
      rw [if_pos hb] at hbs
      obtain hlt | hge := Nat.lt_or_ge s.rxIndex.toNat 2
      · exact ⟨_, commitCells_eq_ok.2 (.inr (.inr (.inl ⟨hw, hb, hlt, rfl⟩)))⟩
      · exact ⟨_, commitCells_eq_ok.2 (.inr (.inr (.inr ⟨hw, hb, hge, bs, hbs, rfl⟩)))⟩

/-- A commit while the page is illegal stores nothing (R68). -/
theorem commit_of_illegal {d : Descriptor} {s : State} (hl : pageLegal d s = .ok false)
    (h : ∀ k, k < committedCount d s → ∃ b, Memory.get s.scratch k = some b) : commit d s = .ok s := by
  obtain ⟨cells, hcells⟩ := commitCells_total h
  refine commit_eq_ok.2 ⟨cells, hcells, ?_⟩
  by_cases hnil : cells = []
  · exact .inl ⟨hnil, rfl⟩
  · exact .inr (.inl ⟨hnil, hl, rfl⟩)

theorem sendByte_of_writeLength_ne_zero {d : Descriptor} (h : d.writeLength ≠ 0) : d.sendByte = false := by
  rw [Descriptor.sendByte, decide_eq_false h, Bool.and_false]

/-- The commit point of a command with an illegal page changes nothing, whichever of its tests decides. -/
theorem commitPoint_of_illegal {d : Descriptor} {s : State} (ha : s.activeDesc = some d) (hw : d.writeLength ≠ 0)
    (hl : pageLegal d s = .ok false)
    (h : ∀ k, k < committedCount d s → ∃ b, Memory.get s.scratch k = some b) : commitPoint s = .ok s := by
  have hsend := sendByte_of_writeLength_ne_zero hw
  rw [commitPoint_eq_ok]
  by_cases hopen : s.errorLatched = false ∧ 1 ≤ s.rxIndex.toNat
  · refine .inr ⟨hopen.1, hopen.2, .inr ⟨d, ha, .inr ?_⟩⟩
    obtain hshort | hcomplete := Nat.lt_or_ge (s.rxIndex.toNat - 1) s.writeLength.toNat
    · exact .inr ⟨hsend, hshort, rfl⟩
    · exact .inl ⟨hsend, hcomplete, commit_of_illegal hl h⟩
  · exact .inl ⟨hopen, rfl⟩

/-- Settles O37: the commit point keeps the state, so the event only ends the write phase. -/
theorem illegalPageCommitsNothing : Obligations.IllegalPageCommitsNothing := by
  intro s x d hm ha hw hl hstaged
  have hpoint : commitPoint (s.setNewStatus 0) = .ok (s.setNewStatus 0) :=
    commitPoint_of_illegal ha hw ((pageLegal_congr d rfl rfl).trans hl) hstaged
  rw [exec_closeWritePhase hm]
  exact dispatcherStep_of_quiet (closeWritePhase_eq_ok.2 ⟨_, hpoint, rfl⟩) rfl

/-- A complete write phase has staged what its commit copies (R28). -/
theorem committed_staged {d : Descriptor} {s : State} (hs : s.TransactionSound) (hm : s.mode = .addrWrite)
    (he : s.errorLatched = false) (h1 : 1 ≤ s.rxIndex.toNat) (ha : s.activeDesc = some d)
    (hcomplete : s.writeLength.toNat ≤ s.rxIndex.toNat - 1) :
    ∀ k, k < committedCount d s → ∃ b, Memory.get s.scratch k = some b := by
  obtain ⟨hlen, hall⟩ := hs.staged hm he h1 d ha
  intro k hk
  refine hall k ?_
  unfold committedCount at hk
  unfold stagedCount
  cases hb : d.block with
  | false =>
    rw [if_neg (by simp [hb])] at hk
    rw [LengthMatches, if_neg (by simp [hb])] at hlen
    rw [if_neg (by simp)]
    omega
  | true =>
    rw [if_pos hb] at hk
    rw [if_pos rfl]
    omega

/-- A queue that is a ring takes or drops every entry (R131). -/
theorem queuePush_total {s : State} (hq : s.QueueSound) (e : QEntry) : ∃ r, queuePush e s = .ok r := by
  cases hf : s.qFull with
  | true => exact ⟨_, queuePush_eq_ok.2 (.inl ⟨hf, rfl⟩)⟩
  | false => exact ⟨_, queuePush_eq_ok.2 (.inr ⟨hf, by rw [hq.ringLength]; exact hq.tailBelow, rfl⟩)⟩

theorem sendByteEnqueue_total {d : Descriptor} {s : State} (hwf : s.cfg.wf = true) (hq : s.QueueSound) :
    ∃ u, sendByteEnqueue d s = .ok u := by
  obtain ⟨p, hp⟩ := pageValue_total hwf
  obtain ⟨⟨taken, u⟩, hpush⟩ := queuePush_total hq { code := d.code, page := p }
  exact ⟨u, sendByteEnqueue_eq_ok.2 ⟨p, hp, taken, hpush⟩⟩

/-- The active command's descriptor is in the command table (R46). -/
theorem State.Sound.active_mem_table {s : State} (hs : s.Sound) {d : Descriptor} (ha : s.activeDesc = some d) :
    d ∈ s.cfg.table :=
  Config.mem_table_of_lookup (hs.active d ha).1

/-- A commit of staged bytes finds its addresses allocated (R63 (d)). -/
theorem stopsOnlyOnPage_commit {d : Descriptor} {s : State} (hs : s.Sound) (hm : s.mode = .addrWrite)
    (he : s.errorLatched = false) (h1 : 1 ≤ s.rxIndex.toNat) (ha : s.activeDesc = some d)
    (hcomplete : s.writeLength.toNat ≤ s.rxIndex.toNat - 1) : StopsOnlyOnPage s (commit d s) := by
  obtain ⟨hwf, -, -, htr⟩ := (State.sound_iff s).1 hs
  have hmem := hs.active_mem_table ha
  have hstaged := committed_staged htr hm he h1 ha hcomplete
  obtain ⟨cells, hcells⟩ := commitCells_total hstaged
  obtain ⟨legal, hl⟩ := pageLegal_total hwf d
  cases legal with
  | false => exact .succeeds s (commit_of_illegal hl hstaged)
  | true =>
    by_cases hnil : cells = []
    · exact .succeeds s (commit_eq_ok.2 ⟨cells, hcells, .inl ⟨hnil, rfl⟩⟩)
    · have hoff := commitCells_offset_lt hcells (Config.block_of_wf hwf hmem) (htr.staged hm he h1 d ha).1
      cases stopsOnlyOnPage_baseAddress hwf hl with
      | succeeds base hbase =>
        have hvalid : ∀ c ∈ cells, storeValid s.cfg (base + c.1) = true := fun c hc =>
          storeValid_of_base hwf hmem hbase (hoff c hc)
        exact .succeeds _ (commit_eq_ok.2 ⟨cells, hcells, .inr (.inr ⟨hnil, hl, base, hbase, hvalid, rfl⟩)⟩)
      | refused p hp hle hne hbase =>
        refine .refused p hp hle hne ?_
        rw [commit, hcells, ok_bind, if_neg (by simpa using hnil), hl, ok_bind, storeIfLegal, if_pos rfl, storeAtBase,
          hbase, error_bind]

theorem stopsOnlyOnPage_commitPoint {s : State} (hs : s.Sound) (hm : s.mode = .addrWrite) :
    StopsOnlyOnPage s (commitPoint s) := by
  unfold commitPoint
  split
  · rename_i hopen
    split
    · exact stopsOnlyOnPage_ok s
    · rename_i d ha
      split
      · obtain ⟨u, hu⟩ := sendByteEnqueue_total (d := d) hs.configWf hs.queue
        exact .succeeds u hu
      · split
        · rename_i hcomplete; exact stopsOnlyOnPage_commit hs hm hopen.1 hopen.2 ha hcomplete
        · exact stopsOnlyOnPage_ok s
  · exact stopsOnlyOnPage_ok s

theorem stopsOnlyOnPage_closeWritePhase {s : State} (hs : s.Sound) (hm : s.mode = .addrWrite) :
    StopsOnlyOnPage s (closeWritePhase s) :=
  (stopsOnlyOnPage_commitPoint hs hm).bind fun _ _ => stopsOnlyOnPage_ok _

/-! ### The read phase -/

/-- The payload offsets of a read stay below the command's stride (R70, R71). -/
theorem byteOff_lt_of_read {f : Bool} {k : Nat} {d : Descriptor} (hk : k < d.readLength.toNat) :
    byteOff f k d.readLength.toNat d < d.stride := by
  have hmax := Nat.le_max_left d.readLength.toNat d.writeLength.toNat
  unfold byteOff Descriptor.stride
  split
  · omega
  · split <;> omega

theorem stopsOnlyOnPage_storeRead {d : Descriptor} {s : State} {j : Nat} (hwf : s.cfg.wf = true) (hd : d ∈ s.cfg.table)
    (hl : pageLegal d s = .ok true) (hj : j < d.stride) :
    StopsOnlyOnPage s (do let base ← baseAddress d s; storeRead s (base + j)) :=
  (stopsOnlyOnPage_baseAddress hwf hl).bind fun _ hbase =>
    .succeeds _ (storeRead_eq_ok.2 ⟨storeValid_of_base hwf hd hbase hj, rfl⟩)

theorem stopsOnlyOnPage_blockLengthByte {d : Descriptor} {s : State} (hwf : s.cfg.wf = true) (hd : d ∈ s.cfg.table)
    (hl : pageLegal d s = .ok true) : StopsOnlyOnPage s (blockLengthByte d s) := by
  unfold blockLengthByte
  split
  · rename_i hfirst
    exact stopsOnlyOnPage_storeRead (j := 0) hwf hd hl (by simp [Descriptor.stride, Descriptor.lenRes, hfirst])
  · exact stopsOnlyOnPage_ok d.readLength

theorem stopsOnlyOnPage_payloadByte {d : Descriptor} {s : State} {k : Nat} (hwf : s.cfg.wf = true)
    (hd : d ∈ s.cfg.table) (hl : pageLegal d s = .ok true) (hk : k < d.readLength.toNat) :
    StopsOnlyOnPage s (payloadByte d k s) :=
  stopsOnlyOnPage_storeRead hwf hd hl (byteOff_lt_of_read hk)

/-- The source is read on a legal page only (R174, R175). -/
theorem stopsOnlyOnPage_produceIfLegal {d : Descriptor} {source : Except Stop Byte} {s : State} (hwf : s.cfg.wf = true)
    (h : pageLegal d s = .ok true → StopsOnlyOnPage s source) : StopsOnlyOnPage s (produceIfLegal d source s) := by
  obtain ⟨legal, hl⟩ := pageLegal_total hwf d
  unfold produceIfLegal
  rw [hl, ok_bind]
  cases legal with
  | true => exact (h hl).bind fun _ _ => stopsOnlyOnPage_ok _
  | false => exact stopsOnlyOnPage_ok _

theorem stopsOnlyOnPage_produceCase {s : State} (hwf : s.cfg.wf = true)
    (hd : ∀ d, s.activeDesc = some d → d ∈ s.cfg.table) : StopsOnlyOnPage s (produceCase s) := by
  cases ha : s.activeDesc with
  | none => rw [produceCase_none ha]; exact stopsOnlyOnPage_ok _
  | some d =>
    have hmem := hd d ha
    rw [produceCase_some ha]
    split
    · exact stopsOnlyOnPage_ok _
    · split
      · exact stopsOnlyOnPage_produceIfLegal hwf (stopsOnlyOnPage_blockLengthByte hwf hmem)
      · split
        · rename_i hk
          exact stopsOnlyOnPage_produceIfLegal hwf fun hl => stopsOnlyOnPage_payloadByte hwf hmem hl (by omega)
        · split <;> exact stopsOnlyOnPage_ok _

/-- A byte is produced from the page of `s` in every state `r` over the same configuration, storage and command. -/
theorem stopsOnlyOnPage_transmitNext {s r : State} (hs : s.Sound) (hr : SameCommand s r) (hm : r.store = s.store) :
    StopsOnlyOnPage s (transmitNext r) := by
  have hmem : ∀ d, r.activeDesc = some d → d ∈ r.cfg.table := fun d ha => by
    rw [hr.cfg]; exact hs.active_mem_table (hr.activeDesc.symm.trans ha)
  have hcase : StopsOnlyOnPage r (produceCase r) := stopsOnlyOnPage_produceCase (by rw [hr.cfg]; exact hs.configWf) hmem
  refine StopsOnlyOnPage.congr (r := r) ?_ hr.cfg hm
  exact (hcase.bind fun _ _ => stopsOnlyOnPage_ok _).bind fun _ _ => stopsOnlyOnPage_ok _

/-! ### Every event -/

theorem setNewStatus_sound {s : State} (hs : s.Sound) (x : Byte) : (s.setNewStatus x).Sound :=
  hs.of_samePhase (samePhase_setNewStatus s x) hs.storeWf (hs.queue.congr rfl rfl rfl rfl rfl)

theorem stopsOnlyOnPage_dataReceived {s : State} (hs : s.Sound) (b : Byte) :
    StopsOnlyOnPage s (dataReceived b (s.setNewStatus 0)) := by
  obtain ⟨u, hu⟩ := dataReceived_total (b := b) (s := s.setNewStatus 0) hs.configWf hs.lengthBelow
  exact .succeeds u hu

/-- Of all rules only those of `STOP_RESTART`, `ADDR_R` and `DATA_TX_ACK` form a storage base (R151, R174, R175). -/
theorem stopsOnlyOnPage_eventRule {i : Instr} {s : State} {f : State → Except Stop State} (hs : s.Sound)
    (hf : eventRule i s = some f) : StopsOnlyOnPage s (f (s.setNewStatus 0)) := by
  have hstart := (samePhase_setNewStatus s 0).toSameCommand
  cases i <;> simp only [eventRule, Option.some.injEq, reduceCtorEq] at hf <;> subst hf
  case busError x => exact stopsOnlyOnPage_ok _
  case addrW a => exact stopsOnlyOnPage_ok _
  case addrGc a => exact stopsOnlyOnPage_runEnabled fun _ => stopsOnlyOnPage_ok _
  case dataRx b => exact stopsOnlyOnPage_runEnabled fun _ => stopsOnlyOnPage_dataReceived hs b
  case dataRxGc b => exact stopsOnlyOnPage_runEnabled fun _ => stopsOnlyOnPage_dataReceived hs b
  case stopRestart x =>
    refine stopsOnlyOnPage_runEnabled fun hen => ?_
    have hm : s.mode = .addrWrite := of_decide_eq_true hen
    exact (stopsOnlyOnPage_closeWritePhase (setNewStatus_sound hs 0) hm).congr rfl rfl
  case addrR a =>
    exact stopsOnlyOnPage_transmitNext hs (sameCommand_openReadPhase a s) (by rw [openReadPhase_eq])
  case dataTxAck x => exact stopsOnlyOnPage_runEnabled fun _ => stopsOnlyOnPage_transmitNext hs hstart rfl
  case dataTxNack x => exact stopsOnlyOnPage_runEnabled fun _ => stopsOnlyOnPage_ok _
  case unrecognized c x => exact stopsOnlyOnPage_ok _

/-- Settles O15: an event is its rule and then the merge, which a well-formed configuration always allows (R63 (e)). -/
theorem everyEventCompletes : Obligations.EveryEventCompletes := by
  intro s i hs hi
  obtain ⟨f, hf⟩ := eventRule_isSome hi s
  cases stopsOnlyOnPage_eventRule hs hf with
  | succeeds u hu =>
    obtain ⟨-, -, -, -, hstatus, -⟩ := (Config.wf_iff s.cfg).1 hs.configWf
    obtain ⟨t, ht⟩ := postEventMerge_total (s := u) (by rw [(ruleFacts_of_eventRule hf hu).kept.1]; exact hstatus)
    exact .inl ⟨t, (exec_event_eq_next hf).2 ⟨u, hu, ht⟩⟩
  | refused p hp hle hne hstop =>
    refine .inr ⟨p, hp, hle, hne, ?_⟩
    rw [exec_of_eventRule hf, hstop]
    rfl

end Sys2Proof.Machine
end

section
/-!
PROOFS. Decoding undoes encoding (spec/30_encoding.md R91, R92, R96, R97), and every event word is the encoding of the event
it decodes to (R99). The two hold together because an event word is its code and data fields (`eventWord_fields`).
-/

namespace Sys2Proof

open Sys2Proof.Machine

/-! ### From an operation to its word and back -/

theorem decode_eventWord (code data : Byte) : decode (.event (eventWord code data)) = .ok (decodeEvent code data) := by
  rw [decode, eventCode_eventWord, eventData_eventWord]

/-- A code that R92 does not name is read as `UNRECOGNIZED` (R98 step 1). -/
theorem decodeEvent_of_unnamed {code : Byte} (h : namedEventCodes.contains code = false) (data : Byte) :
    decodeEvent code data = .unrecognized code data := by
  simp only [namedEventCodes, List.contains_cons, List.contains_nil, Bool.or_false, Bool.or_eq_false_iff,
    beq_eq_false_iff_ne] at h
  obtain ⟨h00, h60, h70, h80, h90, hA0, hA8, hB8, hC0⟩ := h
  rw [decodeEvent, if_neg h00, if_neg h60, if_neg h70, if_neg h80, if_neg h90, if_neg hA0, if_neg hA8, if_neg hB8,
    if_neg hC0]

/-- The code of every event but `UNRECOGNIZED` is its own row of R92; an application-port or internal word holds its row's
number and its operands as they are. -/
theorem decode_encode {i : Instr} (h : i.wf = true) : decode (encode i) = .ok i := by
  cases i with
  | busError data | stopRestart data | dataTxAck data | dataTxNack data => exact decode_eventWord _ data
  | addrW a | addrGc a | addrR a => exact decode_eventWord _ a
  | dataRx b | dataRxGc b => exact decode_eventWord _ b
  | unrecognized code data =>
    rw [Instr.wf, Bool.not_eq_true'] at h
    rw [encode, decode_eventWord, decodeEvent_of_unnamed h]
  | qDepth | qPop | crcReset | crcUpdate _ | crcValue | qPush _ => rfl

/-- Settles O1. -/
theorem decodeOfEncodeIsIdentity : Obligations.DecodeOfEncodeIsIdentity := fun _ => decode_encode

/-! ### From an event word to its event and back -/

/-- An event keeps the data byte even where the spec ignores it, and `UNRECOGNIZED` keeps its code, so no bit is lost. -/
theorem encode_decodeEvent (code data : Byte) : encode (decodeEvent code data) = .event (eventWord code data) := by
  unfold decodeEvent
  repeat' split
  all_goals simp_all [encode]

theorem isEvent_decodeEvent (code data : Byte) : isEvent (decodeEvent code data) = true := by
  unfold decodeEvent
  repeat' split
  all_goals rfl

/-- Settles O2: the event is the one the fields of the word decode to; another operation with this encoding would be
decoded from the same word (`decode_encode`). -/
theorem everyEventWordIsAnOperation : Obligations.EveryEventWordIsAnOperation := by
  intro w
  have hdecode : decode (.event w) = .ok (decodeEvent (eventCode w) (eventData w)) := rfl
  refine ⟨_, hdecode, decodeEvent_wf _ _, isEvent_decodeEvent _ _, ?_, fun j hwf hj => ?_⟩
  · rw [encode_decodeEvent, eventWord_fields]
  · have hback := decode_encode hwf
    rw [hj, hdecode] at hback
    exact (Except.ok.inj hback).symm

/-! ### Words written out from the tables -/

theorem decode_of_encode_eq {i : Instr} {word : PortWord} (hwf : i.wf = true) (h : encode i = word) :
    decode word = .ok i :=
  h ▸ decode_encode hwf

/-- Settles O3: each word is what `encode` writes for the operation named. -/
theorem sampleWordsDecode : Obligations.SampleWordsDecode := by
  refine ⟨?busError, ?addrW, ?dataRx, ?stopRestart, ?addrR, ?unrecognized, ?qDepth, ?qPop, ?crcUpdate, ?qPush⟩
  all_goals exact decode_of_encode_eq (by decide) (by decide)

end Sys2Proof
end

section
/-!
PROOFS. The two reserved words of the application port (spec/30_encoding.md R96, R99).
-/

namespace Sys2Proof.Machine

theorem decodeApp_of_reserved {op : BitVec 2} (h : op = 0 ∨ op = 3) : decodeApp op = .error .reservedAppOp := by
  obtain rfl | rfl := h <;> rfl

/-- Settles O6: the move is taken, decodes to no operation, and is answered with nothing. -/
theorem reservedApplicationOps : Obligations.ReservedApplicationOps := by
  intro s op rest hwf hin hop
  rw [step_of_input hwf hin, runRequest, runWord, decode, decodeApp_of_reserved hop]
  rfl

end Sys2Proof.Machine
end

section
/-!
PROOFS. The saturating step of the byte counters (spec/30_encoding.md R104), and the one response that every event gives
(spec/30_encoding.md R94, R95; spec/42_dispatch_write.md R140).
-/

namespace Sys2Proof.Machine

/-- Settles O55: the two sides of the minimum in `satInc_toNat`. -/
theorem counterSaturates : Obligations.CounterSaturates := by
  intro x
  refine ⟨fun hlt => ?_, fun htop => BitVec.eq_of_toNat_eq ?_⟩
  · rw [satInc_toNat, Nat.min_eq_left hlt]
  · rw [satInc_toNat, htop]
    rfl

/-- Settles O22: the rule of the event has answered, and the merge leaves the answer as it is. -/
theorem everyEventAnswers : Obligations.EveryEventAnswers := by
  intro i s t hi h
  obtain ⟨u, hu, -, ht⟩ := exec_of_event hi h
  have hout : t.out = u.out := by rw [ht, State.setStore_out]
  rw [hout]
  exact hu.answer

end Sys2Proof.Machine
end

section
/-!
PROOFS. Case DATA of a received byte where the byte is valid (spec/42_dispatch_write.md R146, R149): it is staged at its
offset (spec/30_encoding.md R105), fed and counted.
-/

namespace Sys2Proof.Machine

/-- The range check of R146 admits every legal page value. -/
theorem pageByteLegal_of_pageByteOk {c : Config} {b : Byte} (h : PageByteOk c b) : pageByteLegal c b = true := by
  rwa [pageByteLegal, Bool.or_eq_true, decide_eq_true_iff, decide_eq_true_iff]

/-- A position within the effective length lies in the scratch buffer (R28, R77). -/
theorem stagingOffset_lt_scratchSize {d : Descriptor} {s : State} (h1 : 1 ≤ s.rxIndex.toNat)
    (hw : s.rxIndex.toNat ≤ s.writeLength.toNat) (hlen : s.writeLength.toNat ≤ 256) :
    stagingOffset d s < scratchSize := by
  unfold stagingOffset scratchSize
  split <;> omega

/-- A valid byte in case DATA is staged and fed (R146). -/
theorem receiveData_of_valid {d : Descriptor} {b : Byte} {s : State} (hlegal : pageLegal d s = .ok true)
    (hb : d.code ≠ pageCommand ∨ PageByteOk s.cfg b) (hoff : stagingOffset d s < scratchSize) :
    receiveData d b s = .ok (crcUpdate b (s.setScratch (Memory.set s.scratch (stagingOffset d s) b))) := by
  have hvalid : (true && (decide (d.code ≠ pageCommand) || pageByteLegal s.cfg b)) = true := by
    rw [Bool.true_and, Bool.or_eq_true, decide_eq_true_iff]
    exact hb.imp_right pageByteLegal_of_pageByteOk
  refine receiveData_eq_ok.2 ⟨true, hlegal, ?_⟩
  rw [if_pos hvalid]
  exact ⟨hoff, rfl⟩

/-- A byte within the effective length that is no block length byte falls into case DATA (R149). -/
theorem receiveCase_data {s : State} (b : Byte) {d : Descriptor} (h1 : 1 ≤ s.rxIndex.toNat)
    (ha : s.activeDesc = some d) (hblen : ¬(d.block = true ∧ s.rxIndex = 1))
    (hw : s.rxIndex.toNat ≤ s.writeLength.toNat) : receiveCase b s = receiveData d b s := by
  rw [receiveCase_supported b h1 ha, if_neg hblen, if_pos hw]

/-- The whole rule of the two data events for such a byte: staged, fed, counted and acknowledged (R149). -/
theorem dataReceived_of_valid {d : Descriptor} {b : Byte} {s : State} (ha : s.activeDesc = some d)
    (h1 : 1 ≤ s.rxIndex.toNat) (hblen : ¬(d.block = true ∧ s.rxIndex = 1))
    (hw : s.rxIndex.toNat ≤ s.writeLength.toNat) (hlen : s.writeLength.toNat ≤ 256) (hlegal : pageLegal d s = .ok true)
    (hb : d.code ≠ pageCommand ∨ PageByteOk s.cfg b) :
    dataReceived b s =
      .ok (respond .ack 0x00
        ((crcUpdate b (s.setScratch (Memory.set s.scratch (stagingOffset d s) b))).setRxIndex (satInc s.rxIndex))) := by
  have hoff := stagingOffset_lt_scratchSize (d := d) h1 hw hlen
  exact dataReceived_eq_ok.2
    ⟨_, (receiveCase_data b h1 ha hblen hw).trans (receiveData_of_valid hlegal hb hoff), rfl⟩

/-- Settles O30: the event begins with `newStatus` cleared (R190), on which neither the page register nor the case
depends, and latches nothing. -/
theorem dataByteIsStaged : Obligations.DataByteIsStaged := by
  intro s b i d hi hm ha h1 hblen hw hlen hlegal hb
  refine ⟨Memory.set s.scratch (stagingOffset d s) b, ?_, fun j => ?_⟩
  · have hlegal' : pageLegal d (s.setNewStatus 0) = .ok true := (pageLegal_congr d rfl rfl).trans hlegal
    rw [exec_dataReceived hm hi]
    exact dispatcherStep_of_quiet (dataReceived_of_valid (s := s.setNewStatus 0) ha h1 hblen hw hlen hlegal' hb) rfl
  · rw [Memory.get_set]
    exact if_congr eq_comm rfl rfl

end Sys2Proof.Machine
end

section
/-!
PROOFS. The checksum engine (spec/40_crc.md R120 to R126). One round of the bitwise definition is linear over GF(2), hence
so is the lookup table; that a message followed by its own PEC has checksum zero is linearity at two equal bytes.
-/

namespace Sys2Proof.Machine

/-- The shift is linear and the polynomial is added once for each top bit set: for two top bits set it cancels (R120). -/
theorem crcRound_xor (x y : Byte) : crcRound (x ^^^ y) = crcRound x ^^^ crcRound y := by
  simp only [crcRound, BitVec.msb_xor, BitVec.shiftLeft_xor_distrib]
  cases x.msb <;> cases y.msb
  case false.false => rfl
  case false.true => exact BitVec.xor_assoc ..
  case true.false =>
    show x <<< 1 ^^^ y <<< 1 ^^^ crcPoly = x <<< 1 ^^^ crcPoly ^^^ y <<< 1
    ac_rfl
  case true.true =>
    calc x <<< 1 ^^^ y <<< 1
        = x <<< 1 ^^^ y <<< 1 ^^^ (crcPoly ^^^ crcPoly) := by rw [BitVec.xor_self, BitVec.xor_zero]
      _ = x <<< 1 ^^^ crcPoly ^^^ (y <<< 1 ^^^ crcPoly) := by ac_rfl

theorem crcRounds_xor (n : Nat) (x y : Byte) : crcRounds n (x ^^^ y) = crcRounds n x ^^^ crcRounds n y := by
  induction n generalizing x y with
  | zero => rfl
  | succ n ih => rw [crcRounds, crcRounds, crcRounds, crcRound_xor, ih]

/-- Settles O47: the table entry is eight rounds, each linear. -/
theorem checksumTableIsLinear : Obligations.ChecksumTableIsLinear :=
  crcRounds_xor 8

/-- A byte equal to the accumulator brings it to zero (R123). -/
theorem crcEntry_xor_self (x : Byte) : crcEntry (x ^^^ x) = 0 :=
  (checksumTableIsLinear x x).trans BitVec.xor_self

/-- The listed table holds the generated entry at every byte (R121). -/
theorem crcTable_getD (x : Byte) : crcTable.getD x.toNat 0 = crcEntry x := by
  have hx : x.toNat < 256 := x.isLt
  rw [crcTable, List.getD_eq_getElem?_getD, List.getElem?_map, List.getElem?_range hx, Option.map_some, Option.getD_some,
    BitVec.ofNat_toNat, BitVec.setWidth_eq]

theorem exec_crcReset (s : State) : exec .crcReset s = .next ((crcReset s).setOut .nothing) := rfl

theorem exec_crcUpdate (b : Byte) (s : State) : exec (.crcUpdate b) s = .next ((crcUpdate b s).setOut .nothing) := rfl

theorem exec_crcValue (s : State) : exec .crcValue s = .next (s.setOut (.crc (crcValue s))) := rfl

/-- Settles O46: the rule of each operation, with the update's entry read from the listed table. -/
theorem checksumOperations : Obligations.ChecksumOperations := by
  intro s b
  refine ⟨exec_crcReset s, ?update, exec_crcValue s⟩
  rw [crcTable_getD]
  exact exec_crcUpdate b s

theorem crcOver_append (acc : Byte) (xs ys : List Byte) : crcOver acc (xs ++ ys) = crcOver (crcOver acc xs) ys := by
  induction xs generalizing acc with
  | nil => rfl
  | cons x xs ih => exact ih _

/-- A message followed by its own PEC has checksum zero (R123, R126). -/
theorem crcOver_append_self (acc : Byte) (bs : List Byte) : crcOver acc (bs ++ [crcOver acc bs]) = 0 := by
  rw [crcOver_append]
  exact crcEntry_xor_self _

/-- A run begins with its first operation where that completes. -/
theorem runAll_cons_of_exec {i : Instr} {s t : State} (h : exec i s = .next t) (is : List Instr) :
    runAll (i :: is) s = (runAll is t).map fun r => (r.1, t.out :: r.2) := by
  rw [runAll, h]

/-- Feeding a list of bytes completes and leaves its CRC-8 in the accumulator (R123). -/
theorem runAll_crcUpdate (bs : List Byte) (s : State) :
    ∃ t outs, runAll (bs.map Instr.crcUpdate) s = some (t, outs) ∧ t.pec = crcOver s.pec bs := by
  induction bs generalizing s with
  | nil => exact ⟨s, [], rfl, rfl⟩
  | cons b bs ih =>
    obtain ⟨t, outs, hrun, hpec⟩ := ih ((crcUpdate b s).setOut .nothing)
    refine ⟨t, .nothing :: outs, ?_, hpec⟩
    rw [List.map_cons, runAll_cons_of_exec (exec_crcUpdate b s), hrun]
    rfl

/-- Settles O48. -/
theorem checksumOfSequence : Obligations.ChecksumOfSequence := fun s bs =>
  ⟨runAll_crcUpdate bs s, crcOver_append_self s.pec bs⟩

end Sys2Proof.Machine
end

section
/-!
PROOFS. The deferred-command queue (spec/41_queue.md R130 to R135): what each queue operation does to the ring read as a
list, and runs of pushes and of pops, which together make the ring a FIFO.
-/

namespace Sys2Proof.Machine

/-! ### One operation -/

theorem exec_qDepth (s : State) : exec .qDepth s = .next (s.setOut (.depth (queueDepth s))) := rfl

/-- `Q_PUSH` as an operation gives back whether the entry was taken (R131). -/
theorem exec_qPush_of_ok {e : QEntry} {s t : State} {taken : Bool} (h : queuePush e s = .ok (taken, t)) :
    exec (.qPush e) s = .next (t.setOut (.pushed taken)) :=
  toOutcome_eq_next.2 (bind_eq_ok.2 ⟨_, h, rfl⟩)

/-- `Q_POP` as an operation gives back the triple of its result (R132). -/
theorem exec_qPop_of_ok {s t : State} {r : Option QEntry} (h : queuePop s = .ok (r, t)) :
    exec .qPop s = .next (t.setOut (poppedOutput r)) :=
  toOutcome_eq_next.2 (bind_eq_ok.2 ⟨_, h, rfl⟩)

theorem exec_qPush_of_full {s : State} (hf : s.qFull = true) (e : QEntry) :
    exec (.qPush e) s = .next (s.setOut (.pushed false)) :=
  exec_qPush_of_ok (queuePush_eq_ok.2 (.inl ⟨hf, rfl⟩))

theorem exec_qPush_of_not_full {s : State} (h : s.QueueSound) (hf : s.qFull = false) (e : QEntry) :
    exec (.qPush e) s = .next ((s.setPushed (s.qRing.set s.qTail e) (ringNext s.cfg s.qTail)
      (decide (ringNext s.cfg s.qTail = s.qHead))).setOut (.pushed true)) := by
  have htail : s.qTail < s.qRing.length := h.ringLength ▸ h.tailBelow
  exact exec_qPush_of_ok (queuePush_eq_ok.2 (.inr ⟨hf, htail, rfl⟩))

theorem exec_qPop_of_empty {s : State} (he : s.queueEmpty = true) :
    exec .qPop s = .next (s.setOut (.popped false 0x00 0x00)) :=
  exec_qPop_of_ok (queuePop_eq_ok.2 (.inl ⟨he, rfl⟩))

/-- The head position of a ring holds an entry. -/
theorem qRing_getElem?_qHead {s : State} (h : s.QueueSound) : s.qRing[s.qHead]? = some (ringEntry s s.qHead) := by
  have hhead : s.qHead < s.qRing.length := h.ringLength ▸ h.headBelow
  rw [ringEntry, List.getD_eq_getElem _ _ hhead, List.getElem?_eq_getElem hhead]

theorem exec_qPop_of_not_empty {s : State} (h : s.QueueSound) (he : s.queueEmpty = false) :
    exec .qPop s = .next ((s.setPopped (ringNext s.cfg s.qHead) false).setOut
      (.popped true (ringEntry s s.qHead).code (ringEntry s s.qHead).page)) :=
  exec_qPop_of_ok (queuePop_eq_ok.2 (.inr ⟨he, _, qRing_getElem?_qHead h, rfl⟩))

/-- The queue's entries do not depend on the output port. -/
@[simp] theorem queueContents_setOut (s : State) (x : Output) : queueContents (s.setOut x) = queueContents s := rfl

/-- Settles O49: the depth without integers, and the number of entries, which is the depth by definition. -/
theorem depthIsOccupancy : Obligations.DepthIsOccupancy := by
  intro s hs
  refine ⟨?formula, ?bounded, ?occupancy⟩
  case formula => rw [← queueDepth_eq hs]; exact exec_qDepth s
  case bounded => rw [length_queueContents]; exact queueDepth_le hs
  case occupancy => rw [length_queueContents]; exact exec_qDepth s

/-- Settles O50: a queue with an oldest entry is not empty, and that entry stands at the head position. -/
theorem popReturnsOldest : Obligations.PopReturnsOldest := by
  intro s hs
  refine ⟨fun hnil => exec_qPop_of_empty ((queueContents_eq_nil_iff hs).1 hnil), fun e es hcons => ?_⟩
  have he : s.queueEmpty = false := by
    rw [← Bool.not_eq_true, ← queueContents_eq_nil_iff hs, hcons]
    exact List.cons_ne_nil e es
  obtain ⟨rfl, rfl⟩ := List.cons.inj (hcons.symm.trans (queueContents_setPopped hs he))
  exact ⟨_, exec_qPop_of_not_empty hs he, queueContents_setOut .., rfl⟩

/-- Settles O51: a queue holds as many entries as its capacity exactly when `qFull` is set. -/
theorem pushAppends : Obligations.PushAppends := by
  intro s e hs
  rw [length_queueContents]
  refine ⟨fun hcap => exec_qPush_of_full ((queueDepth_eq_capacity_iff hs).1 hcap) e, fun hlt => ?_⟩
  have hf : s.qFull = false := by
    rw [← Bool.not_eq_true, ← queueDepth_eq_capacity_iff hs]
    exact hlt.ne
  exact ⟨_, exec_qPush_of_not_full hs hf e, queueContents_setPushed hs hf e, rfl⟩

/-! ### Runs of operations -/

/-- As many pushes as there is room for succeed, and append their entries in order. -/
theorem runAll_qPush {s : State} (hs : s.QueueSound) (es : List QEntry)
    (hroom : (queueContents s).length + es.length ≤ s.cfg.qCapacity) :
    ∃ t, runAll (es.map Instr.qPush) s = some (t, es.map fun _ => .pushed true) ∧ t.QueueSound ∧ t.cfg = s.cfg ∧
      queueContents t = queueContents s ++ es := by
  induction es generalizing s with
  | nil => exact ⟨s, rfl, hs, rfl, (List.append_nil _).symm⟩
  | cons e es ih =>
    rw [List.length_cons] at hroom
    obtain ⟨t, hexec, hcont, ht⟩ := (pushAppends s e hs).2 (by omega)
    have hcfg : t.cfg = s.cfg := (exec_kept hexec).1
    have hroom' : (queueContents t).length + es.length ≤ t.cfg.qCapacity := by
      rw [hcont, hcfg, List.length_append, List.length_singleton]
      omega
    obtain ⟨u, hrun, hu, hcfg', hcont'⟩ := ih (exec_queueSound hexec hs) hroom'
    refine ⟨u, ?_, hu, hcfg'.trans hcfg, ?_⟩
    · have hout : t.out = .pushed true := by rw [ht]
      rw [List.map_cons, runAll_cons_of_exec hexec, hrun, hout]
      rfl
    · rw [hcont', hcont, List.append_assoc, List.singleton_append]

/-- Pops return the oldest entries in order, and leave the others. -/
theorem runAll_qPop {s : State} (hs : s.QueueSound) (es rest : List QEntry) (hcont : queueContents s = es ++ rest) :
    ∃ u, runAll (es.map fun _ => .qPop) s = some (u, es.map fun f => .popped true f.code f.page) ∧ u.QueueSound ∧
      queueContents u = rest := by
  induction es generalizing s with
  | nil => exact ⟨s, rfl, hs, hcont⟩
  | cons e es ih =>
    obtain ⟨t, hexec, hrest, ht⟩ := (popReturnsOldest s hs).2 e (es ++ rest) hcont
    obtain ⟨u, hrun, hu, hcont'⟩ := ih (exec_queueSound hexec hs) hrest
    refine ⟨u, ?_, hu, hcont'⟩
    have hout : t.out = .popped true e.code e.page := by rw [ht]
    rw [List.map_cons, runAll_cons_of_exec hexec, hrun, hout]
    rfl

/-- Settles O52: the run of pushes fills the queue, so the next push is dropped; the run of pops empties it, so the next
pop fails. -/
theorem queueIsFifo : Obligations.QueueIsFifo := by
  intro s es e hs hnil hlen
  have hroom : (queueContents s).length + es.length ≤ s.cfg.qCapacity := by
    rw [hnil, hlen, List.length_nil, Nat.zero_add]
  obtain ⟨t, hpush, ht, hcfg, hcont⟩ := runAll_qPush hs es hroom
  rw [hnil, List.nil_append] at hcont
  obtain ⟨u, hpop, hu, hempty⟩ := runAll_qPop ht es [] (hcont.trans (List.append_nil es).symm)
  have hfull : (queueContents t).length = t.cfg.qCapacity := by rw [hcont, hlen, hcfg]
  exact ⟨t, u, hpush, hcont, (pushAppends t e ht).1 hfull, hpop, hempty, (popReturnsOldest u hu).1 hempty⟩

end Sys2Proof.Machine
end

section
/-!
PROOFS. The events of an open write phase one by one (spec/42_dispatch_write.md R141 to R149, R155): the address match
that opens it, and what a received byte does in each of its cases. A case that latches does so on top of its other actions,
so its outcome is the one R205 and R206 give for every fault (`faultOutcome_of_receiveCase`).
-/

namespace Sys2Proof.Machine

/-! ### Address match -/

/-- An enabled address match of either kind opens a write phase, and latches nothing (R141, R142). -/
theorem exec_openWritePhase {i : Instr} {a : Byte} {s : State}
    (hi : i = .addrW a ∨ (i = .addrGc a ∧ s.cfg.gcEnable = true)) :
    exec i s = .next (openWritePhase a (s.setNewStatus 0)) := by
  have hrule : exec i s = dispatcherStep true (fun s => .ok (openWritePhase a s)) s := by
    obtain rfl | ⟨rfl, hgc⟩ := hi
    · rfl
    · show dispatcherStep s.cfg.gcEnable (fun s => .ok (openWritePhase a s)) s = _
      rw [hgc]
  rw [hrule]
  exact dispatcherStep_of_quiet rfl rfl

/-- Settles O23: the rule written out field by field. -/
theorem writeAddressMatch : Obligations.WriteAddressMatch :=
  fun _ _ _ hi => exec_openWritePhase hi

/-! ### The cases of a received byte -/

theorem receiveCommand_of_supported {b : Byte} {s : State} {d : Descriptor} (h : s.cfg.lookup b = some d) :
    receiveCommand b s = crcUpdate b ((s.setActive (some d) b).setWriteLength (d.writeLength.zeroExtend 9)) := by
  unfold receiveCommand; rw [h]

theorem receiveCommand_of_unsupported {b : Byte} {s : State} (h : s.cfg.lookup b = none) :
    receiveCommand b s = latch stCmd (s.setActive none b) := by
  unfold receiveCommand; rw [h]

/-- `Latch` and the checksum write different registers. -/
theorem crcUpdate_latch (b status : Byte) (s : State) :
    crcUpdate b (latch status s) = latch status (crcUpdate b s) :=
  apply_ite (crcUpdate b) _ _ _

theorem setWriteLength_latch (x : Length) (status : Byte) (s : State) :
    (latch status s).setWriteLength x = latch status (s.setWriteLength x) :=
  apply_ite (State.setWriteLength · x) _ _ _

theorem receiveCase_blockLength {s : State} (b : Byte) {d : Descriptor} (h1 : s.rxIndex = 1)
    (ha : s.activeDesc = some d) (hb : d.block = true) : receiveCase b s = .ok (receiveBlockLength d b s) := by
  have hpos : 1 ≤ s.rxIndex.toNat := by rw [h1]; exact Nat.le_refl 1
  rw [receiveCase_supported b hpos ha, if_pos ⟨hb, h1⟩]

/-- A legal length byte is recorded and fed (R145). -/
theorem receiveBlockLength_of_legal {d : Descriptor} {b : Byte} (s : State) (h : b.toNat ≤ d.writeLength.toNat) :
    receiveBlockLength d b s = crcUpdate b (s.setWriteLength (blockLength b)) := by
  unfold receiveBlockLength; rw [if_neg (Nat.not_lt.2 h)]

/-- An over-long length byte is recorded and fed all the same (R145). -/
theorem receiveBlockLength_of_overlong {d : Descriptor} {b : Byte} (s : State) (h : d.writeLength.toNat < b.toNat) :
    receiveBlockLength d b s = latch stData (crcUpdate b (s.setWriteLength (blockLength b))) := by
  unfold receiveBlockLength
  simp only [if_pos h, setWriteLength_latch, crcUpdate_latch]

/-- A byte that the page or the page-select range forbids is fed and not staged (R146). -/
theorem receiveData_of_invalid {d : Descriptor} {b : Byte} {s : State} {legal : Bool}
    (hlegal : pageLegal d s = .ok legal)
    (hb : legal = false ∨ (d.code = pageCommand ∧ ¬PageByteOk s.cfg b)) :
    receiveData d b s = .ok (latch stData (crcUpdate b s)) := by
  have hinvalid : ¬(legal && (decide (d.code ≠ pageCommand) || pageByteLegal s.cfg b)) = true := by
    rw [Bool.and_eq_true, Bool.or_eq_true, decide_eq_true_iff]
    rintro ⟨hl, hv⟩
    obtain hpage | ⟨hcode, hrange⟩ := hb
    · exact absurd (hpage.symm.trans hl) (by decide)
    · exact hv.elim (absurd hcode) fun hv => hrange (pageByteOk_of_pageByteLegal hv)
  rw [← crcUpdate_latch]
  exact receiveData_eq_ok.2 ⟨legal, hlegal, by rw [if_neg hinvalid]⟩

/-- The first byte beyond the effective length is in the PEC position (R147). -/
theorem receiveCase_pec {s : State} (b : Byte) {d : Descriptor} (ha : s.activeDesc = some d)
    (hblen : ¬(d.block = true ∧ s.rxIndex = 1)) (hpos : s.rxIndex.toNat = s.writeLength.toNat + 1) :
    receiveCase b s = .ok (receivePec d b s) := by
  rw [receiveCase_supported b (by omega) ha, if_neg hblen, if_neg (by omega), if_pos hpos]

theorem receivePec_of_match {d : Descriptor} {b : Byte} {s : State} (hd : d.writeLength ≠ 0 ∨ d.readLength = 0)
    (hb : b = crcValue s) : receivePec d b s = s := by
  unfold receivePec; rw [if_pos hd, if_neg (not_not.2 hb)]

theorem receivePec_of_mismatch {d : Descriptor} {b : Byte} {s : State} (hd : d.writeLength ≠ 0 ∨ d.readLength = 0)
    (hb : b ≠ crcValue s) : receivePec d b s = latch stPec s := by
  unfold receivePec; rw [if_pos hd, if_pos hb]

/-- A read-only command takes no byte beyond its code (R147). -/
theorem receivePec_of_readOnly {d : Descriptor} (b : Byte) (s : State) (hw : d.writeLength = 0)
    (hr : d.readLength ≠ 0) : receivePec d b s = latch stData s := by
  unfold receivePec; rw [if_neg (not_or.2 ⟨not_not.2 hw, hr⟩)]

/-- Every byte behind the PEC position is excess (R148). -/
theorem receiveCase_excess {s : State} (b : Byte) {d : Descriptor} (ha : s.activeDesc = some d)
    (hpos : s.writeLength.toNat + 2 ≤ s.rxIndex.toNat) : receiveCase b s = .ok (latch stData s) := by
  have hblen : ¬(d.block = true ∧ s.rxIndex = 1) := by
    rintro ⟨-, h1⟩
    rw [h1] at hpos
    exact absurd hpos (by simp)
  rw [receiveCase_supported b (by omega) ha, if_neg hblen, if_neg (by omega), if_neg (by omega)]

/-! ### The event of a received byte -/

/-- A received byte whose case latches nothing is counted and acknowledged (R149). -/
theorem exec_of_receiveCase {i : Instr} {b : Byte} {s u : State} (hi : i = .dataRx b ∨ i = .dataRxGc b)
    (hm : s.mode = .addrWrite) (h : receiveCase b (s.setNewStatus 0) = .ok u) (hn : u.newStatus = 0) :
    exec i s = .next (respond .ack 0x00 (u.setRxIndex (satInc u.rxIndex))) := by
  rw [exec_dataReceived hm hi]
  exact dispatcherStep_of_quiet (dataReceived_eq_ok.2 ⟨u, h, rfl⟩) hn

/-- A received byte whose case does `v` and latches `status` is counted and acknowledged like any other, and the fault is
merged if it is the first of the transaction (R149, R205, R206). -/
theorem faultOutcome_of_receiveCase {i : Instr} {b status : Byte} {s v : State} (hi : i = .dataRx b ∨ i = .dataRxGc b)
    (hm : s.mode = .addrWrite) (h : receiveCase b (s.setNewStatus 0) = .ok (latch status v)) (hs : status ≠ 0)
    (hn : v.newStatus = 0) (he : v.errorLatched = s.errorLatched) (hv : v.cfg.statusValid = true) :
    FaultOutcome status s (respond .ack 0x00 (v.setRxIndex (satInc v.rxIndex))) (exec i s) := by
  rw [exec_dataReceived hm hi]
  refine faultOutcome_of_cases (dataReceived_eq_ok.2 ⟨_, h, rfl⟩) hs hn hv (fun hl => ?latched) fun hc => ?clear
  case latched => rw [latch_of_latched status (he.trans hl)]
  case clear => rw [latch_of_fresh status (he.trans hc) hn]; rfl

/-- Settles O26: case CMD with a descriptor. -/
theorem supportedCommandByte : Obligations.SupportedCommandByte := by
  intro s b i d hi hm h0 hl
  have hcase := (receiveCase_command b (s := s.setNewStatus 0) h0).trans
    (congrArg Except.ok (receiveCommand_of_supported hl))
  have hcount : satInc s.rxIndex = 1 := by rw [h0]; rfl
  rw [← hcount]
  exact exec_of_receiveCase hi hm hcase rfl

/-- Settles O27: case CMD without one. -/
theorem unsupportedCommandByte : Obligations.UnsupportedCommandByte := by
  intro s b i hi hm h0 hl hv
  have hcase := (receiveCase_command b (s := s.setNewStatus 0) h0).trans
    (congrArg Except.ok (receiveCommand_of_unsupported hl))
  have hcount : satInc s.rxIndex = 1 := by rw [h0]; rfl
  rw [← hcount]
  exact faultOutcome_of_receiveCase (v := (s.setNewStatus 0).setActive none b) hi hm hcase (by decide) rfl rfl hv

/-- Settles O28: case SWALLOW. -/
theorem swallowedByte : Obligations.SwallowedByte := by
  intro s b i hi hm h0 ha
  exact exec_of_receiveCase hi hm (receiveCase_swallow b (s := s.setNewStatus 0) h0 ha) rfl

/-- Settles O29: only the latch depends on the length. (`Machine.blockLengthByte` is the read phase's byte.) -/
theorem WritePhase.blockLengthByte : Obligations.BlockLengthByte := by
  intro s b i d hi hm h1 ha hb hv
  have hcase := receiveCase_blockLength b (s := s.setNewStatus 0) h1 ha hb
  have hcount : satInc s.rxIndex = 2 := by rw [h1]; rfl
  rw [← hcount, ← blockLength_eq]
  refine ⟨fun hle => ?legal, fun hlt => ?overlong⟩
  case legal =>
    rw [receiveBlockLength_of_legal _ hle] at hcase
    exact exec_of_receiveCase hi hm hcase rfl
  case overlong =>
    rw [receiveBlockLength_of_overlong _ hlt] at hcase
    exact faultOutcome_of_receiveCase (v := crcUpdate b ((s.setNewStatus 0).setWriteLength (blockLength b))) hi hm hcase
      (by decide) rfl rfl hv

/-- Settles O31: the page test and the range test of R146 fail alike. -/
theorem dataByteIsRefused : Obligations.DataByteIsRefused := by
  intro s b i d hi hm ha h1 hblen hw hv hforbidden
  have hdata : receiveData d b (s.setNewStatus 0) = .ok (latch stData (crcUpdate b (s.setNewStatus 0))) := by
    have hpage := pageLegal_congr (s := s) (t := s.setNewStatus 0) d rfl rfl
    obtain hillegal | ⟨hlegal, hcode, hle, hne⟩ := hforbidden
    · exact receiveData_of_invalid (hpage.trans hillegal) (.inl rfl)
    · refine receiveData_of_invalid (hpage.trans hlegal) (.inr ⟨hcode, ?_⟩)
      exact not_or.2 ⟨Nat.not_lt.2 hle, hne⟩
  exact faultOutcome_of_receiveCase (v := crcUpdate b (s.setNewStatus 0)) hi hm
    ((receiveCase_data b (s := s.setNewStatus 0) h1 ha hblen hw).trans hdata) (by decide) rfl rfl hv

/-- Settles O32: case PEC, with the three results of R147. -/
theorem pecPositionByte : Obligations.PecPositionByte := by
  intro s b i d hi hm ha hblen hpos hv
  have hcase := receiveCase_pec b (s := s.setNewStatus 0) ha hblen hpos
  refine ⟨fun hd hb => ?right, fun hd hb => ?wrong, fun hw hr => ?readOnly⟩
  case right =>
    rw [receivePec_of_match (s := s.setNewStatus 0) hd hb] at hcase
    exact exec_of_receiveCase hi hm hcase rfl
  case wrong =>
    rw [receivePec_of_mismatch (s := s.setNewStatus 0) hd hb] at hcase
    exact faultOutcome_of_receiveCase (v := s.setNewStatus 0) hi hm hcase (by decide) rfl rfl hv
  case readOnly =>
    rw [receivePec_of_readOnly b _ hw hr] at hcase
    exact faultOutcome_of_receiveCase (v := s.setNewStatus 0) hi hm hcase (by decide) rfl rfl hv

/-- Settles O33: case EXCESS. -/
theorem excessByte : Obligations.ExcessByte := by
  intro s b i d hi hm ha hpos hv
  exact faultOutcome_of_receiveCase (v := s.setNewStatus 0) hi hm (receiveCase_excess b ha hpos) (by decide) rfl rfl hv

end Sys2Proof.Machine
end

section
/-!
PROOFS. The commit point (spec/42_dispatch_write.md R150 to R154): where it does nothing, the entry that a send-byte command
leaves in the queue, and where the staged bytes of a plain and of a block command are stored.
-/

namespace Sys2Proof.Machine

/-! ### The event -/

/-- The commit point never latches, so `STOP_RESTART` ends where it leaves the state (R150, R190). -/
theorem exec_of_commitPoint {s u : State} (x : Byte) (hm : s.mode = .addrWrite)
    (h : commitPoint (s.setNewStatus 0) = .ok u) :
    exec (.stopRestart x) s = .next (respond .ack 0x00 (u.setMode .writeEnded)) := by
  have hquiet : u.newStatus = 0 := by rw [commitPoint_frame h]; rfl
  rw [exec_closeWritePhase hm]
  exact dispatcherStep_of_quiet (closeWritePhase_eq_ok.2 ⟨u, h, rfl⟩) hquiet

/-! ### Nothing to commit -/

theorem sendByte_eq_false {d : Descriptor} (h : d.readLength ≠ 0 ∨ d.writeLength ≠ 0) : d.sendByte = false := by
  rwa [Descriptor.sendByte, Bool.and_eq_false_iff, decide_eq_false_iff_not, decide_eq_false_iff_not]

/-- A command without a declared write length stores nothing (R151). -/
theorem commit_of_no_length {d : Descriptor} {s : State} (hw : d.writeLength = 0) : commit d s = .ok s :=
  commit_eq_ok.2 ⟨[], commitCells_eq_ok.2 (.inl ⟨hw, rfl⟩), .inl ⟨rfl, rfl⟩⟩

/-- With an error latched or no code byte received the commit point does nothing (R150). -/
theorem commitPoint_of_closed {s : State} (h : s.errorLatched = true ∨ s.rxIndex = 0) : commitPoint s = .ok s := by
  refine commitPoint_eq_ok.2 (.inl ⟨?_, rfl⟩)
  rintro ⟨hclear, h1⟩
  obtain hl | h0 := h
  · exact absurd (hl.symm.trans hclear) (by decide)
  · rw [h0] at h1
    exact absurd h1 (by decide)

/-- An unsupported command has nothing to commit (R150). -/
theorem commitPoint_of_unsupported {s : State} (ha : s.activeDesc = none) : commitPoint s = .ok s := by
  unfold commitPoint
  split
  · rw [ha]
  · rfl

/-- Too few bytes, and a read-only command, leave nothing to commit (R150, R151). -/
theorem commitPoint_of_nothing_stored {s : State} {d : Descriptor} (ha : s.activeDesc = some d)
    (hd : d.readLength ≠ 0 ∨ d.writeLength ≠ 0)
    (h : s.rxIndex.toNat - 1 < s.writeLength.toNat ∨ d.writeLength = 0) : commitPoint s = .ok s := by
  have hsend := sendByte_eq_false hd
  by_cases hopen : s.errorLatched = false ∧ 1 ≤ s.rxIndex.toNat
  · refine commitPoint_eq_ok.2 (.inr ⟨hopen.1, hopen.2, .inr ⟨d, ha, .inr ?_⟩⟩)
    obtain hshort | hcomplete := Nat.lt_or_ge (s.rxIndex.toNat - 1) s.writeLength.toNat
    · exact .inr ⟨hsend, hshort, rfl⟩
    · exact .inl ⟨hsend, hcomplete, commit_of_no_length (h.resolve_left (Nat.not_lt.2 hcomplete))⟩
  · exact commitPoint_eq_ok.2 (.inl ⟨hopen, rfl⟩)

/-- Settles O36: each guard of R150 and R151 keeps the state. -/
theorem nothingToCommit : Obligations.NothingToCommit := by
  intro s x hm h
  have hpoint : commitPoint (s.setNewStatus 0) = .ok (s.setNewStatus 0) := by
    obtain hl | h0 | ha | ⟨d, ha, hd, hnone⟩ := h
    · exact commitPoint_of_closed (.inl hl)
    · exact commitPoint_of_closed (.inr h0)
    · exact commitPoint_of_unsupported ha
    · exact commitPoint_of_nothing_stored ha hd hnone
  exact exec_of_commitPoint x hm hpoint

/-! ### A send-byte command -/

/-- The commit point of a send-byte command is the push (R150, R154). -/
theorem commitPoint_of_sendByte {s t : State} {d : Descriptor} {p : Byte} {taken : Bool}
    (he : s.errorLatched = false) (h1 : 1 ≤ s.rxIndex.toNat) (ha : s.activeDesc = some d) (hr : d.readLength = 0)
    (hw : d.writeLength = 0) (hp : pageValue s = .ok p)
    (hpush : queuePush { code := d.code, page := p } s = .ok (taken, t)) : commitPoint s = .ok t := by
  have hsend : d.sendByte = true := by rw [Descriptor.sendByte, hr, hw]; rfl
  exact commitPoint_eq_ok.2
    (.inr ⟨he, h1, .inr ⟨d, ha, .inl ⟨hsend, sendByteEnqueue_eq_ok.2 ⟨p, hp, taken, hpush⟩⟩⟩⟩)

/-- Settles O38: the two results of the push. -/
theorem sendByteIsEnqueued : Obligations.SendByteIsEnqueued := by
  intro s x p d hm he h1 ha hr hw hp hq
  have hp' : pageValue (s.setNewStatus 0) = .ok p := (pageValue_congr rfl rfl).trans hp
  refine ⟨fun hf => ?full, fun hf => ?room⟩
  case full =>
    exact exec_of_commitPoint x hm
      (commitPoint_of_sendByte he h1 ha hr hw hp' (queuePush_eq_ok.2 (.inl ⟨hf, rfl⟩)))
  case room =>
    have htail : s.qTail < s.qRing.length := hq.ringLength ▸ hq.tailBelow
    exact ⟨_, exec_of_commitPoint x hm
      (commitPoint_of_sendByte he h1 ha hr hw hp' (queuePush_eq_ok.2 (.inr ⟨hf, htail, rfl⟩))),
      queueContents_setPushed hq hf _, rfl⟩

/-! ### Storing cells at a base -/

/-- Backing storage after a commit of `cells`, given as offsets from `base` and bytes (R152, R153). -/
def storedAt (base : Nat) (cells : List Host.Cell) (m : Memory) : Memory :=
  applyWrites (cells.map fun c => (base + c.1, c.2)) m

/-- A commit on a legal page stores its cells at the base (R151). -/
theorem commit_of_cells {d : Descriptor} {s : State} {base : Nat} {cells : List Host.Cell}
    (hcells : commitCells d s = .ok cells) (hlegal : pageLegal d s = .ok true) (hbase : baseAddress d s = .ok base)
    (hvalid : ∀ c ∈ cells, storeValid s.cfg (base + c.1) = true) :
    commit d s = .ok (s.setStore (storedAt base cells s.store)) := by
  refine commit_eq_ok.2 ⟨cells, hcells, ?_⟩
  by_cases hnil : cells = []
  · exact .inl ⟨hnil, by rw [hnil]; rfl⟩
  · exact .inr (.inr ⟨hnil, hlegal, base, hbase, hvalid, rfl⟩)

/-- `STOP_RESTART` of a complete write phase stores the cells of its command and changes nothing else. -/
theorem exec_stopRestart_of_cells {s : State} {d : Descriptor} {base : Nat} {cells : List Host.Cell} (x : Byte)
    (hm : s.mode = .addrWrite) (he : s.errorLatched = false) (h1 : 1 ≤ s.rxIndex.toNat) (ha : s.activeDesc = some d)
    (hw : d.writeLength ≠ 0) (hcomplete : s.writeLength.toNat ≤ s.rxIndex.toNat - 1)
    (hcells : commitCells d (s.setNewStatus 0) = .ok cells) (hlegal : pageLegal d s = .ok true)
    (hbase : baseAddress d s = .ok base) (hvalid : ∀ c ∈ cells, storeValid s.cfg (base + c.1) = true) :
    exec (.stopRestart x) s = .next { s with
      newStatus := 0, mode := .writeEnded, store := storedAt base cells s.store, out := ackOutput } := by
  have hcommit : commit d (s.setNewStatus 0) = .ok ((s.setNewStatus 0).setStore (storedAt base cells s.store)) :=
    commit_of_cells hcells ((pageLegal_congr d rfl rfl).trans hlegal) ((baseAddress_congr d rfl rfl).trans hbase) hvalid
  exact exec_of_commitPoint x hm (commitPoint_eq_ok.2
    (.inr ⟨he, h1, .inr ⟨d, ha, .inr (.inl ⟨sendByte_of_writeLength_ne_zero hw, hcomplete, hcommit⟩)⟩⟩))

/-- Cells at different offsets are all there afterwards. -/
theorem read_storedAt_mem {base : Nat} {cells : List Host.Cell} {m : Memory} {c : Host.Cell}
    (hd : (cells.map (·.1)).Nodup) (hc : c ∈ cells) : Memory.read (storedAt base cells m) (base + c.1) = c.2 := by
  refine read_applyWrites_mem ?_ (List.mem_map.2 ⟨c, hc, rfl⟩)
  have haddr : (cells.map fun c => (base + c.1, c.2)).map (·.1) = (cells.map (·.1)).map (base + ·) := by
    rw [List.map_map, List.map_map]; rfl
  rw [haddr]
  exact hd.map fun _ _ h => Nat.add_left_cancel h

/-- An address of no cell reads as before. -/
theorem read_storedAt_other {base a : Nat} {cells : List Host.Cell} {m : Memory} (h : ∀ c ∈ cells, a ≠ base + c.1) :
    Memory.read (storedAt base cells m) a = Memory.read m a := by
  refine read_applyWrites_other fun w hw => ?_
  obtain ⟨c, hc, rfl⟩ := List.mem_map.1 hw
  exact (h c hc).symm

/-! ### The cells of the staged bytes -/

/-- The bytes staged at offsets `0..n-1` are read in order (R152, R153). -/
theorem scratchBytes_of_staged {s : State} {n : Nat} {v : Nat → Byte}
    (h : ∀ k, k < n → Memory.get s.scratch k = some (v k)) : scratchBytes s n = .ok ((List.range n).map v) := by
  refine scratchBytes_eq_ok.2 ⟨by rw [List.length_map, List.length_range], fun j hj => ?_⟩
  rw [List.length_map, List.length_range] at hj
  rw [List.getElem_map, List.getElem_range]
  exact h j hj

/-- The cells of `n` payload bytes. -/
theorem mem_payloadCells_range {f : Bool} {n : Nat} {d : Descriptor} {v : Nat → Byte} {c : Host.Cell} :
    c ∈ payloadCells f n d 0 ((List.range n).map v) ↔ ∃ k, k < n ∧ c = (byteOff f k n d, v k) := by
  simp only [mem_payloadCells, List.length_map, List.length_range, List.getElem_map, List.getElem_range, Nat.zero_add,
    exists_prop]

/-- No two payload bytes have the same offset (R71). -/
theorem payloadCells_nodup {f : Bool} {n k : Nat} {d : Descriptor} {bs : List Byte} (h : k + bs.length ≤ n) :
    ((payloadCells f n d k bs).map (·.1)).Nodup := by
  induction bs generalizing k with
  | nil => exact List.nodup_nil
  | cons b bs ih =>
    rw [List.length_cons] at h
    refine List.nodup_cons.2 ⟨fun hmem => ?_, ih (by omega)⟩
    obtain ⟨c, hc, heq⟩ := List.mem_map.1 hmem
    obtain ⟨j, hj, rfl⟩ := mem_payloadCells.1 hc
    have := byteOff_inj (by omega) (by omega) heq
    omega

theorem payloadCells_range_nodup (f : Bool) (n : Nat) (d : Descriptor) (v : Nat → Byte) :
    ((payloadCells f n d 0 ((List.range n).map v)).map (·.1)).Nodup :=
  payloadCells_nodup (by rw [List.length_map, List.length_range, Nat.zero_add])

/-! ### A plain command -/

/-- The byte order of storage decides the offset of a plain command's byte (R71). -/
theorem byteOff_of_plain {f : Bool} {k n : Nat} {d : Descriptor} (hb : d.block = false) :
    byteOff f k n d = if f = true then n - 1 - k else k := by
  rw [byteOff, if_neg (by simp [hb])]

/-- Settles O34: the cells of a plain command are its staged bytes, at `n` different offsets below `n`. -/
theorem plainCommitStores : Obligations.PlainCommitStores := by
  intro s x d base v hm he h1 ha hb hw hcomplete hlegal hbase hvalid hstaged
  have hcells := commitCells_eq_ok.2 (.inr (.inl
    ⟨hw, hb, _, scratchBytes_of_staged (s := s.setNewStatus 0) hstaged, rfl⟩))
  have hoff : ∀ k, k < d.writeLength.toNat →
      byteOff s.cfg.storageMsbFirst k d.writeLength.toNat d < d.writeLength.toNat := by
    intro k hk
    rw [byteOff_of_plain hb]
    split <;> omega
  refine ⟨_, exec_stopRestart_of_cells x hm he h1 ha hw hcomplete hcells hlegal hbase fun c hc => ?valid,
    fun k hk => ?stored, fun a hframe => read_storedAt_other fun c hc => ?frame⟩
  case valid =>
    obtain ⟨k, hk, rfl⟩ := mem_payloadCells_range.1 hc
    exact hvalid _ (hoff k hk)
  case stored =>
    rw [← byteOff_of_plain hb]
    exact read_storedAt_mem (c := (_, v k)) (payloadCells_range_nodup ..) (mem_payloadCells_range.2 ⟨k, hk, rfl⟩)
  case frame =>
    obtain ⟨k, hk, rfl⟩ := mem_payloadCells_range.1 hc
    exact hframe _ (hoff k hk)

/-! ### A block command -/

/-- A block payload lies behind the reserved length byte, in wire order (R71). -/
theorem byteOff_of_block {f : Bool} {k n : Nat} {d : Descriptor} (hb : d.block = true) :
    byteOff f k n d = d.lenRes + k := by
  rw [byteOff, if_pos hb]

/-- The cell of the stored length, where the command reserves one (R153). -/
def lengthCells (d : Descriptor) (len : Nat) : List Host.Cell :=
  if d.lenByteFirst = true then [(0, BitVec.ofNat 8 len)] else []

theorem mem_lengthCells {d : Descriptor} {len : Nat} {c : Host.Cell} :
    c ∈ lengthCells d len ↔ d.lenByteFirst = true ∧ c = (0, BitVec.ofNat 8 len) := by
  unfold lengthCells
  split <;> simp_all

theorem lenRes_of_lenByteFirst {d : Descriptor} (h : d.lenByteFirst = true) : d.lenRes = 1 := by
  rw [Descriptor.lenRes, if_pos h]

/-- The cells of a block command: the length, and the payload behind it (R153). -/
theorem mem_blockCells {f : Bool} {d : Descriptor} {len : Nat} {v : Nat → Byte} {c : Host.Cell} (hb : d.block = true) :
    c ∈ lengthCells d len ++ payloadCells f len d 0 ((List.range len).map v) ↔
      (d.lenByteFirst = true ∧ c = (0, BitVec.ofNat 8 len)) ∨ ∃ k, k < len ∧ c = (d.lenRes + k, v k) := by
  simp only [List.mem_append, mem_lengthCells, mem_payloadCells_range, byteOff_of_block hb]

/-- The length byte and the payload bytes have different offsets. -/
theorem blockCells_nodup (f : Bool) {d : Descriptor} (len : Nat) (v : Nat → Byte) (hb : d.block = true) :
    ((lengthCells d len ++ payloadCells f len d 0 ((List.range len).map v)).map (·.1)).Nodup := by
  rw [List.map_append]
  refine List.Nodup.append ?_ (payloadCells_range_nodup ..) fun a hlen hpay => ?_
  · unfold lengthCells
    split
    · exact List.nodup_singleton _
    · exact List.nodup_nil
  · obtain ⟨c, hc, rfl⟩ := List.mem_map.1 hlen
    obtain ⟨e, he, heq⟩ := List.mem_map.1 hpay
    obtain ⟨hfirst, rfl⟩ := mem_lengthCells.1 hc
    obtain ⟨k, -, rfl⟩ := mem_payloadCells_range.1 he
    rw [byteOff_of_block hb, lenRes_of_lenByteFirst hfirst] at heq
    simp at heq

/-- The offsets of a block command's cells cover its length byte and payload only. -/
theorem blockCells_offset_lt {f : Bool} {d : Descriptor} {len : Nat} {v : Nat → Byte} {c : Host.Cell}
    (hb : d.block = true) (hc : c ∈ lengthCells d len ++ payloadCells f len d 0 ((List.range len).map v)) :
    c.1 < d.lenRes + len := by
  obtain ⟨hfirst, rfl⟩ | ⟨k, hk, rfl⟩ := (mem_blockCells hb).1 hc
  · rw [lenRes_of_lenByteFirst hfirst]
    show 0 < 1 + len
    omega
  · exact Nat.add_lt_add_left hk _

/-- Settles O35: the cells of a block command are its length byte and the payload behind it. -/
theorem blockCommitStores : Obligations.BlockCommitStores := by
  intro s x d base len v hm he h2 ha hb hw hlen hcomplete hlegal hbase hvalid hstaged
  have hpayload : s.writeLength.toNat - 1 = len := by omega
  have hcells : commitCells d (s.setNewStatus 0) =
      .ok (lengthCells d len ++ payloadCells s.cfg.storageMsbFirst len d 0 ((List.range len).map v)) := by
    subst hpayload
    exact commitCells_eq_ok.2 (.inr (.inr (.inr
      ⟨hw, hb, h2, _, scratchBytes_of_staged (s := s.setNewStatus 0) hstaged, rfl⟩)))
  have hnodup := blockCells_nodup s.cfg.storageMsbFirst len v hb
  refine ⟨_, exec_stopRestart_of_cells x hm he (Nat.le_of_succ_le h2) ha hw hcomplete hcells hlegal hbase
    fun c hc => hvalid _ (blockCells_offset_lt hb hc), fun hfirst => ?length, fun k hk => ?payload,
    fun a hframe => read_storedAt_other fun c hc => hframe _ (blockCells_offset_lt hb hc)⟩
  case length =>
    exact read_storedAt_mem (c := (0, _)) hnodup ((mem_blockCells hb).2 (.inl ⟨hfirst, rfl⟩))
  case payload =>
    rw [Nat.add_assoc]
    exact read_storedAt_mem (c := (_, v k)) hnodup ((mem_blockCells hb).2 (.inr ⟨k, hk, rfl⟩))

end Sys2Proof.Machine
end

section
/-!
PROOFS. Whole write transactions (spec/30_encoding.md R110): a write of an unsupported command is absorbed (R144, R203),
and a write of a plain command commits its bytes exactly if its PEC is right (R147, R151, R152). Each event of a
transaction is the statement about that event; what is left is the state between two events.
-/

namespace Sys2Proof.Machine

/-! ### Runs of acknowledged events -/

/-- The operations `is` lead from `s` to `t`, and each is answered by an acknowledge that transmits nothing. -/
def Acknowledged (is : List Instr) (s t : State) : Prop :=
  runAll is s = some (t, List.replicate is.length ackOutput)

theorem acknowledged_nil (s : State) : Acknowledged [] s s := rfl

theorem Acknowledged.cons {i : Instr} {is : List Instr} {s t u : State} (h : exec i s = .next t)
    (ho : t.out = ackOutput) (hr : Acknowledged is t u) : Acknowledged (i :: is) s u := by
  unfold Acknowledged at hr ⊢
  rw [runAll_cons_of_exec h, hr, ho]
  rfl

theorem acknowledged_single {i : Instr} {s t : State} (h : exec i s = .next t) (ho : t.out = ackOutput) :
    Acknowledged [i] s t :=
  .cons h ho (acknowledged_nil t)

theorem Acknowledged.append {is js : List Instr} {s t u : State} (h : Acknowledged is s t) (hr : Acknowledged js t u) :
    Acknowledged (is ++ js) s u := by
  induction is generalizing s with
  | nil =>
    obtain rfl : s = t := (Prod.mk.inj (Option.some.inj h)).1
    exact hr
  | cons i is ih =>
    unfold Acknowledged runAll at h
    split at h
    · rename_i v hexec
      obtain ⟨⟨w, outs⟩, hrun, heq⟩ := Option.map_eq_some_iff.1 h
      rw [List.length_cons, List.replicate_succ, Prod.mk.injEq, List.cons.injEq] at heq
      obtain ⟨rfl, hout, rfl⟩ := heq
      exact .cons hexec hout (ih hrun)
    · simp at h
    · simp at h

/-- The latching side of `FaultOutcome`. -/
theorem FaultOutcome.of_clear {status : Byte} {s t : State} {o : Host.Outcome State Fault Refusal}
    (h : FaultOutcome status s t o) (he : s.errorLatched = false) :
    ∃ m, o = .next { t with errorLatched := true, newStatus := status, store := m } ∧
      ∀ a, Memory.read m a = Memory.read t.store a ||| mergeBits t.cfg status a := by
  unfold FaultOutcome at h
  rwa [if_neg (by simp [he])] at h

/-! ### A write of an unsupported command -/

/-- A write phase that an unsupported code has put in error: every later byte is swallowed, and nothing will be committed
(R144, R150). -/
structure Absorbing (s : State) : Prop where
  /-- the phase is open -/
  mode : s.mode = .addrWrite
  /-- the command fault is latched -/
  latched : s.errorLatched = true
  /-- the code byte was counted -/
  counted : s.rxIndex ≠ 0
  /-- it named no command -/
  unsupported : s.activeDesc = none

theorem satInc_ne_zero (x : Counter) : satInc x ≠ 0 := by
  intro h
  have hcount := satInc_toNat x
  rw [h, show (0 : Counter).toNat = 0 from rfl] at hcount
  omega

/-- The first `k + 1` events after the code byte are acknowledged and touch neither storage nor the queue; the last of all
ends the phase. -/
theorem acknowledged_of_absorbing {s : State} (hs : Absorbing s) (bs : List Byte) {k : Nat} (hk : k ≤ bs.length) :
    ∃ x m, Acknowledged ((bs.map Instr.dataRx ++ [Instr.stopRestart 0]).take (k + 1)) s
        { s with newStatus := 0, rxIndex := x, mode := m, out := ackOutput } ∧
      (k = bs.length → m = .writeEnded) := by
  induction bs generalizing s k with
  | nil =>
    obtain rfl : k = 0 := Nat.le_zero.1 hk
    exact ⟨s.rxIndex, .writeEnded, acknowledged_single (nothingToCommit s 0 hs.mode (.inl hs.latched)) rfl, fun _ => rfl⟩
  | cons b bs ih =>
    have hexec := swallowedByte s b (.dataRx b) (.inl rfl) hs.mode hs.counted hs.unsupported
    cases k with
    | zero =>
      exact ⟨satInc s.rxIndex, s.mode, acknowledged_single hexec rfl, fun h => absurd h (Nat.succ_ne_zero _).symm⟩
    | succ k =>
      have hnext : Absorbing { s with newStatus := 0, rxIndex := satInc s.rxIndex, out := ackOutput } :=
        ⟨hs.mode, hs.latched, satInc_ne_zero s.rxIndex, hs.unsupported⟩
      obtain ⟨x, m, hrun, hm⟩ := ih hnext (Nat.le_of_succ_le_succ hk)
      exact ⟨x, m, .cons hexec rfl hrun, fun h => hm (Nat.succ.inj h)⟩

/-- An address match and an unsupported code: the command fault is latched and merged, the queue is kept (R143). -/
theorem acknowledged_unsupportedCode {s : State} {code : Byte} (a : Byte) (hl : s.cfg.lookup code = none)
    (hv : s.cfg.statusValid = true) :
    ∃ u, Acknowledged [.addrW a, .dataRx code] s u ∧ Absorbing u ∧ u.newStatus = 0x80 ∧
      (u.qRing = s.qRing ∧ u.qTail = s.qTail ∧ u.qHead = s.qHead ∧ u.qFull = s.qFull) ∧
      ∀ x, Memory.read u.store x = Memory.read s.store x ||| mergeBits s.cfg 0x80 x := by
  have hopen := exec_openWritePhase (s := s) (a := a) (.inl rfl)
  obtain ⟨m, hcode, hread⟩ := (unsupportedCommandByte (openWritePhase a (s.setNewStatus 0)) code (.dataRx code)
    (.inl rfl) rfl rfl hl hv).of_clear rfl
  have hone : (1 : Counter) ≠ 0 := by decide
  exact ⟨_, .cons hopen rfl (acknowledged_single hcode rfl), ⟨rfl, rfl, hone, rfl⟩, rfl, ⟨rfl, rfl, rfl, rfl⟩,
    hread⟩

/-- Settles O58: the code byte latches and merges, and every event after it is absorbed. -/
theorem unsupportedWriteIsAbsorbed : Obligations.UnsupportedWriteIsAbsorbed := by
  intro s code bs hl hv
  obtain ⟨u, hstart, hu, hstatus, ⟨hring, htail, hhead, hfull⟩, hread⟩ :=
    acknowledged_unsupportedCode (addressWrite s.cfg) hl hv
  refine ⟨⟨u, hstart, hstatus, hu.latched, hread, fun k h1 hk => ?later⟩, ?whole⟩
  case later =>
    obtain ⟨j, rfl⟩ := Nat.exists_eq_add_of_le' h1
    obtain ⟨x, mode, hrun, -⟩ := acknowledged_of_absorbing hu bs (Nat.le_of_succ_le_succ hk)
    exact ⟨_, _, hrun, rfl, hu.latched, rfl⟩
  case whole =>
    obtain ⟨x, mode, hrun, hmode⟩ := acknowledged_of_absorbing hu bs (Nat.le_refl _)
    rw [List.take_of_length_le (by simp)] at hrun
    exact ⟨_, _, hstart.append hrun, by simp, hmode rfl, hu.latched, rfl, hring, htail, hhead, hfull, hread⟩

/-! ### The payload of a plain command -/

/-- A command that is neither block nor paged nor page select: a write of it has no length byte, and every byte is valid. -/
structure PlainCommand (d : Descriptor) : Prop where
  /-- no block command -/
  block : d.block = false
  /-- not paged -/
  paged : d.paged = false
  /-- not page select -/
  code : d.code ≠ 0x00

/-- `u` is a write phase of the plain command `d` that began in `s`: after the bytes `frame` it has received the payload
bytes `bs`, none of them faulty. -/
structure PayloadReceived (d : Descriptor) (frame bs : List Byte) (s u : State) : Prop where
  /-- the configuration is kept -/
  cfg : u.cfg = s.cfg
  /-- storage is kept -/
  store : u.store = s.store
  /-- the phase is open -/
  mode : u.mode = .addrWrite
  /-- no error is latched -/
  clear : u.errorLatched = false
  /-- the command -/
  active : u.activeDesc = some d
  /-- its nominal length (R27) -/
  length : u.writeLength.toNat = d.writeLength.toNat
  /-- the code byte and the payload were counted -/
  counted : u.rxIndex.toNat = bs.length + 1
  /-- all bytes so far are in the checksum -/
  pec : u.pec = crcOver 0 (frame ++ bs)
  /-- the payload is staged in order -/
  staged : ∀ k, k < bs.length → Memory.get u.scratch k = some (bs.getD k 0)

/-- After the code byte the payload is empty. -/
theorem acknowledged_supportedCode {s : State} {code : Byte} {d : Descriptor} (a : Byte)
    (hl : s.cfg.lookup code = some d) :
    ∃ u, Acknowledged [.addrW a, .dataRx code] s u ∧ PayloadReceived d [a, code] [] s u := by
  have hopen := exec_openWritePhase (s := s) (a := a) (.inl rfl)
  have hcode := supportedCommandByte (openWritePhase a (s.setNewStatus 0)) code (.dataRx code) d (.inl rfl) rfl rfl hl
  have hwidth : (d.writeLength.zeroExtend 9).toNat = d.writeLength.toNat := by simp; omega
  exact ⟨_, .cons hopen rfl (acknowledged_single hcode rfl),
    { cfg := rfl
      store := rfl
      mode := rfl
      clear := rfl
      active := rfl
      length := hwidth
      counted := rfl
      pec := rfl
      staged := fun k hk => absurd hk (Nat.not_lt_zero k) }⟩

/-- One byte more, within the declared length, is staged behind the others and fed. -/
theorem PayloadReceived.receives {s u : State} {d : Descriptor} {frame bs : List Byte}
    (h : PayloadReceived d frame bs s u) (hd : PlainCommand d) (hlt : bs.length < d.writeLength.toNat) (b : Byte) :
    ∃ v, exec (.dataRx b) u = .next v ∧ v.out = ackOutput ∧ PayloadReceived d frame (bs ++ [b]) s v := by
  have hcounted := h.counted
  have hlength := h.length
  have hbound := d.writeLength.isLt
  obtain ⟨m, hexec, hget⟩ := dataByteIsStaged u b (.dataRx b) d (.inl rfl) h.mode h.active (by omega)
    (by simp [hd.block]) (by omega) (by omega) (pageLegal_of_not_paged hd.paged u) (.inl hd.code)
  rw [if_neg (by simp [hd.block]), hcounted, Nat.add_sub_cancel] at hget
  refine ⟨_, hexec, rfl,
    { cfg := h.cfg
      store := h.store
      mode := h.mode
      clear := h.clear
      active := h.active
      length := hlength
      counted := ?counted
      pec := ?pec
      staged := fun k hk => (hget k).trans ?staged }⟩
  case counted =>
    show (satInc u.rxIndex).toNat = _
    rw [satInc_toNat, hcounted, List.length_append, List.length_singleton]
    omega
  case pec =>
    rw [← List.append_assoc, crcOver_append, ← h.pec]
    rfl
  case staged =>
    rw [List.length_append, List.length_singleton] at hk
    split
    · rename_i hlast
      simp [hlast]
    · rename_i hne
      rw [h.staged k (by omega), List.getD_append _ _ _ _ (by omega)]

/-- As many bytes as the declared length has room for are all staged and fed. -/
theorem PayloadReceived.receives_all {s u : State} {d : Descriptor} {frame bs : List Byte}
    (h : PayloadReceived d frame bs s u) (hd : PlainCommand d) (cs : List Byte)
    (hfit : bs.length + cs.length ≤ d.writeLength.toNat) :
    ∃ v, Acknowledged (cs.map Instr.dataRx) u v ∧ PayloadReceived d frame (bs ++ cs) s v := by
  induction cs generalizing bs u with
  | nil => exact ⟨u, acknowledged_nil u, (List.append_nil bs).symm ▸ h⟩
  | cons c cs ih =>
    rw [List.length_cons] at hfit
    obtain ⟨v, hexec, hout, hv⟩ := h.receives hd (by omega) c
    obtain ⟨w, hrun, hw⟩ := ih hv (by rw [List.length_append, List.length_singleton]; omega)
    rw [List.append_assoc, List.singleton_append] at hw
    exact ⟨w, .cons hexec hout hrun, hw⟩

/-! ### The PEC byte and the commit -/

/-- The storage of a plain command is allocated (R63 (d)). -/
theorem storeValid_of_plain {c : Config} {d : Descriptor} (hwf : c.wf = true) (hmem : d ∈ c.table)
    (hp : d.paged = false) {k : Nat} (hk : k < d.writeLength.toNat) :
    storeValid c (d.storageAddress.toNat + k) = true := by
  refine Config.footprint_storeValid hwf hmem ?_
  have hcopies : d.copies c.numPages = 1 := by simp [Descriptor.copies, hp]
  have hmax := Nat.le_max_right d.readLength.toNat d.writeLength.toNat
  rw [hcopies, Nat.one_mul, Descriptor.stride]
  omega

/-- The fault registers are allocated throughout the phase (R63 (e)). -/
theorem PayloadReceived.statusValid {s u : State} {d : Descriptor} {frame bs : List Byte}
    (h : PayloadReceived d frame bs s u) (hwf : s.cfg.wf = true) : u.cfg.statusValid = true := by
  obtain ⟨-, -, -, -, hstatus, -⟩ := (Config.wf_iff s.cfg).1 hwf
  exact h.cfg ▸ hstatus

/-- With the right PEC byte the payload is committed. -/
theorem PayloadReceived.commits {s u : State} {d : Descriptor} {frame bs : List Byte} {pecByte : Byte}
    (h : PayloadReceived d frame bs s u) (hwf : s.cfg.wf = true) (hmem : d ∈ s.cfg.table) (hd : PlainCommand d)
    (hw : d.writeLength ≠ 0) (hlen : bs.length = d.writeLength.toNat) (hpec : pecByte = crcOver 0 (frame ++ bs)) :
    ∃ t, Acknowledged [.dataRx pecByte, .stopRestart 0] u t ∧
      (∀ k (hk : k < bs.length), Memory.read t.store
        (d.storageAddress.toNat + if s.cfg.storageMsbFirst = true then bs.length - 1 - k else k) = bs[k]) ∧
      ∀ a, (∀ k, k < bs.length → a ≠ d.storageAddress.toNat + k) →
        Memory.read t.store a = Memory.read s.store a := by
  obtain ⟨hmatch, -⟩ := pecPositionByte u pecByte (.dataRx pecByte) d (.inl rfl) h.mode h.active (by simp [hd.block])
    (by rw [h.counted, h.length, hlen]) (h.statusValid hwf)
  have hexec := hmatch (.inl hw) (hpec.trans h.pec.symm)
  have hbytes := d.writeLength.isLt
  have hcount : (satInc u.rxIndex).toNat = bs.length + 2 := by rw [satInc_toNat, h.counted]; omega
  obtain ⟨m, hstop, hstored, hframe⟩ := plainCommitStores
    { u with newStatus := 0, rxIndex := satInc u.rxIndex, out := ackOutput } 0 d d.storageAddress.toNat
    (fun k => bs.getD k 0) h.mode h.clear (by rw [hcount]; omega) h.active hd.block hw
    (by rw [hcount, h.length]; omega) (pageLegal_of_not_paged hd.paged _) (baseAddress_of_not_paged hd.paged _)
    (fun k hk => h.cfg ▸ storeValid_of_plain hwf hmem hd.paged hk) (hlen ▸ h.staged)
  rw [← hlen] at hstored hframe
  refine ⟨_, .cons hexec rfl (acknowledged_single hstop rfl), fun k hk => ?_, fun a ha => ?_⟩
  · rw [← h.cfg, ← List.getD_eq_getElem bs 0 hk]
    exact hstored k hk
  · rw [← h.store]
    exact hframe a ha

/-- With any other PEC byte nothing is committed, and the PEC fault is merged. -/
theorem PayloadReceived.rejects {s u : State} {d : Descriptor} {frame bs : List Byte} {pecByte : Byte}
    (h : PayloadReceived d frame bs s u) (hwf : s.cfg.wf = true) (hd : PlainCommand d) (hw : d.writeLength ≠ 0)
    (hlen : bs.length = d.writeLength.toNat) (hpec : pecByte ≠ crcOver 0 (frame ++ bs)) :
    ∃ t, Acknowledged [.dataRx pecByte, .stopRestart 0] u t ∧
      ∀ a, Memory.read t.store a = Memory.read s.store a ||| mergeBits s.cfg 0x20 a := by
  obtain ⟨-, hmismatch, -⟩ := pecPositionByte u pecByte (.dataRx pecByte) d (.inl rfl) h.mode h.active
    (by simp [hd.block]) (by rw [h.counted, h.length, hlen]) (h.statusValid hwf)
  obtain ⟨m, hexec, hread⟩ := (hmismatch (.inl hw) (fun he => hpec (he.trans h.pec))).of_clear h.clear
  refine ⟨_, .cons hexec rfl (acknowledged_single (nothingToCommit _ 0 h.mode (.inl rfl)) rfl), fun a => ?_⟩
  rw [← h.cfg, ← h.store]
  exact hread a

/-- The events of a write are those up to its payload and the last two. -/
theorem writeEvents_append (c : Config) (code pecByte : Byte) (bs : List Byte) :
    writeEvents c code (bs ++ [pecByte]) =
      ([.addrW (addressWrite c), .dataRx code] ++ bs.map Instr.dataRx) ++ [.dataRx pecByte, .stopRestart 0] := by
  simp [writeEvents]

/-- Settles O59: after the payload the PEC byte decides between the two endings. -/
theorem writeWithPec : Obligations.WriteWithPec := by
  intro s code pecByte d bs hwf hl hcode hb hp hw hlen
  have hd : PlainCommand d := ⟨hb, hp, (Config.code_of_lookup hwf hl).trans_ne hcode⟩
  obtain ⟨u0, hstart, hu0⟩ := acknowledged_supportedCode (addressWrite s.cfg) hl
  obtain ⟨u, hpayload, hu⟩ := hu0.receives_all hd bs (by rw [hlen, List.length_nil, Nat.zero_add])
  have hrun := hstart.append hpayload
  rw [writeEvents_append]
  by_cases hpec : pecByte = crcOver 0 ([addressWrite s.cfg, code] ++ bs)
  · obtain ⟨t, hend, hstored, hframe⟩ := hu.commits hwf (Config.mem_table_of_lookup hl) hd hw hlen hpec
    exact ⟨t, _, hrun.append hend, by simp, fun _ => ⟨hstored, hframe⟩, fun hne => absurd hpec hne⟩
  · obtain ⟨t, hend, hmerged⟩ := hu.rejects hwf hd hw hlen hpec
    exact ⟨t, _, hrun.append hend, by simp, fun heq => absurd heq hpec, fun _ => hmerged⟩

end Sys2Proof.Machine
end

section
/-!
PROOFS. The events of a read phase one by one (spec/43_dispatch_read.md R171 to R179): the byte that each case of R172
produces, as a function of the position of the byte in the read, and the end of the read. Both events that produce a
byte do it in the state that `readStart` gives, so each statement is one case of `produceCase` put through
`exec_of_produceCase`, or through `faultOutcome_of_produceCase` where the case latches.
-/

namespace Sys2Proof.Machine

/-! ### The event of a produced byte -/

/-- A byte is produced with `newStatus` cleared (R190). -/
theorem setNewStatus_of_readStart {i : Instr} {s r : State} (hr : readStart i s = some r) : r.setNewStatus 0 = r := by
  obtain ⟨hn, -⟩ := exec_of_readStart hr
  rw [← hn]; rfl

/-- From the state that `readStart` gives, both events are one dispatcher step (R171, R178, R190). -/
theorem exec_eq_dispatcherStep {i : Instr} {s r : State} (hr : readStart i s = some r) :
    exec i s = dispatcherStep true transmitNext r := by
  obtain ⟨-, -, -, -, hexec⟩ := exec_of_readStart hr
  rw [hexec, dispatcherStep, runEnabled_true, setNewStatus_of_readStart hr]

/-- The rule of that step counts and transmits the byte of the case (R172). -/
theorem runEnabled_of_produceCase {i : Instr} {s r u : State} {b : Byte} (hr : readStart i s = some r)
    (h : produceCase r = .ok (b, u)) :
    runEnabled true transmitNext (r.setNewStatus 0) = .ok (respond .ack b (u.setTxIndex (satInc u.txIndex))) := by
  rw [runEnabled_true, setNewStatus_of_readStart hr]
  exact transmitNext_eq_ok.2 ⟨b, u, h, rfl⟩

/-- A byte whose case latches nothing is counted and transmitted (R172). -/
theorem exec_of_produceCase {i : Instr} {s r u : State} {b : Byte} (hr : readStart i s = some r)
    (h : produceCase r = .ok (b, u)) (hn : u.newStatus = r.newStatus) :
    exec i s = .next (respond .ack b (u.setTxIndex (satInc u.txIndex))) := by
  obtain ⟨hfresh, -⟩ := exec_of_readStart hr
  rw [exec_eq_dispatcherStep hr]
  exact dispatcherStep_of_quiet (runEnabled_of_produceCase hr h) (hn.trans hfresh)

/-- A byte whose case does nothing but latch `status` is counted and transmitted like any other, and the fault is
merged if it is the first of the transaction (R172, R205, R206). -/
theorem faultOutcome_of_produceCase {i : Instr} {s r : State} {b status : Byte} (hr : readStart i s = some r)
    (h : produceCase r = .ok (b, latch status r)) (hs : status ≠ 0) (hv : s.cfg.statusValid = true) :
    FaultOutcome status r (respond .ack b (r.setTxIndex (satInc r.txIndex))) (exec i s) := by
  obtain ⟨hn, hc, -⟩ := exec_of_readStart hr
  rw [exec_eq_dispatcherStep hr]
  refine faultOutcome_of_cases (runEnabled_of_produceCase hr h) hs hn (hc ▸ hv) (fun hl => ?latched)
    fun hclear => ?clear
  case latched => rw [latch_of_latched status hl]
  case clear => rw [latch_of_fresh status hclear hn]; rfl

/-! ### The position of a byte in the read -/

/-- A block command's length byte comes before its payload (R103). -/
theorem effectiveIndex_eq (d : Descriptor) (s : State) :
    effectiveIndex d s = s.txIndex.toNat - if d.block = true then 1 else 0 := by
  unfold effectiveIndex
  split <;> rfl

/-- From the first payload byte on the length byte has been sent (R172). -/
theorem not_blockLength_of_effectiveIndex {d : Descriptor} {s : State} (h : 1 ≤ effectiveIndex d s) :
    ¬(d.block = true ∧ s.txIndex = 1) := by
  rintro ⟨hb, h1⟩
  rw [effectiveIndex_eq, if_pos hb, h1] at h
  exact absurd h (by decide)

/-! ### The cases of a produced byte -/

/-- Case NOREAD of a write-only command (R173). -/
theorem produceCase_writeOnly {s : State} {d : Descriptor} (ha : s.activeDesc = some d) (hR : d.readLength = 0) :
    produceCase s = .ok (fillFF, latch stI2c s) := by
  rw [produceCase_some ha, if_pos hR]

/-- Case BLEN (R174). -/
theorem produceCase_blockLength {s : State} {d : Descriptor} (ha : s.activeDesc = some d) (hR : d.readLength ≠ 0)
    (hb : d.block = true) (h1 : s.txIndex = 1) :
    produceCase s = produceIfLegal d (blockLengthByte d s) s := by
  rw [produceCase_some ha, if_neg hR, if_pos ⟨hb, h1⟩]

/-- Case DATA, payload byte `k` counted from 0 (R175). -/
theorem produceCase_payload {s : State} {d : Descriptor} {k : Nat} (ha : s.activeDesc = some d)
    (hk : k < d.readLength.toNat) (hpos : effectiveIndex d s = k + 1) :
    produceCase s = produceIfLegal d (payloadByte d k s) s := by
  have hR : d.readLength ≠ 0 := by intro h; rw [h] at hk; exact absurd hk (Nat.not_lt_zero k)
  rw [produceCase_some ha, if_neg hR, if_neg (not_blockLength_of_effectiveIndex (by omega)), if_pos (by omega), hpos,
    Nat.add_sub_cancel]

/-- Case PEC, the position after the payload (R176). -/
theorem produceCase_pec {s : State} {d : Descriptor} (ha : s.activeDesc = some d) (hR : d.readLength ≠ 0)
    (hpos : effectiveIndex d s = d.readLength.toNat + 1) : produceCase s = .ok (s.pec, s) := by
  rw [produceCase_some ha, if_neg hR, if_neg (not_blockLength_of_effectiveIndex (by omega)), if_neg (by omega),
    if_pos hpos]

/-- Case OVER, every position after the PEC (R177); for a write-only command it does the same as case NOREAD (R173). -/
theorem produceCase_over {s : State} {d : Descriptor} (ha : s.activeDesc = some d)
    (hpos : d.readLength.toNat + 2 ≤ effectiveIndex d s) : produceCase s = .ok (fillFF, latch stI2c s) := by
  rw [produceCase_some ha]
  split
  · rfl
  · rw [if_neg (not_blockLength_of_effectiveIndex (by omega)), if_neg (by omega), if_neg (by omega)]

/-! ### A byte from storage -/

/-- On a legal page the byte of the source is transmitted and fed (R174, R175). -/
theorem exec_of_legalSource {i : Instr} {s r : State} {d : Descriptor} {source : Except Stop Byte} {out : Byte}
    (hr : readStart i s = some r) (hcase : produceCase r = produceIfLegal d source r)
    (hlegal : pageLegal d r = .ok true) (hsource : source = .ok out) :
    exec i s = .next (respond .ack out ((crcUpdate out r).setTxIndex (satInc r.txIndex))) :=
  exec_of_produceCase hr (hcase.trans (produceIfLegal_eq_ok.2 (.inl ⟨hlegal, out, hsource, rfl⟩))) rfl

/-- On an illegal page the zero filler is transmitted and the data fault latched, whatever the source (R174, R175). -/
theorem faultOutcome_of_illegalPage {i : Instr} {s r : State} {d : Descriptor} {source : Except Stop Byte}
    (hr : readStart i s = some r) (hcase : produceCase r = produceIfLegal d source r)
    (hillegal : pageLegal d r = .ok false) (hv : s.cfg.statusValid = true) :
    FaultOutcome stData r (respond .ack fill00 (r.setTxIndex (satInc r.txIndex))) (exec i s) :=
  faultOutcome_of_produceCase hr (hcase.trans (produceIfLegal_eq_ok.2 (.inr ⟨hillegal, rfl⟩))) (by decide) hv

/-- The stored length is the byte at the base (R174). -/
theorem blockLengthByte_of_stored {d : Descriptor} {s : State} {base : Nat} (hfirst : d.lenByteFirst = true)
    (hbase : baseAddress d s = .ok base) (hvalid : storeValid s.cfg base = true) :
    blockLengthByte d s = .ok (Memory.read s.store base) := by
  rw [blockLengthByte, if_pos hfirst, hbase]
  exact storeRead_eq_ok.2 ⟨hvalid, rfl⟩

/-- Without a reserved length byte the size is fixed (R174). -/
theorem blockLengthByte_of_fixed {d : Descriptor} (s : State) (hfirst : d.lenByteFirst = false) :
    blockLengthByte d s = .ok d.readLength := by
  rw [blockLengthByte, if_neg (by simp [hfirst])]

/-- The payload is read at the base, each byte at its offset of R71 (R175). -/
theorem payloadByte_of_base {d : Descriptor} {s : State} {base k : Nat} (hbase : baseAddress d s = .ok base) :
    payloadByte d k s = storeRead s (base + byteOff s.cfg.storageMsbFirst k d.readLength.toNat d) := by
  rw [payloadByte, hbase, ok_bind]

/-! ### The statements -/

/-- Settles O40: case NOREAD with a descriptor. -/
theorem writeOnlyReadIsFlagged : Obligations.WriteOnlyReadIsFlagged :=
  fun _ _ _ _ hr ha hR hv => faultOutcome_of_produceCase hr (produceCase_writeOnly ha hR) (by decide) hv

/-- Settles O41: case BLEN, with its two sources on a legal page. -/
theorem blockReadLengthByte : Obligations.BlockReadLengthByte := by
  intro i s r d hr ha hR hb h1 hv
  have hcase := produceCase_blockLength ha hR hb h1
  have hcount : satInc r.txIndex = 2 := by rw [h1]; rfl
  rw [← hcount]
  refine ⟨fun base hlegal hfirst hbase hvalid => ?stored, fun hlegal hfirst => ?fixed, fun hillegal => ?illegal⟩
  case stored => exact exec_of_legalSource hr hcase hlegal (blockLengthByte_of_stored hfirst hbase hvalid)
  case fixed => exact exec_of_legalSource hr hcase hlegal (blockLengthByte_of_fixed r hfirst)
  case illegal => exact faultOutcome_of_illegalPage hr hcase hillegal hv

/-- Settles O42: case DATA. -/
theorem payloadByteIsRead : Obligations.PayloadByteIsRead := by
  intro i s r d k hr ha hk htx hv
  have hpos : effectiveIndex d r = k + 1 := by rw [effectiveIndex_eq, htx]; split <;> rfl
  have hcase := produceCase_payload ha hk hpos
  refine ⟨fun base out hlegal hbase hread => ?legal, fun hillegal => ?illegal⟩
  case legal => exact exec_of_legalSource hr hcase hlegal ((payloadByte_of_base hbase).trans hread)
  case illegal => exact faultOutcome_of_illegalPage hr hcase hillegal hv

/-- Settles O44: case OVER. -/
theorem overReadIsFlagged : Obligations.OverReadIsFlagged := by
  intro i s r d hr ha htx hv
  have hpos : d.readLength.toNat + 2 ≤ effectiveIndex d r := by
    rw [effectiveIndex_eq]
    split_ifs at htx ⊢ <;> omega
  exact faultOutcome_of_produceCase hr (produceCase_over ha hpos) (by decide) hv

/-- Settles O39: case NOREAD without a descriptor. -/
theorem unsupportedReadIsSilent : Obligations.UnsupportedReadIsSilent :=
  fun _ _ _ hr ha => exec_of_produceCase hr (produceCase_none ha) rfl

/-- Settles O43: case PEC. -/
theorem pecByteIsTransmitted : Obligations.PecByteIsTransmitted := by
  intro i s r d hr ha hR htx
  have hpos : effectiveIndex d r = d.readLength.toNat + 1 := by rw [effectiveIndex_eq, htx]; split <;> rfl
  exact exec_of_produceCase hr (produceCase_pec ha hR hpos) rfl

/-- Settles O45: the rule of the event and the catch-all are the same recovery. -/
theorem endOfRead : Obligations.EndOfRead := by
  intro s x
  have hrule : runEnabled s.inReadPhase (fun s => .ok (respond .ack 0x00 (s.setMode .idle))) (s.setNewStatus 0) =
      .ok (catchAll (s.setNewStatus 0)) := by
    cases s.inReadPhase with
    | true => rfl
    | false => rfl
  exact dispatcherStep_of_quiet hrule rfl

end Sys2Proof.Machine
end

section
/-!
PROOFS. A whole read transaction of a plain command (spec/30_encoding.md R110, spec/43_dispatch_read.md R171, R175,
R176): the write phase that names the command commits nothing, and each event of the read phase transmits the next byte of the
payload, or after it the checksum of all bytes so far. Each event is the statement about that event; what is left is the
state in which the next byte is produced.
-/

namespace Sys2Proof.Machine

/-- The answer that acknowledges and transmits `b` (R94, R95). -/
def transmitOutput (b : Byte) : Output := .response { action := .ack, txdata := b }

/-- Runs one after the other are a run. -/
theorem runAll_append {is js : List Instr} {s t : State} {os : List Output} (h : runAll is s = some (t, os)) :
    runAll (is ++ js) s = (runAll js t).map fun r => (r.1, os ++ r.2) := by
  induction is generalizing s os with
  | nil =>
    obtain ⟨rfl, rfl⟩ := Prod.mk.inj (Option.some.inj h)
    exact Option.map_id'.symm
  | cons i is ih =>
    rw [runAll] at h
    split at h
    · rename_i v hexec
      obtain ⟨⟨w, ps⟩, hrun, heq⟩ := Option.map_eq_some_iff.1 h
      obtain ⟨rfl, rfl⟩ := Prod.mk.inj heq
      rw [List.cons_append, runAll_cons_of_exec hexec, ih hrun, Option.map_map]
      rfl
    · simp at h
    · simp at h

/-! ### The state before each byte -/

/-- A readable command that is neither block nor paged, of a well-formed configuration. -/
structure PlainReadable (c : Config) (d : Descriptor) : Prop where
  /-- the configuration passes the checks of R63 -/
  configWf : c.wf = true
  /-- the command is in the table -/
  listed : d ∈ c.table
  /-- no block command -/
  block : d.block = false
  /-- not paged -/
  paged : d.paged = false
  /-- a read returns something -/
  readable : d.readLength ≠ 0

/-- In `r` a read phase of command `d` over the configuration and storage of `s` produces its next byte: after the bytes
`frame` it has transmitted the payload bytes `sent`. -/
structure ReadyToSend (d : Descriptor) (frame sent : List Byte) (s r : State) : Prop where
  /-- the configuration is kept -/
  cfg : r.cfg = s.cfg
  /-- storage is kept -/
  store : r.store = s.store
  /-- the phase is open -/
  mode : r.mode = .addrRead
  /-- the command -/
  active : r.activeDesc = some d
  /-- the payload was counted, from position 1 on -/
  counted : r.txIndex.toNat = sent.length + 1
  /-- all bytes so far are in the checksum -/
  pec : r.pec = crcOver 0 (frame ++ sent)

/-- `DATA_TX_ACK` produces its byte from the state the event before it left (R178). -/
theorem ReadyToSend.readStart_dataTxAck {d : Descriptor} {frame sent : List Byte} {s r : State}
    (h : ReadyToSend d frame sent s r) (x : Byte) :
    ∃ r', readStart (.dataTxAck x) r = some r' ∧ ReadyToSend d frame sent s r' :=
  ⟨r.setNewStatus 0, if_pos h.mode, h.cfg, h.store, h.mode, h.active, h.counted, h.pec⟩

/-- The fault registers are allocated throughout the phase (R63 (e)). -/
theorem PlainReadable.statusValid {c : Config} {d : Descriptor} (h : PlainReadable c d) : c.statusValid = true := by
  obtain ⟨-, -, -, -, hstatus, -⟩ := (Config.wf_iff c).1 h.configWf
  exact hstatus

/-- The storage byte of payload byte `k` can be read (R63 (d), R71). -/
theorem PlainReadable.storeRead {d : Descriptor} {s : State} {k : Nat} (h : PlainReadable s.cfg d)
    (hk : k < d.readLength.toNat) :
    storeRead s (d.storageAddress.toNat + byteOff s.cfg.storageMsbFirst k d.readLength.toNat d) =
      .ok (Memory.read s.store
        (d.storageAddress.toNat + byteOff s.cfg.storageMsbFirst k d.readLength.toNat d)) :=
  storeRead_eq_ok.2
    ⟨storeValid_of_base h.configWf h.listed (baseAddress_of_not_paged h.paged s) (byteOff_lt_of_read hk), rfl⟩

/-! ### One byte -/

/-- The next byte of the payload is transmitted and fed. -/
theorem ReadyToSend.sends {i : Instr} {s u r : State} {d : Descriptor} {frame sent : List Byte} {b : Byte}
    (h : ReadyToSend d frame sent s r) (hr : readStart i u = some r) (hd : PlainReadable s.cfg d)
    (hlt : sent.length < d.readLength.toNat)
    (hb : Memory.read s.store
      (d.storageAddress.toNat + byteOff s.cfg.storageMsbFirst sent.length d.readLength.toNat d) = b) :
    ∃ v, exec i u = .next v ∧ v.out = transmitOutput b ∧ ReadyToSend d frame (sent ++ [b]) s v := by
  obtain ⟨-, hcfg, -, -, -⟩ := exec_of_readStart hr
  have hdr : PlainReadable r.cfg d := h.cfg.symm ▸ hd
  have hbyte := hdr.storeRead hlt
  rw [h.store, h.cfg, hb] at hbyte
  have htx : r.txIndex.toNat = if d.block = true then sent.length + 2 else sent.length + 1 := by
    rw [if_neg (by simp [hd.block])]; exact h.counted
  obtain ⟨hlegal, -⟩ := payloadByteIsRead i u r d sent.length hr h.active hlt htx (hcfg ▸ hdr.statusValid)
  have hexec := hlegal d.storageAddress.toNat b (pageLegal_of_not_paged hd.paged r)
    (baseAddress_of_not_paged hd.paged r) (h.cfg ▸ hbyte)
  refine ⟨_, hexec, rfl,
    { cfg := h.cfg
      store := h.store
      mode := h.mode
      active := h.active
      counted := ?counted
      pec := ?pec }⟩
  case counted =>
    have hbound := d.readLength.isLt
    show (satInc r.txIndex).toNat = _
    rw [satInc_toNat, h.counted, List.length_append, List.length_singleton]
    omega
  case pec =>
    rw [← List.append_assoc, crcOver_append, ← h.pec]
    rfl

/-- After the payload the checksum of all bytes is transmitted. -/
theorem ReadyToSend.sends_pec {i : Instr} {s u r : State} {d : Descriptor} {frame sent : List Byte}
    (h : ReadyToSend d frame sent s r) (hr : readStart i u = some r) (hd : PlainReadable s.cfg d)
    (hlen : sent.length = d.readLength.toNat) :
    ∃ v, exec i u = .next v ∧ v.out = transmitOutput (crcOver 0 (frame ++ sent)) ∧ v.store = s.store := by
  have htx : r.txIndex.toNat = d.readLength.toNat + if d.block = true then 2 else 1 := by
    rw [if_neg (by simp [hd.block]), h.counted, hlen]
  exact ⟨_, pecByteIsTransmitted i u r d hr h.active hd.readable htx, congrArg transmitOutput h.pec, h.store⟩

/-! ### All bytes -/

/-- From any position on, an event and one `DATA_TX_ACK` for each payload byte still to come transmit the rest of the
payload and the checksum of the whole. -/
theorem ReadyToSend.sends_rest {i : Instr} {s u r : State} {d : Descriptor} {frame sent bs : List Byte}
    (h : ReadyToSend d frame sent s r) (hr : readStart i u = some r) (hd : PlainReadable s.cfg d)
    (hlen : bs.length = d.readLength.toNat)
    (hstored : ∀ k (hk : k < bs.length), Memory.read s.store
      (d.storageAddress.toNat + byteOff s.cfg.storageMsbFirst k d.readLength.toNat d) = bs[k])
    (rest : List Byte) (hbs : sent ++ rest = bs) :
    ∃ t, runAll (i :: List.replicate rest.length (.dataTxAck 0)) u =
        some (t, (rest ++ [crcOver 0 (frame ++ bs)]).map transmitOutput) ∧ t.store = s.store := by
  induction rest generalizing i u r sent with
  | nil =>
    rw [List.append_nil] at hbs
    obtain ⟨v, hexec, hout, hstore⟩ := h.sends_pec hr hd (hbs ▸ hlen)
    refine ⟨v, ?_, hstore⟩
    rw [runAll_cons_of_exec hexec, hout, hbs]
    rfl
  | cons b rest ih =>
    have hlt : sent.length < bs.length := by rw [← hbs]; simp
    have hb : bs[sent.length] = b := by simp [← hbs]
    obtain ⟨v, hexec, hout, hv⟩ := h.sends hr hd (hlen ▸ hlt) ((hstored sent.length hlt).trans hb)
    obtain ⟨r', hr', hready⟩ := hv.readStart_dataTxAck 0
    obtain ⟨t, hrun, hstore⟩ := ih hready hr' (by rw [List.append_assoc, List.singleton_append, hbs])
    refine ⟨t, ?_, hstore⟩
    rw [List.length_cons, List.replicate_succ, runAll_cons_of_exec hexec, hrun, hout]
    rfl

/-! ### The transaction -/

/-- The write phase that names a readable command commits nothing, and the read address match that follows it keeps the
checksum going (R150, R171). -/
theorem acknowledged_readableCode {s : State} {code : Byte} {d : Descriptor} (a a' : Byte)
    (hl : s.cfg.lookup code = some d) (hR : d.readLength ≠ 0) :
    ∃ u r, Acknowledged [.addrW a, .dataRx code, .stopRestart 0] s u ∧ readStart (.addrR a') u = some r ∧
      ReadyToSend d [a, code, a'] [] s r := by
  obtain ⟨w, hstart, hw⟩ := acknowledged_supportedCode a hl
  have hnone : w.rxIndex.toNat - 1 < w.writeLength.toNat ∨ d.writeLength = 0 := by
    rw [hw.counted, hw.length]
    exact (Nat.eq_zero_or_pos d.writeLength.toNat).symm.imp_right fun h0 => BitVec.eq_of_toNat_eq h0
  have hstop := nothingToCommit w 0 hw.mode (.inr (.inr (.inr ⟨d, hw.active, .inl hR, hnone⟩)))
  refine ⟨_, _, hstart.append (acknowledged_single hstop rfl), rfl,
    { cfg := hw.cfg
      store := hw.store
      mode := rfl
      active := hw.active
      counted := rfl
      pec := ?pec }⟩
  case pec =>
    show crcEntry (w.pec ^^^ a') = _
    rw [hw.pec]
    rfl

/-- Settles O60: the payload, its checksum and the end of the read follow the write phase that names the command. -/
theorem readReturnsStorage : Obligations.ReadReturnsStorage := by
  intro s code d bs hwf hl hb hp hR hlen hstored
  have hd : PlainReadable s.cfg d := ⟨hwf, Config.mem_table_of_lookup hl, hb, hp, hR⟩
  obtain ⟨u, r, hstart, hr, hready⟩ := acknowledged_readableCode (addressWrite s.cfg) (addressRead s.cfg) hl hR
  obtain ⟨t, hread, hstore⟩ := hready.sends_rest hr hd hlen
    (by simpa only [byteOff_of_plain hb, ← hlen] using hstored) bs rfl
  have hend := acknowledged_single (endOfRead t 0) rfl
  refine ⟨{ t with newStatus := 0, mode := .idle, out := ackOutput }, _, ?run, hstore, rfl, rfl⟩
  case run =>
    show runAll ([.addrW (addressWrite s.cfg), .dataRx code, .stopRestart 0] ++
      ((.addrR (addressRead s.cfg) :: List.replicate bs.length (.dataTxAck 0)) ++ [.dataTxNack 0])) s = _
    rw [runAll_append hstart, runAll_append hread, hend]
    rfl

end Sys2Proof.Machine
end

section
/-!
PROOFS. The `MODE` transition table (spec/44_dispatch_misc.md R195), the recovery of bus error and catch-all (R191, R192),
and the refusal of an operation from the wrong context (R196, spec/60_exceptions.md R215).
-/

namespace Sys2Proof.Machine

/-! ### The mode after an operation -/

/-- The operations that are no event keep the mode (R195). -/
theorem modeAfter_of_not_event {i : Instr} (hi : isEvent i = false) (gcEnable : Bool) (m : Mode) :
    modeAfter gcEnable i m = m := by
  cases i with
  | qDepth | qPop | crcReset | crcUpdate b | crcValue | qPush e => rfl
  | _ => simp [isEvent] at hi

/-- Settles O16: an event's rule leaves the mode of the table and the merge keeps it; no other operation writes it. -/
theorem modeTransitionTable : Obligations.ModeTransitionTable := by
  intro i s t h
  cases hi : isEvent i with
  | true =>
    obtain ⟨u, hu, -, ht⟩ := exec_of_event hi h
    have hmerge : t.mode = u.mode := by rw [ht, State.setStore_mode]
    exact hmerge.trans hu.mode
  | false =>
    obtain ⟨ht, -⟩ := exec_of_not_event hi h
    have hkept : t.mode = s.mode := by rw [ht]
    exact hkept.trans (modeAfter_of_not_event hi _ _).symm

/-! ### Recovery -/

theorem inWritePhase_of_not_mode {s : State} (h : s.mode ≠ .addrWrite) : s.inWritePhase = false := decide_eq_false h

theorem inReadPhase_of_not_mode {s : State} (h : s.mode ≠ .addrRead) : s.inReadPhase = false := decide_eq_false h

/-- An event that is not enabled runs the catch-all, which latches nothing (R98, R192). -/
theorem dispatcherStep_of_not_enabled {en : Bool} {rule : State → Except Stop State} {s : State} (h : en = false) :
    dispatcherStep en rule s = .next (catchAll (s.setNewStatus 0)) := by
  subst h
  exact dispatcherStep_of_quiet (runEnabled_false rule _) rfl

theorem exec_unrecognized (c x : Byte) (s : State) :
    exec (.unrecognized c x) s = dispatcherStep true (fun s => .ok (catchAll s)) s := rfl

theorem exec_busError (x : Byte) (s : State) :
    exec (.busError x) s = dispatcherStep true (fun s => .ok (respond .release 0x00 (s.setMode .idle))) s := rfl

/-- Settles O24: `UNRECOGNIZED` has the catch-all as its rule; what enables each other event (R98) is false. -/
theorem catchAllRecovers : Obligations.CatchAllRecovers := by
  intro s i hi
  obtain ⟨c, x, rfl⟩ | ⟨⟨a, rfl⟩, hgc⟩ | ⟨hi, hm⟩ | ⟨hi, hm⟩ := hi
  · rw [exec_unrecognized]
    exact dispatcherStep_of_quiet rfl rfl
  · exact dispatcherStep_of_not_enabled hgc
  · have hoff : s.inWritePhase = false := inWritePhase_of_not_mode hm
    obtain ⟨b, rfl⟩ | ⟨b, rfl⟩ | ⟨x, rfl⟩ := hi
    · exact dispatcherStep_of_not_enabled hoff
    · exact dispatcherStep_of_not_enabled hoff
    · exact dispatcherStep_of_not_enabled hoff
  · have hoff : s.inReadPhase = false := inReadPhase_of_not_mode hm
    obtain ⟨x, rfl⟩ | ⟨x, rfl⟩ := hi
    · exact dispatcherStep_of_not_enabled hoff
    · exact dispatcherStep_of_not_enabled hoff

/-- Settles O25: the rule releases the bus and leaves the phase, and latches nothing that the merge would store. -/
theorem busErrorReleases : Obligations.BusErrorReleases := by
  intro s x
  rw [exec_busError]
  exact dispatcherStep_of_quiet rfl rfl

/-! ### The issuing context -/

/-- Settles O5: the word decodes, and the context of its operation is compared before any context is entered. -/
theorem wrongContextIsRefused : Obligations.WrongContextIsRefused := by
  intro s issuer word rest i hwf hin hdec hctx
  rw [step_of_input hwf hin, runRequest, runWord, hdec]
  exact if_neg hctx

end Sys2Proof.Machine
end

section
/-!
PROOFS. Fault entry and exit (spec/60_exceptions.md R205 to R211): the latch and the post-event merge, what an event may
newly latch, and what a latched error suppresses until the next address match.
-/

namespace Sys2Proof.Machine

/-! ### Fault entry -/

/-- A newly latched status is merged whenever the fault registers are allocated (R63, R206). -/
theorem postEventMerge_of_latched {s : State} (hn : s.newStatus ≠ 0) (hv : s.cfg.statusValid = true) :
    postEventMerge s = .ok (s.setStore (applyOrs (eventMerges s.cfg s.newStatus) s.store)) :=
  postEventMerge_eq_ok.2 (.inr ⟨hn, eventMerges_valid hv s.newStatus, rfl⟩)

/-- Settles O56: the two cases of the error flag for `Latch`, and of `newStatus` for the merge. -/
theorem faultEntry : Obligations.FaultEntry := by
  intro s status
  refine ⟨latch_of_clear status, latch_of_latched status, postEventMerge_of_quiet, fun hn hv => ?_⟩
  exact ⟨_, postEventMerge_of_latched hn hv, read_merged s.cfg s.newStatus s.store⟩

/-- Settles O19: the event's rule latches at most one status bit, and the merge writes neither `newStatus` nor the
flag. -/
theorem atMostOneFaultPerEvent : Obligations.AtMostOneFaultPerEvent := by
  intro i s t hi h
  obtain ⟨u, hu, -, ht⟩ := exec_of_event hi h
  rw [ht, State.setStore_newStatus, State.setStore_errorLatched]
  exact hu.status

/-! ### While an error is latched -/

/-- While an error is latched, an event that opens no phase ends where its rule ends, with the error still latched:
nothing is newly latched, so nothing is merged (R205, R206, R211). -/
theorem exec_of_errorLatched {i : Instr} {s t : State} (hi : isEvent i = true) (h : exec i s = .next t)
    (ho : opensPhase s.cfg.gcEnable i = false) (he : s.errorLatched = true) :
    RuleFacts i s t ∧ t.errorLatched = true ∧ t.newStatus = 0 := by
  obtain ⟨u, hu, hmerge, -⟩ := exec_of_event hi h
  obtain ⟨hlatched, hquiet⟩ := hu.sticky ho he
  rw [postEventMerge_of_quiet hquiet, ok_eq_ok] at hmerge
  subst hmerge
  exact ⟨hu, hlatched, hquiet⟩

/-- Settles O17: an event keeps a latched error unless it opens a phase; no other operation writes the flag. -/
theorem onlyAddressMatchClearsError : Obligations.OnlyAddressMatchClearsError := by
  intro i s t h ho he
  cases hi : isEvent i with
  | true =>
    obtain ⟨-, hlatched, -⟩ := exec_of_errorLatched hi h ho he
    exact hlatched
  | false =>
    obtain ⟨ht, -⟩ := exec_of_not_event hi h
    have hkept : t.errorLatched = s.errorLatched := by rw [ht]
    exact hkept.trans he

/-- Settles O18: with nothing merged, only a commit point could write storage or the queue, and a latched error closes
it (R150, R210). -/
theorem latchedErrorSuppresses : Obligations.LatchedErrorSuppresses := by
  intro i s t hi h ho he
  obtain ⟨ht, -, hquiet⟩ := exec_of_errorLatched hi h ho he
  obtain ⟨-, -, hhead, -⟩ := ht.kept
  obtain ⟨x, -, -, hclear⟩ | ⟨hstore, hring, htail, hfull⟩ := ht.stored
  · exact absurd (he.symm.trans hclear) Bool.true_eq_false.mp
  · exact ⟨hquiet, hstore, hring, htail, hhead, hfull⟩

end Sys2Proof.Machine
end

section
/-!
PROOFS. The reset values of the block's own state (spec/70_reset_and_hazards.md R230, spec/10_state.md R42).
-/

namespace Sys2Proof.Machine

/-! ### The empty queue outside the invariant

A launch configuration need not be well formed, so the ring may have no position at all; what an empty queue holds does
not depend on it. -/

/-- An empty queue has depth 0 whatever its capacity: equal indices leave the residue 0 (R33, R133). -/
theorem queueDepth_of_queueEmpty {s : State} (h : s.queueEmpty = true) : queueDepth s = 0 := by
  obtain ⟨hidx, hfull⟩ := (queueEmpty_iff s).1 h
  simp [queueDepth, hidx, hfull]

theorem queueContents_of_queueEmpty {s : State} (h : s.queueEmpty = true) : queueContents s = [] :=
  List.eq_nil_of_length_eq_zero ((length_queueContents s).trans (queueDepth_of_queueEmpty h))

/-! ### Reset -/

/-- The launch values of the queue registers are those of an empty queue (R33, R42). -/
@[simp] theorem queueEmpty_launch (c : Config) (m : Memory) : (State.launch c m).queueEmpty = true :=
  (queueEmpty_iff _).2 ⟨rfl, rfl⟩

/-- Settles O10: each register is a field that the launch sets, storage and configuration are its arguments, and the
queue's contents follow from its registers for any capacity. -/
theorem resetValues : Obligations.ResetValues := by
  intro c m
  have hqueue : queueContents (State.launch c m) = [] := queueContents_of_queueEmpty (queueEmpty_launch c m)
  exact ⟨rfl, rfl, rfl, rfl, rfl, rfl, rfl, rfl, rfl, rfl, rfl, rfl, rfl, rfl, hqueue⟩

end Sys2Proof.Machine
end

section
/-!
PROOFS. The model's own reset state (notes/assumptions/1.md, notes/assumptions/3.md): a launch of the configuration that
lists the page-select command only, over storage in which nothing is listed.
-/

namespace Sys2Proof.Machine

/-! ### Where nothing but page select reaches the page register -/

/-- Every byte that a fault merges into lies at the fault byte or from the first status word on (R38, R206). -/
theorem eventMerges_ne_of_lt {c : Config} {a : Nat} (hcml : a < cmlAddress c) (hword : a < c.statusWordAddr.toNat)
    {status : Byte} {w : Host.Cell} (hw : w ∈ eventMerges c status) : w.1 ≠ a := by
  rcases List.mem_cons.1 hw with rfl | hw
  · exact Nat.ne_of_gt hcml
  · split at hw
    · obtain ⟨p, -, hlow | hhigh⟩ := mem_statusMerges hw
      · rw [hlow, statusLowAddress]; omega
      · rw [hhigh, statusHighAddress]; omega
    · exact absurd hw List.not_mem_nil

/-- A table of one command holds no other command than page select, so only the fault registers could overlap it. -/
theorem pageIsolated_of_singleton {c : Config} {d : Descriptor} (hwf : c.wf = true) (htable : c.table = [d])
    (hcml : d.storageAddress.toNat < cmlAddress c) (hword : d.storageAddress.toNat < c.statusWordAddr.toNat) :
    PageIsolated c := by
  have honly : ∀ {code : Byte} {d' : Descriptor}, c.lookup code = some d' → d' = d := fun hl =>
    List.mem_singleton.1 (htable ▸ Config.mem_table_of_lookup hl)
  intro d0 h0
  obtain rfl := honly h0
  refine ⟨fun status w hw => eventMerges_ne_of_lt hcml hword hw, fun code d' hcode hl => ?_⟩
  obtain rfl := honly hl
  exact absurd ((Config.code_of_lookup hwf hl).symm.trans (Config.code_of_lookup hwf h0)) hcode

/-! ### The launch configuration -/

/-- The model's launch configuration passes the checks of R63. -/
theorem launchConfig_wf : Config.launch.wf = true := by decide

theorem launchConfig_lookup_pageCommand :
    Config.launch.lookup pageCommand = some (Descriptor.pageSelect 0x0100) := rfl

/-- The page register at `0x0100` lies below the fault byte and the status words. -/
theorem launchConfig_pageIsolated : PageIsolated Config.launch :=
  pageIsolated_of_singleton (d := Descriptor.pageSelect 0x0100) launchConfig_wf rfl (by decide) (by decide)

/-- Unlisted storage reads as page 0, which is legal: there are two pages. -/
theorem reset_pageLegalNow : PageLegalNow State.reset := by
  refine (pageLegalNow_iff_read launchConfig_wf launchConfig_lookup_pageCommand).2 (.inl ?_)
  have hread : Memory.read State.reset.store (Descriptor.pageSelect 0x0100).storageAddress.toNat = unlistedByte :=
    Memory.read_nil _
  rw [hread]
  decide

/-- Settles O12: what every well-formed launch meets (`launchIsSound`), and the two facts about the page register that
hold for this configuration and this storage. -/
theorem resetIsSound : Obligations.ResetIsSound := by
  obtain ⟨hsound, hstaged, -⟩ := launchIsSound Config.launch [] launchConfig_wf rfl
  exact ⟨hsound, launchConfig_pageIsolated, reset_pageLegalNow, hstaged⟩

end Sys2Proof.Machine
end
